-- ==== Sys2Proof/Word.lean ====
section
/-!
DEFINITION. The word type of the block and its plainest constants: bytes, byte sequences of a fixed length,
and the ASCII codes the rules name (00_scope.md R10, R11).
-/

namespace Sys2Proof

/-- A stream symbol and a storage cell: 8 bits (00_scope.md R8, row `BYTE`). -/
abbrev Byte := BitVec 8

/-- A byte sequence whose length is part of its type (20_memory.md R68: "A model keeps the length as part of the
primitive's type, so a wrong length cannot be written down"). -/
abbrev Bytes (n : Nat) := { bs : List Byte // bs.length = n }

/-- Memory is a list of (address, byte) pairs; its canonical form is `Memory.wf` of Machine/Memory.lean. -/
abbrev Memory := List Host.Cell

/-- `CR` (00_scope.md R10). -/
abbrev chCR : Byte := 0x0D#8
/-- `' '`. -/
abbrev chSpace : Byte := 0x20#8
/-- `','`. -/
abbrev chComma : Byte := 0x2C#8
/-- `'Z'`, the sync byte `SYNC` (00_scope.md R8). -/
abbrev chZ : Byte := 0x5A#8
/-- The only implemented OpMode request code, `REQ_ENTER_FDC` (00_scope.md R8). -/
abbrev reqEnterFdc : Byte := 0x08#8

/-- The FDCMode command bytes (30_encoding.md R123). -/
abbrev chF : Byte := 0x46#8
abbrev chG : Byte := 0x47#8
abbrev chA : Byte := 0x41#8
abbrev chR : Byte := 0x52#8
abbrev chS : Byte := 0x53#8
abbrev chB : Byte := 0x42#8
abbrev chC : Byte := 0x43#8
abbrev chW : Byte := 0x57#8
abbrev chX : Byte := 0x58#8
abbrev chM : Byte := 0x4D#8
abbrev chD : Byte := 0x44#8

end Sys2Proof
end

