-- ==== Sys2Proof/Config.lean ====
section
/-!
DEFINITION. The implementation parameters of 00_scope.md R8. The source's fixed sizes are constants; the rows that
92_eei_decisions.md names as parameters are fields of `Config`, which State holds and no step changes (log 9).
-/

namespace Sys2Proof

/-- `NSECT`: physical sectors, indices 0..79. -/
abbrev nSect : Nat := 80
/-- `SECT_BYTES`. -/
abbrev sectBytes : Nat := 1024
/-- `ID_BYTES`. -/
abbrev idBytes : Nat := 12
/-- `BPS_DEFAULT`. -/
abbrev bpsDefault : Nat := 1024
/-- `NSLOT`: descriptor slots. -/
abbrev nSlot : Nat := 99
/-- `SLOT_BYTES`. -/
abbrev slotBytes : Nat := 7
/-- `PSN_MAX_RENDER`: the largest PSN the status word renders. -/
abbrev psnMaxRender : Nat := 255

/-- `NUM_LAYOUT` (30_encoding.md R110): which nibbles of descriptor bytes 5 and 6 hold the pattern number. -/
inductive NumLayout where
  | low3
  | high3
deriving DecidableEq, Repr

/-- The parameters an instance is built with (00_scope.md R8). -/
structure Config where
  /-- `BLOB_LEN`, the length N of the codec's blob. -/
  blobLen : Nat
  /-- `GUARD`, the collision guard offset. -/
  guard : Nat
  /-- `NUM_LAYOUT`. -/
  numLayout : NumLayout
  /-- `BPS_TABLE`, the bytes per logical sector of format codes 0..6. -/
  bpsTable : List Nat
  /-- `INIT_IMAGE`, its data part: byte i of sector p at address 1024 p + i. -/
  initData : Memory
  /-- `INIT_IMAGE`, its ID part: byte j of sector p at address 12 p + j. -/
  initIds : Memory
  /-- `INIT_BLOB`. -/
  initBlob : Memory
deriving DecidableEq, Repr

/-- The default of every parameter row of 00_scope.md R8. -/
def Config.default : Config where
  blobLen := 2048
  guard := 0x2B8
  numLayout := .low3
  bpsTable := [64, 80, 128, 256, 512, 1024, 1280]
  initData := []
  initIds := []
  initBlob := []

end Sys2Proof
end

