-- ==== Sys2Proof/Syntax.lean ====
section
/-!
DEFINITION. The block's instructions (30_encoding.md): the frames of the two frame languages and the operations of the
codec's command port, one constructor of `Instr` per row of spec/opcode_table.json, with the operands the row names.
-/

namespace Sys2Proof

/-- One item of a parameter field (30_encoding.md R105): `item ::= DIGIT | ',' | ' '`. -/
inductive ParmItem where
  | digit (d : Fin 10)
  | comma
  | space
deriving DecidableEq, Repr

/-- A parameter field as it stands in a frame (30_encoding.md R105): its items and the byte that ends it. -/
inductive ParmField where
  /-- The field ends at its CR. -/
  | closed (items : List ParmItem)
  /-- The field is broken off by a byte outside the grammar (41_fdc_commands.md R163). -/
  | broken (items : List ParmItem) (bad : Byte)
deriving DecidableEq, Repr

/-- What follows the first `'Z'` of an FDCMode resync (30_encoding.md R103, format `FDCZ`). -/
inductive ResyncTail where
  /-- A second byte other than `'Z'`: both bytes are discarded (41_fdc_commands.md R171). -/
  | drop (b : Byte)
  /-- `'Z'`, then request 0x08 with its payload and checksum byte. -/
  | enter (payload : List Byte) (ck : Byte)
  /-- `'Z'`, then another request code. -/
  | ignore (code : Byte)
deriving DecidableEq, Repr

/-- A decoded descriptor (43_pattern_table.md R229). -/
structure SlotRecord where
  index : Nat
  number : Nat
  stitches : Nat
  rows : Nat
  memoOffset : Int
  patternOffset : Int
  patternEndOffset : Int
deriving DecidableEq, Repr

/-- A rows x stitches array of bits with declared dimensions (30_encoding.md R120), its shape carried as a proof. -/
structure Grid where
  rows : Nat
  stitches : Nat
  bits : List (List Bool)
  shape : bits.length = rows ∧ ∀ row ∈ bits, row.length = stitches
deriving DecidableEq, Repr

/-- The grid of no row and no stitch. -/
def Grid.empty : Grid := ⟨0, 0, [], rfl, by simp⟩

/-- The slot record of zeros, which stands in a request whose operation names no slot (log 15). -/
def SlotRecord.zero : SlotRecord := ⟨0, 0, 0, 0, 0, 0, 0⟩

/-- A request of the codec's command port (30_encoding.md R120). -/
structure CodecReq where
  op : BitVec 4
  r : Nat
  s : Nat
  n : Nat
  slot : SlotRecord
  grid : Grid
deriving DecidableEq, Repr

/-- The instructions: one constructor per row of spec/opcode_table.json. The data operand of an `FDCP` frame is
absent (`none`) when the field halts the framer before its data phase (41_fdc_commands.md R163, R168). -/
inductive Instr where
  /-- `ENTER_FDC`: `ZZ`, 0x08, the length byte, the payload, the checksum byte (30_encoding.md R101). -/
  | enterFdc (payload : List Byte) (ck : Byte)
  /-- `REQ_IGN`: `ZZ` and a code other than 0x08. -/
  | reqIgn (code : Byte)
  /-- `HB`: CR. -/
  | hb
  /-- `RESYNC`: `Z`, a second byte, and after a second `Z` an `OPREQ` tail. -/
  | resync (tail : ResyncTail)
  /-- `FMT_F`: `F` and its field. -/
  | fmtF (fld : ParmField)
  /-- `FMT_G`: `G` and its field. -/
  | fmtG (fld : ParmField)
  /-- `RDID`: `A`, its field, the gate byte. -/
  | rdid (fld : ParmField) (gate : Option Byte)
  /-- `RDSEC`: `R`, its field, the gate byte. -/
  | rdsec (fld : ParmField) (gate : Option Byte)
  /-- `SRCHID`: `S`, its field, 12 ID bytes. -/
  | srchid (fld : ParmField) (id : Option (Bytes 12))
  /-- `WRID_B`: `B`, its field, 12 ID bytes. -/
  | wridB (fld : ParmField) (id : Option (Bytes 12))
  /-- `WRID_C`: `C`, its field, 12 ID bytes. -/
  | wridC (fld : ParmField) (id : Option (Bytes 12))
  /-- `WRSEC_W`: `W`, its field, 1024 data bytes. -/
  | wrsecW (fld : ParmField) (data : Option (Bytes 1024))
  /-- `WRSEC_X`: `X`, its field, 1024 data bytes. -/
  | wrsecX (fld : ParmField) (data : Option (Bytes 1024))
  /-- `UNSUP_M`: `M`. -/
  | unsupM
  /-- `UNSUP_D`: `D`. -/
  | unsupD
  /-- `IGN`: any other command byte. -/
  | ign (b : Byte)
  /-- `BFM`: bytesForMemo of `r` rows. -/
  | bfm (r : Nat)
  /-- `NPR`: nibblesPerRow of `s` stitches. -/
  | npr (s : Nat)
  /-- `BPP`: bytesPerPattern of `s` stitches and `r` rows. -/
  | bpp (s r : Nat)
  /-- `TDEC`: decode the descriptor table of the blob. -/
  | tdec
  /-- `LOOKUP`: the slot of pattern number `n`. -/
  | lookup (n : Nat)
  /-- `BDEC`: decode the bitmap of a slot record. -/
  | bdec (slot : SlotRecord)
  /-- `MDEC`: decode the memo of a slot record. -/
  | mdec (slot : SlotRecord)
  /-- `BENC`: encode a grid. -/
  | benc (grid : Grid)
  /-- `REPL`: replace pattern `n` by a grid in place. -/
  | repl (n : Nat) (grid : Grid)
  /-- `CODEC_RESERVED`: operation codes 0x9..0xF. -/
  | codecReserved (op : BitVec 4)
deriving DecidableEq, Repr

end Sys2Proof
end

