-- ==== Sys2Proof/Machine/Operands.lean ====
section
/-!
DEFINITION. Every operand form and every rendering: the parameter field's tokens and values (41_fdc_commands.md
R163 to R169, R175), status words (R165, 30_encoding.md R108, R109), size functions (43_pattern_table.md R219 to R222),
descriptor fields and offsets (R225, R227), nibbles (20_memory.md R76).
-/

namespace Sys2Proof.Machine

/-- The token sequence read so far and the token being accumulated, `EMPTY` as `none` (10_state.md R30). -/
abbrev Tokens := List (Option Nat) × Option Nat

/-- One item of the field (41_fdc_commands.md R163): a space is skipped, a digit extends the current token, a comma
ends it. -/
def scanItem (t : Tokens) : ParmItem → Tokens
  | .space => t
  | .digit d => (t.1, some (t.2.getD 0 * 10 + d.val))
  | .comma => (t.1 ++ [t.2], none)

/-- The accumulator after the items, in order. -/
def scanItems (items : List ParmItem) (t : Tokens) : Tokens := items.foldl scanItem t

/-- The completed field (41_fdc_commands.md R164): zero tokens when no digit and no comma were seen. -/
def fieldOf (t : Tokens) : List (Option Nat) :=
  if t.1 = [] ∧ t.2 = none then [] else t.1 ++ [t.2]

/-- The tokens of a whole field, from the cleared accumulator. -/
def fieldOfItems (items : List ParmItem) : List (Option Nat) := fieldOf (scanItems items ([], none))

/-- `PsnOf` (41_fdc_commands.md R166). -/
def psnOf : List (Option Nat) → Nat
  | some v :: _ => v
  | _ => 0

/-- `LsnOf` (41_fdc_commands.md R167): with two tokens or more it reads the PSN token again. -/
def lsnOf : List (Option Nat) → Nat
  | v :: _ :: _ => v.getD 0
  | _ => 1

/-- `BpsOf` (41_fdc_commands.md R175). -/
def bpsOf (table : List Nat) : List (Option Nat) → Nat
  | [some v] => if v ≤ 6 then table.getD v bpsDefault else bpsDefault
  | _ => bpsDefault

/-- Whether the field of a command other than F and G lets its data phase follow: it ends at its CR and its PSN can be
rendered (41_fdc_commands.md R163, R164, R168). -/
def fieldProceeds : ParmField → Bool
  | .closed items => decide (psnOf (fieldOfItems items) ≤ psnMaxRender)
  | .broken _ _ => false

/-- The item a byte stands for, if it is one (30_encoding.md R105). -/
def itemOfByte (b : Byte) : Option ParmItem :=
  if b = chSpace then some .space
  else if b = chComma then some .comma
  else if h : 0x30 ≤ b.toNat ∧ b.toNat ≤ 0x39 then some (.digit ⟨b.toNat - 0x30, by omega⟩)
  else none

/-- The byte of an item. -/
def byteOfItem : ParmItem → Byte
  | .space => chSpace
  | .comma => chComma
  | .digit d => BitVec.ofNat 8 (0x30 + d.val)

/-! ### Status words -/

/-- `HEXDIG[v]`, uppercase (30_encoding.md R109), for v in 0..15. -/
def hexDigit (v : Nat) : Byte :=
  if v < 10 then BitVec.ofNat 8 (0x30 + v) else BitVec.ofNat 8 (0x41 + (v - 10))

/-- `hex2(v)`, for v in 0..255 (30_encoding.md R109). -/
def hex2 (v : Nat) : List Byte := [hexDigit (v / 16), hexDigit (v % 16)]

/-- `StatusPsn(v) = "00" ++ hex2(v) ++ "0000"` (41_fdc_commands.md R165). -/
def statusPsn (v : Nat) : List Byte := [0x30#8, 0x30#8] ++ hex2 v ++ [0x30#8, 0x30#8, 0x30#8, 0x30#8]

/-- `"00000000"` (30_encoding.md R108). -/
def wordOk : List Byte := [0x30#8, 0x30#8, 0x30#8, 0x30#8, 0x30#8, 0x30#8, 0x30#8, 0x30#8]
/-- `"000000FF"`. -/
def wordFormat : List Byte := [0x30#8, 0x30#8, 0x30#8, 0x30#8, 0x30#8, 0x30#8, 0x46#8, 0x46#8]
/-- `"40000000"`. -/
def wordMiss : List Byte := [0x34#8, 0x30#8, 0x30#8, 0x30#8, 0x30#8, 0x30#8, 0x30#8, 0x30#8]
/-- `"80000000"`. -/
def wordStorageError : List Byte := [0x38#8, 0x30#8, 0x30#8, 0x30#8, 0x30#8, 0x30#8, 0x30#8, 0x30#8]

/-! ### Size functions -/

/-- `ceil_div(a, b) = (a + b - 1) div b` (43_pattern_table.md R219). -/
def ceilDiv (a b : Nat) : Nat := (a + b - 1) / b

/-- `BFM(r) = ceil_div(r, 2)` (43_pattern_table.md R220). -/
def bytesForMemo (r : Nat) : Nat := ceilDiv r 2

/-- `NPR(s) = ceil_div(s, 4)` (43_pattern_table.md R221). -/
def nibblesPerRow (s : Nat) : Nat := ceilDiv s 4

/-- `BPP(s, r) = ceil_div(r * NPR(s), 2)` (43_pattern_table.md R222, 90_conflicts.md C1). -/
def bytesPerPattern (s r : Nat) : Nat := ceilDiv (r * nibblesPerRow s) 2

/-! ### Nibbles and descriptor fields -/

/-- A byte's high nibble `v[7:4]`. -/
def hiNibble (v : Byte) : BitVec 4 := v.extractLsb' 4 4

/-- A byte's low nibble `v[3:0]`. -/
def loNibble (v : Byte) : BitVec 4 := v.extractLsb' 0 4

/-- The nibble of index k within its byte: high when k is odd (20_memory.md R76). -/
def nibbleOf (v : Byte) (k : Nat) : BitVec 4 := if k % 2 = 1 then hiNibble v else loNibble v

/-- `100*h + 10*t + o` over three nibbles, nibbles above 9 as their values (30_encoding.md R111). -/
def digits3 (h t o : BitVec 4) : Nat := 100 * h.toNat + 10 * t.toNat + o.toNat

/-- The rows field: `S[2]` both nibbles and `S[3]` high (43_pattern_table.md R225). -/
def rowsField (s2 s3 : Byte) : Nat := digits3 (hiNibble s2) (loNibble s2) (hiNibble s3)

/-- The stitches field: `S[3]` low and `S[4]` both nibbles (43_pattern_table.md R225). -/
def stitchesField (s3 s4 : Byte) : Nat := digits3 (loNibble s3) (hiNibble s4) (loNibble s4)

/-- The number field of bytes 5 and 6 under `NUM_LAYOUT` (43_pattern_table.md R225). -/
def numberField (layout : NumLayout) (s5 s6 : Byte) : Nat :=
  match layout with
  | .low3 => digits3 (loNibble s5) (hiNibble s6) (loNibble s6)
  | .high3 => digits3 (hiNibble s5) (loNibble s5) (hiNibble s6)

/-- The slot record of slot `i` from its seven bytes, for a blob of N bytes (43_pattern_table.md R225, R227, R229):
`pptr = N - 1 - (flag*256 + aux)`, the memo, pattern and end offsets below it, all signed and unchecked. -/
def slotOf (n : Nat) (layout : NumLayout) (i : Nat) (s0 s1 s2 s3 s4 s5 s6 : Byte) : SlotRecord :=
  let rows := rowsField s2 s3
  let stitches := stitchesField s3 s4
  let memo : Int := (n : Int) - 1 - (s0.toNat * 256 + s1.toNat : Nat)
  let pat := memo - (bytesForMemo rows : Nat)
  { index := i
    number := numberField layout s5 s6
    stitches := stitches
    rows := rows
    memoOffset := memo
    patternOffset := pat
    patternEndOffset := pat - (bytesPerPattern stitches rows : Nat) }

/-! ### Grids -/

/-- `grid[row][col]`; a position outside the grid reads as 0 (it is padding: 44_pattern_codec.md R254). -/
def gridBit (g : Grid) (row col : Nat) : Bool := ((g.bits[row]?).getD [])[col]?.getD false

/-- The rows of bits `f r c`, for r below `rows` and c below `stitches`. -/
def tabulate (rows stitches : Nat) (f : Nat → Nat → Bool) : List (List Bool) :=
  (List.range rows).map fun r => (List.range stitches).map fun c => f r c

/-- The grid of the bits `f r c`. -/
def gridOf (rows stitches : Nat) (f : Nat → Nat → Bool) : Grid where
  rows := rows
  stitches := stitches
  bits := tabulate rows stitches f
  shape := by simp [tabulate]

/-- Nibble k of row r (30_encoding.md R112): bit i is the stitch at column 4k + i, padding columns 0. -/
def gridNibble (g : Grid) (r k : Nat) : BitVec 4 :=
  BitVec.ofBool (gridBit g r (4 * k + 3)) ++ BitVec.ofBool (gridBit g r (4 * k + 2)) ++
    BitVec.ofBool (gridBit g r (4 * k + 1)) ++ BitVec.ofBool (gridBit g r (4 * k))

/-- The nibbles of a grid, row by row (44_pattern_codec.md R254). -/
def gridNibbles (g : Grid) : List (BitVec 4) :=
  (List.range g.rows).flatMap fun r => (List.range (nibblesPerRow g.stitches)).map fun k => gridNibble g r k

/-- Nibble 2j is the low nibble of byte j and nibble 2j+1 its high nibble; an odd count is padded with a zero nibble
(44_pattern_codec.md R254). -/
def packNibbles : List (BitVec 4) → List Byte
  | [] => []
  | [lo] => [(0#4 : BitVec 4) ++ lo]
  | lo :: hi :: rest => (hi ++ lo) :: packNibbles rest

/-- `BENC(grid)` (44_pattern_codec.md R254). -/
def encodeGrid (g : Grid) : List Byte := packNibbles (gridNibbles g)

end Sys2Proof.Machine
end

