-- ==== Sys2Proof/WellFormed.lean ====
section
/-!
DEFINITION. Well-formedness of an instruction: the checks that its operand types do not make (30_encoding.md R101 to
R107, R121 to R123). A grid's shape and the length of an ID or data payload are part of their types.
-/

namespace Sys2Proof

/-- The command bytes listed in 30_encoding.md R123; every other byte is `IGN`. -/
def listedCommand (b : Byte) : Bool :=
  [chCR, chZ, chF, chG, chA, chR, chS, chB, chC, chW, chX, chM, chD].contains b

/-- A broken field is broken by a byte outside the grammar (30_encoding.md R105). -/
def fieldWellFormed : ParmField → Bool
  | .closed _ => true
  | .broken _ bad => decide (bad ≠ chCR) && (Machine.itemOfByte bad).isNone

/-- The data operand is present exactly when the field lets the data phase follow (30_encoding.md R107). -/
def dataWellFormed (fld : ParmField) (present : Bool) : Bool :=
  fieldWellFormed fld && (present == Machine.fieldProceeds fld)

/-- The resync's second byte and request tail (30_encoding.md R103). -/
def tailWellFormed : ResyncTail → Bool
  | .drop b => decide (b ≠ chZ)
  | .enter payload _ => decide (payload.length ≤ 255)
  | .ignore code => decide (code ≠ reqEnterFdc)

/-- The well-formed instructions. -/
def Instr.wellFormed : Instr → Bool
  | .enterFdc payload _ => decide (payload.length ≤ 255)
  | .reqIgn code => decide (code ≠ reqEnterFdc)
  | .hb => true
  | .resync tail => tailWellFormed tail
  | .fmtF fld => fieldWellFormed fld
  | .fmtG fld => fieldWellFormed fld
  | .rdid fld gate => dataWellFormed fld gate.isSome
  | .rdsec fld gate => dataWellFormed fld gate.isSome
  | .srchid fld id => dataWellFormed fld id.isSome
  | .wridB fld id => dataWellFormed fld id.isSome
  | .wridC fld id => dataWellFormed fld id.isSome
  | .wrsecW fld data => dataWellFormed fld data.isSome
  | .wrsecX fld data => dataWellFormed fld data.isSome
  | .unsupM => true
  | .unsupD => true
  | .ign b => !listedCommand b
  | .bfm _ => true
  | .npr _ => true
  | .bpp _ _ => true
  | .tdec => true
  | .lookup _ => true
  | .bdec _ => true
  | .mdec _ => true
  | .benc _ => true
  | .repl _ _ => true
  | .codecReserved op => decide (9 ≤ op.toNat)

end Sys2Proof
end

