-- ==== Sys2Proof/Decode.lean ====
section
/-!
DEFINITION. The decoder, total on any bytes and any request and refusing by name, and after it the encoder, both
written from 30_encoding.md. A frame's length follows from bytes already read (R125).
-/

namespace Sys2Proof

/-- The two frame languages (30_encoding.md R100): OpMode frames are read in phase `HUNT`, FDCMode frames in `CMD`. -/
inductive Lang where
  | opmode
  | fdc
deriving DecidableEq, Repr

/-- What an instruction is written in: the bytes of a frame, or a request record. -/
inductive Code where
  | frame (lang : Lang) (bytes : List Byte)
  | request (q : CodecReq)
deriving DecidableEq, Repr

/-- Why bytes do not begin with a whole frame. -/
inductive DecodeError where
  /-- The bytes end inside a frame; the framer waits for more (70_reset_and_hazards.md R320). -/
  | incomplete
  /-- The bytes do not begin with the sync pair; the framer discards (40_opmode.md R140, R141). -/
  | noSync
deriving DecidableEq, Repr

/-- Append bytes that follow a frame on the stream. -/
def codeThen (c : Code) (rest : List Byte) : Code :=
  match c with
  | .frame lang bytes => .frame lang (bytes ++ rest)
  | .request q => .request q

/-! ### Decoder -/

/-- The first n bytes as a fixed-length sequence, and the rest. -/
def takeBytes (n : Nat) (bs : List Byte) : Option (Bytes n × List Byte) :=
  if h : n ≤ bs.length then some (⟨bs.take n, by simp [h]⟩, bs.drop n) else none

/-- The field that begins the bytes, and the rest (30_encoding.md R105). -/
def decodeField : List Byte → Except DecodeError (ParmField × List Byte)
  | [] => .error .incomplete
  | b :: bs =>
    if b = chCR then .ok (.closed [], bs)
    else
      match Machine.itemOfByte b with
      | none => .ok (.broken [] b, bs)
      | some it =>
        match decodeField bs with
        | .error e => .error e
        | .ok (.closed items, rest) => .ok (.closed (it :: items), rest)
        | .ok (.broken items bad, rest) => .ok (.broken (it :: items) bad, rest)

/-- A request from its code byte on: the `OPREQ` tail (30_encoding.md R101, bytes 2 and on). -/
def decodeTail : List Byte → Except DecodeError (ResyncTail × List Byte)
  | [] => .error .incomplete
  | code :: bs =>
    if code = reqEnterFdc then
      match bs with
      | [] => .error .incomplete
      | len :: bs =>
        match takeBytes len.toNat bs with
        | none => .error .incomplete
        | some (_, []) => .error .incomplete
        | some (payload, ck :: rest) => .ok (.enter payload.val ck, rest)
    else .ok (.ignore code, bs)

/-- A frame of the OpMode language (30_encoding.md R101). -/
def decodeOpmode : List Byte → Except DecodeError (Instr × List Byte)
  | [] => .error .incomplete
  | b0 :: bs =>
    if b0 ≠ chZ then .error .noSync
    else
      match bs with
      | [] => .error .incomplete
      | b1 :: bs =>
        if b1 ≠ chZ then .error .noSync
        else
          match decodeTail bs with
          | .error e => .error e
          | .ok (.enter payload ck, rest) => .ok (.enterFdc payload ck, rest)
          | .ok (.ignore code, rest) => .ok (.reqIgn code, rest)
          | .ok (.drop _, _) => .error .incomplete

/-- A field alone: the frames of F and G. -/
def decodeFormat (mk : ParmField → Instr) (bs : List Byte) : Except DecodeError (Instr × List Byte) :=
  match decodeField bs with
  | .error e => .error e
  | .ok (fld, rest) => .ok (mk fld, rest)

/-- A field and then, when it proceeds, one gate byte: the frames of A and R (30_encoding.md R107). -/
def decodeGated (mk : ParmField → Option Byte → Instr) (bs : List Byte) :
    Except DecodeError (Instr × List Byte) :=
  match decodeField bs with
  | .error e => .error e
  | .ok (fld, rest) =>
    if Machine.fieldProceeds fld then
      match rest with
      | [] => .error .incomplete
      | gate :: rest => .ok (mk fld (some gate), rest)
    else .ok (mk fld none, rest)

/-- A field and then, when it proceeds, n raw bytes: the frames of S, B, C, W and X (30_encoding.md R107). -/
def decodeData (n : Nat) (mk : ParmField → Option (Bytes n) → Instr) (bs : List Byte) :
    Except DecodeError (Instr × List Byte) :=
  match decodeField bs with
  | .error e => .error e
  | .ok (fld, rest) =>
    if Machine.fieldProceeds fld then
      match takeBytes n rest with
      | none => .error .incomplete
      | some (d, rest) => .ok (mk fld (some d), rest)
    else .ok (mk fld none, rest)

/-- A resync from its second byte on (30_encoding.md R103, format `FDCZ`). -/
def decodeResync : List Byte → Except DecodeError (Instr × List Byte)
  | [] => .error .incomplete
  | b :: bs =>
    if b ≠ chZ then .ok (.resync (.drop b), bs)
    else
      match decodeTail bs with
      | .error e => .error e
      | .ok (tail, rest) => .ok (.resync tail, rest)

/-- A frame of the FDCMode language (30_encoding.md R103, R123), matched on its command byte (R104). -/
def decodeFdc : List Byte → Except DecodeError (Instr × List Byte)
  | [] => .error .incomplete
  | c :: bs =>
    if c = chCR then .ok (.hb, bs)
    else if c = chZ then decodeResync bs
    else if c = chF then decodeFormat .fmtF bs
    else if c = chG then decodeFormat .fmtG bs
    else if c = chA then decodeGated .rdid bs
    else if c = chR then decodeGated .rdsec bs
    else if c = chS then decodeData 12 .srchid bs
    else if c = chB then decodeData 12 .wridB bs
    else if c = chC then decodeData 12 .wridC bs
    else if c = chW then decodeData 1024 .wrsecW bs
    else if c = chX then decodeData 1024 .wrsecX bs
    else if c = chM then .ok (.unsupM, bs)
    else if c = chD then .ok (.unsupD, bs)
    else .ok (.ign c, bs)

/-- A frame of either language. -/
def decodeFrame : Lang → List Byte → Except DecodeError (Instr × List Byte)
  | .opmode, bs => decodeOpmode bs
  | .fdc, bs => decodeFdc bs

/-- A request of the codec's command port (30_encoding.md R121): only the fields its operation names are read (R120). -/
def decodeRequest (q : CodecReq) : Instr :=
  if q.op = 0x0#4 then .bfm q.r
  else if q.op = 0x1#4 then .npr q.s
  else if q.op = 0x2#4 then .bpp q.s q.r
  else if q.op = 0x3#4 then .tdec
  else if q.op = 0x4#4 then .lookup q.n
  else if q.op = 0x5#4 then .bdec q.slot
  else if q.op = 0x6#4 then .mdec q.slot
  else if q.op = 0x7#4 then .benc q.grid
  else if q.op = 0x8#4 then .repl q.n q.grid
  else .codecReserved q.op

/-- The instruction that begins a code, and the bytes after it. -/
def decode : Code → Except DecodeError (Instr × List Byte)
  | .frame lang bs => decodeFrame lang bs
  | .request q => .ok (decodeRequest q, [])

/-! ### Encoder -/

/-- A field's bytes (30_encoding.md R105). -/
def encodeField : ParmField → List Byte
  | .closed items => items.map Machine.byteOfItem ++ [chCR]
  | .broken items bad => items.map Machine.byteOfItem ++ [bad]

/-- Request 0x08 from its code byte on (30_encoding.md R101). -/
def encodeEnter (payload : List Byte) (ck : Byte) : List Byte :=
  [reqEnterFdc, BitVec.ofNat 8 payload.length] ++ payload ++ [ck]

/-- A resync from its second byte on. -/
def encodeTail : ResyncTail → List Byte
  | .drop b => [b]
  | .enter payload ck => chZ :: encodeEnter payload ck
  | .ignore code => [chZ, code]

/-- An `FDCP` frame: command byte, field, data (30_encoding.md R103, R107). -/
def encodeFdcp (c : Byte) (fld : ParmField) (data : List Byte) : List Byte := c :: encodeField fld ++ data

/-- The bytes of an optional fixed-length operand. -/
def optBytes {n : Nat} : Option (Bytes n) → List Byte
  | none => []
  | some d => d.val

/-- A request with operation code `op` and every other field zero or empty (log 15). -/
def requestOp (op : BitVec 4) : CodecReq := ⟨op, 0, 0, 0, .zero, .empty⟩

/-- The code of an instruction, from 30_encoding.md R101 to R107, R121, R123. -/
def encode : Instr → Code
  | .enterFdc payload ck => .frame .opmode ([chZ, chZ] ++ encodeEnter payload ck)
  | .reqIgn code => .frame .opmode [chZ, chZ, code]
  | .hb => .frame .fdc [chCR]
  | .resync tail => .frame .fdc (chZ :: encodeTail tail)
  | .fmtF fld => .frame .fdc (encodeFdcp chF fld [])
  | .fmtG fld => .frame .fdc (encodeFdcp chG fld [])
  | .rdid fld gate => .frame .fdc (encodeFdcp chA fld gate.toList)
  | .rdsec fld gate => .frame .fdc (encodeFdcp chR fld gate.toList)
  | .srchid fld id => .frame .fdc (encodeFdcp chS fld (optBytes id))
  | .wridB fld id => .frame .fdc (encodeFdcp chB fld (optBytes id))
  | .wridC fld id => .frame .fdc (encodeFdcp chC fld (optBytes id))
  | .wrsecW fld data => .frame .fdc (encodeFdcp chW fld (optBytes data))
  | .wrsecX fld data => .frame .fdc (encodeFdcp chX fld (optBytes data))
  | .unsupM => .frame .fdc [chM]
  | .unsupD => .frame .fdc [chD]
  | .ign b => .frame .fdc [b]
  | .bfm r => .request { requestOp 0x0#4 with r := r }
  | .npr s => .request { requestOp 0x1#4 with s := s }
  | .bpp s r => .request { requestOp 0x2#4 with s := s, r := r }
  | .tdec => .request (requestOp 0x3#4)
  | .lookup n => .request { requestOp 0x4#4 with n := n }
  | .bdec slot => .request { requestOp 0x5#4 with slot := slot }
  | .mdec slot => .request { requestOp 0x6#4 with slot := slot }
  | .benc grid => .request { requestOp 0x7#4 with grid := grid }
  | .repl n grid => .request { requestOp 0x8#4 with n := n, grid := grid }
  | .codecReserved op => .request (requestOp op)

/-! ### The opcode table's numbering -/

/-- The bytes of a word, the least significant byte first: byte 0 is the first on the stream. -/
def wordBytes : Nat → Nat → List Byte
  | 0, _ => []
  | k + 1, w => BitVec.ofNat 8 w :: wordBytes k (w / 256)

/-- The frame language a table word of `nbits` bits belongs to: a word of 24 bits or more that begins with the sync
pair is an OpMode frame, anything else an FDCMode frame (log 5). -/
def langOfWord (nbits w : Nat) : Lang := if 24 ≤ nbits ∧ w % 65536 = 0x5A5A then .opmode else .fdc

/-- How many zero bytes stand after the table's bytes: at least as many as the frame they begin can still need. A word
that begins with `'Z'` reaches a length byte only from 32 bits on; another word ends its field only from 16 bits on. -/
def padBytes (nbits w : Nat) : Nat :=
  if w % 256 = 0x5A then (if 32 ≤ nbits then 256 else 4) else if 16 ≤ nbits then 1024 else 4

/-- Where a table word belongs (log 5): an 8-bit word below 0x10 is a codec operation code, except 0x0D, the byte of
`HB`; every other word is a frame, its bytes followed by zeros. -/
def codeOfWord (nbits w : Nat) : Code :=
  if nbits < 8 ∨ (nbits = 8 ∧ w < 16 ∧ w ≠ 0x0D) then .request (requestOp (BitVec.ofNat 4 w))
  else .frame (langOfWord nbits w) (wordBytes (nbits / 8) w ++ List.replicate (padBytes nbits w) 0#8)

/-- The instruction the decoder reads from a word numbered as spec/opcode_table.json numbers it, followed by zeros. -/
def decodeTableWord (nbits w : Nat) : Option Instr :=
  match decode (codeOfWord nbits w) with
  | .ok (i, _) => some i
  | .error _ => none

end Sys2Proof
end

