-- ==== Sys2Proof/Machine/State.lean ====
section
/-!
DEFINITION. The state of the block as plain data: the framer's registers, storage and ports (10_state.md R20 to R38),
the codec's registers, blob and command port (R39, R40), the parameters, and the host's schedule; its reset value.
-/

namespace Sys2Proof.Machine

/-- `FR.mode` (10_state.md R20). -/
inductive Mode where
  | op
  | fdc
deriving DecidableEq, Repr

/-- `FR.phase` (10_state.md R21), the framer's program counter (R42). -/
inductive Phase where
  | hunt
  | sync2
  | req
  | len
  | pay
  | cks
  | cmd
  | fz2
  | parm
  | gate
  | idin
  | datin
  | halt
deriving DecidableEq, Repr

/-- `FR.fault`, the fault cause (60_exceptions.md R280). -/
inductive Cause where
  | none
  | storageRange
  | unsupportedCmd
  | paramSyntax
  | psnUnrenderable
deriving DecidableEq, Repr

/-- The cause code of 60_exceptions.md R280. -/
def causeCode : Cause → Nat
  | .none => 0
  | .storageRange => 1
  | .unsupportedCmd => 2
  | .paramSyntax => 3
  | .psnUnrenderable => 4

/-- The event of port `EV` (10_state.md R38): a track number and the 2048-byte track image. -/
inductive Event where
  | trackWritten (track : Nat) (image : List Byte)
deriving DecidableEq, Repr

/-- One item the framer puts out, on `TX` or on `EV`; one list holds both, in the order they leave (20_memory.md R79). -/
inductive Output where
  | tx (b : Byte)
  | event (e : Event)
deriving DecidableEq, Repr

/-- The diagnostic records of 60_exceptions.md R299; not normative (log 6). -/
inductive LogRecord where
  | discard (b : Byte)
  | ignoredRequest (b : Byte)
  | checksumMismatch
  | unknownCommand (b : Byte)
  | gateNotCR (b : Byte)
  | collision (n : Nat)
deriving DecidableEq, Repr

/-- The framer `FR`. -/
structure Framer where
  /-- R20 -/
  mode : Mode
  /-- R21 -/
  phase : Phase
  /-- R22 -/
  chain : Bool
  /-- R23 -/
  forceOp : Bool
  /-- R24 -/
  cmd : Byte
  /-- R25 -/
  bps : Nat
  /-- R26 -/
  psn : Nat
  /-- R27 -/
  lsn : Nat
  /-- R28 -/
  reqLen : Byte
  /-- R28 -/
  reqRemain : Nat
  /-- R29 -/
  ckAcc : Byte
  /-- R30: completed tokens, `EMPTY` as `none`. -/
  toks : List (Option Nat)
  /-- R30: the token being accumulated. -/
  cur : Option Nat
  /-- R31 -/
  buf : List Byte
  /-- R31 -/
  bufCount : Nat
  /-- R32 -/
  lastTrack : Nat
  /-- R33 -/
  fault : Cause
  /-- R34, `FR.data`: byte i of sector p at address 1024 p + i. -/
  data : Memory
  /-- R34, `FR.id`: byte j of sector p at address 12 p + j. -/
  ids : Memory
  /-- R36: the bytes at `RX`, oldest first. -/
  rx : List Byte
  /-- R37, R38: what has left on `TX` and `EV`, oldest first. -/
  out : List Output
  /-- R299, not normative: `LOG`, oldest first. -/
  log : List LogRecord
deriving DecidableEq, Repr

/-- `CO.status` (60_exceptions.md R285). -/
inductive Status where
  | ok
  | patternNotFound
  | sizeMismatch
  | codecRange
  | badOp
deriving DecidableEq, Repr

/-- The status code of 60_exceptions.md R285. -/
def statusCode : Status → Nat
  | .ok => 0
  | .patternNotFound => 1
  | .sizeMismatch => 2
  | .codecRange => 3
  | .badOp => 4

/-- `CO.result` (10_state.md R40). -/
inductive Result where
  | none
  | number (n : Nat)
  | slots (l : List SlotRecord)
  | slot (r : SlotRecord)
  | notFound
  | grid (g : Grid)
  | bits (l : List Bool)
  | bytes (l : List Byte)
deriving DecidableEq, Repr

/-- The codec `CO`. -/
structure Codec where
  /-- R40 -/
  status : Status
  /-- R40 -/
  result : Result
  /-- R40 -/
  warn : Bool
  /-- R39: byte a at address a. -/
  blob : Memory
  /-- 30_encoding.md R120: the requests at the command port, oldest first. -/
  req : List CodecReq
  /-- R299, not normative: `LOG`, oldest first. -/
  log : List LogRecord
deriving DecidableEq, Repr

/-- One turn of the host's schedule (log 2): which action the next step is. -/
inductive Turn where
  /-- The framer consumes one RX byte (10_state.md R43). -/
  | framerByte
  /-- The framer takes the bytes of one whole frame in one step (log 1). -/
  | framerFrame
  /-- The codec serves one request (10_state.md R44). -/
  | codec
  /-- The reset input (70_reset_and_hazards.md R310). -/
  | reset
  /-- The host loads bytes into the blob from offset 0 up (10_state.md R39; log 13). -/
  | loadBlob (bytes : List Byte)
deriving DecidableEq, Repr

/-- The block. -/
structure State where
  /-- The instance's parameters (00_scope.md R8); no step changes them (10_state.md R46). -/
  cfg : Config
  /-- The model's own field: the turns the host has scheduled, next first; with none left, the default turn (log 2). -/
  sched : List Turn
  /-- The framer. -/
  fr : Framer
  /-- The codec. -/
  co : Codec
deriving DecidableEq, Repr

/-- Why a storage primitive raises (20_memory.md R61). -/
inductive StoreError where
  | outOfRange (p : Nat)
deriving DecidableEq, Repr

/-- The faults of a step. The block's own halts are next states (log 23); these stand only where a state that no run
reaches gives a rule nothing to act on (log 11). -/
inductive Fault where
  /-- Raised at the 12th ID or 1024th data byte when `FR.buf` does not hold `FR.bufCount` bytes: the source's
  `LengthMismatchError`, which the spec calls unreachable (60_exceptions.md R284). Safe: no run reaches it. -/
  | lengthMismatch
  /-- Raised at a field's CR when `FR.cmd` is none of the nine `FDCP` commands (10_state.md R24 says it always is).
  Safe: no run reaches it. -/
  | noHandler
deriving DecidableEq, Repr

/-- The refusals of a step. -/
inductive Refusal where
  /-- Raised by exec's arm of an instruction that has no meaning yet. Safe. No arm uses it. -/
  | notModelled (mnemonic : String)
deriving DecidableEq, Repr

/-- The framer at first power-up: every register as 70_reset_and_hazards.md R310 says, the store `INIT_IMAGE` (R314),
the ports empty (log 7). -/
def Framer.powerUp (c : Config) : Framer where
  mode := .op
  phase := .hunt
  chain := false
  forceOp := false
  cmd := 0x00#8
  bps := 1024
  psn := 0
  lsn := 1
  reqLen := 0#8
  reqRemain := 0
  ckAcc := 0x00#8
  toks := []
  cur := Option.none
  buf := []
  bufCount := 0
  lastTrack := 0
  fault := .none
  data := c.initData
  ids := c.initIds
  rx := []
  out := []
  log := []

/-- The codec at first power-up (R310, R314). -/
def Codec.powerUp (c : Config) : Codec where
  status := .ok
  result := .none
  warn := false
  blob := c.initBlob
  req := []
  log := []

/-- The block of parameters `c` at first power-up. -/
def State.powerUp (c : Config) : State where
  cfg := c
  sched := []
  fr := Framer.powerUp c
  co := Codec.powerUp c

/-- The block right after reset, with every parameter at its default. -/
def State.reset : State := State.powerUp Config.default

end Sys2Proof.Machine
end

