-- ==== Sys2Proof/Machine/Flags.lean ====
section
/-!
DEFINITION. Every status bit's computation (10_state.md R45): the checksum accumulator (30_encoding.md R102), the mode,
chain and forceOp bits at a command's end (41_fdc_commands.md R210, R211), the halt's fault code (60_exceptions.md
R281), and the codec's status, result and warning (44_pattern_codec.md R261, R263).
-/

namespace Sys2Proof.Machine

/-- The running sum of a request, mod 256 (10_state.md R29). -/
def ckAdd (acc b : Byte) : Byte := acc + b

/-- The checksum byte that `FR.ckAcc` asks for (40_opmode.md R145). -/
def ckExpected (acc : Byte) : Byte := acc ^^^ 0xFF#8

/-- The closed form of 30_encoding.md R102: `((0x08 + L + sum(payload)) mod 256) xor 0xFF`. -/
def checksumOf (payload : List Byte) : Byte :=
  BitVec.ofNat 8 ((0x08 + payload.length + (payload.map BitVec.toNat).sum) % 256) ^^^ 0xFF#8

/-- `EndCommand()` (41_fdc_commands.md R211). -/
def Framer.endCommand (f : Framer) : Framer :=
  let g : Framer :=
    if f.chain then { f with mode := if f.forceOp then .op else f.mode, chain := false, forceOp := false } else f
  { g with phase := if g.mode = .op then .hunt else .cmd }

/-- `ChainNext(isFormat)` (41_fdc_commands.md R210). -/
def Framer.chainNext (isFormat : Bool) (f : Framer) : Framer :=
  { f with chain := true, forceOp := f.forceOp || isFormat, phase := .cmd }

/-- `raise Halt(cause)`, the block's one trap (60_exceptions.md R281, R288): the cause is written, the phase becomes
HALT, every other register and everything already sent is kept. Only reset leaves it (R289). -/
def Framer.halt (cause : Cause) (f : Framer) : Framer := { f with fault := cause, phase := .halt }

/-- The collision guard of `REPL` (44_pattern_codec.md R261): `w` is true iff `patternEndOffset ≤ GUARD`. -/
def collides (guard : Nat) (patternEndOffset : Int) : Bool := decide (patternEndOffset ≤ (guard : Int))

/-- A codec step that succeeds (44_pattern_codec.md R263). -/
def Codec.succeed (r : Result) (c : Codec) : Codec := { c with status := .ok, result := r, warn := false }

/-- A codec step that fails (44_pattern_codec.md R263): result none, warning false, blob unchanged. -/
def Codec.fail (st : Status) (c : Codec) : Codec := { c with status := st, result := .none, warn := false }

/-- How a codec step ends that computes a value or fails. -/
def Codec.finish (r : Except Status Result) (c : Codec) : Codec :=
  match r with
  | .ok v => c.succeed v
  | .error st => c.fail st

end Sys2Proof.Machine
end

