-- ==== Sys2Proof/Machine/Memory.lean ====
section
/-!
DEFINITION. Memory as a list of (address, byte) pairs in one canonical form: addresses strictly rising and no entry
equal to what an unlisted address reads as. Sector data, sector IDs and the blob are each such a memory
(20_memory.md R60).
-/

namespace Sys2Proof.Machine

/-- What an unlisted address reads as: zero, the default of `INIT_IMAGE` and `INIT_BLOB` (00_scope.md R8; log 8). -/
abbrev unlisted : Byte := 0#8

/-- The byte at an address. -/
def memRead : Memory → Nat → Byte
  | [], _ => unlisted
  | (k, v) :: m, a => if k = a then v else memRead m a

/-- Write one byte, keeping the canonical form. -/
def memWrite : Memory → Nat → Byte → Memory
  | [], a, v => if v = unlisted then [] else [(a, v)]
  | (k, w) :: m, a, v =>
    if a < k then (if v = unlisted then (k, w) :: m else (a, v) :: (k, w) :: m)
    else if a = k then (if v = unlisted then m else (a, v) :: m)
    else (k, w) :: memWrite m a v

/-- The n bytes from address `a` up. -/
def memReadRange (m : Memory) (a n : Nat) : List Byte :=
  let window := m.filter fun c => a ≤ c.1 && c.1 < a + n
  (List.range n).map fun i => memRead window (a + i)

/-- The entries of a byte sequence stored from address `a` up. -/
def cellsOf : Nat → List Byte → Memory
  | _, [] => []
  | a, b :: bs => if b = unlisted then cellsOf (a + 1) bs else (a, b) :: cellsOf (a + 1) bs

/-- Store a byte sequence from address `a` up, index 0 first. -/
def memWriteRange (m : Memory) (a : Nat) (bs : List Byte) : Memory :=
  m.filter (fun c => c.1 < a) ++ cellsOf a bs ++ m.filter (fun c => a + bs.length ≤ c.1)

/-- Store zeros in the n bytes from address `a` up. -/
def memZeroRange (m : Memory) (a n : Nat) : Memory :=
  m.filter fun c => !(a ≤ c.1 && c.1 < a + n)

end Sys2Proof.Machine

namespace Sys2Proof

/-- Addresses strictly rising from `lo` on, no entry equal to what an unlisted address reads as. -/
def Memory.wfFrom : Nat → Memory → Bool
  | _, [] => true
  | lo, (k, v) :: m => decide (lo ≤ k) && decide (v ≠ Machine.unlisted) && Memory.wfFrom (k + 1) m

/-- The canonical form of a memory. -/
def Memory.wf (m : Memory) : Bool := Memory.wfFrom 0 m

/-- Every listed address exists in a space of `size` bytes. -/
def Memory.within (size : Nat) (m : Memory) : Bool := m.all fun c => c.1 < size

end Sys2Proof
end

