-- ==== Sys2Proof/Machine/Ops.lean ====
section
/-!
DEFINITION. The named operations every meaning is built from: the ports (00_scope.md R13), the storage error
(60_exceptions.md R283), the sector-store primitives (20_memory.md R61 to R69), the parameter field (41_fdc_commands.md
R163, R164), the payload buffer, the blob primitives (20_memory.md R75, R76), and the reset input
(70_reset_and_hazards.md R310).
-/

namespace Sys2Proof.Machine

/-! ### Ports -/

/-- `Tx(s)` (10_state.md R37). -/
def Framer.send (bs : List Byte) (f : Framer) : Framer := { f with out := f.out ++ bs.map .tx }

/-- `Emit(ev)` (10_state.md R38). -/
def Framer.emit (e : Event) (f : Framer) : Framer := { f with out := f.out ++ [.event e] }

/-- `Log(kind)` (60_exceptions.md R299), not normative. -/
def Framer.note (r : LogRecord) (f : Framer) : Framer := { f with log := f.log ++ [r] }

/-- A framer at whose `RX` only `rest` is left. -/
def Framer.withRx (rest : List Byte) (f : Framer) : Framer := { f with rx := rest }

/-- A codec at whose command port only `rest` is left. -/
def Codec.withReq (rest : List CodecReq) (k : Codec) : Codec := { k with req := rest }

/-- The bytes sent on `TX`, in order. -/
def txStream (out : List Output) : List Byte :=
  out.filterMap fun o => match o with
    | .tx b => some b
    | .event _ => none

/-- The events emitted on `EV`, in order. -/
def eventStream (out : List Output) : List Event :=
  out.filterMap fun o => match o with
    | .tx _ => none
    | .event e => some e

/-- What a raised `StorageOutOfRange` does to the framer (60_exceptions.md R283): the wire error, then the halt. -/
def Framer.storageFail (f : Framer) : Framer := (f.send wordStorageError).halt .storageRange

/-! ### Sector store -/

/-- The 1024 data bytes of sector p. -/
def Framer.sector (f : Framer) (p : Nat) : Bytes 1024 :=
  ⟨memReadRange f.data (p * sectBytes) sectBytes, by simp [memReadRange]⟩

/-- The 12 ID bytes of sector p. -/
def Framer.sectorId (f : Framer) (p : Nat) : Bytes 12 :=
  ⟨memReadRange f.ids (p * idBytes) idBytes, by simp [memReadRange]⟩

/-- `TrackImage(t)` for t in 1..40 (20_memory.md R69). -/
def Framer.trackImage (f : Framer) (t : Nat) : List Byte := (f.sector (2 * t - 2)).val ++ (f.sector (2 * t - 1)).val

/-- `SectRead(p)` (20_memory.md R62). -/
def Framer.sectRead (p : Nat) (f : Framer) : Except StoreError (Bytes 1024) :=
  if p < nSect then .ok (f.sector p) else .error (.outOfRange p)

/-- `SectWrite(p, d)` (20_memory.md R63): an odd sector also records its track and emits its image after the write. -/
def Framer.sectWrite (p : Nat) (d : Bytes 1024) (f : Framer) : Except StoreError Framer :=
  if p < nSect then
    let g := { f with data := memWriteRange f.data (p * sectBytes) d.val }
    if p % 2 = 1 then
      let t := p / 2 + 1
      .ok ({ g with lastTrack := t }.emit (.trackWritten t ((g.sector (p - 1)).val ++ (g.sector p).val)))
    else .ok g
  else .error (.outOfRange p)

/-- `IdRead(p)` (20_memory.md R64). -/
def Framer.idRead (p : Nat) (f : Framer) : Except StoreError (Bytes 12) :=
  if p < nSect then .ok (f.sectorId p) else .error (.outOfRange p)

/-- `IdWrite(p, v)` (20_memory.md R65). -/
def Framer.idWrite (p : Nat) (v : Bytes 12) (f : Framer) : Except StoreError Framer :=
  if p < nSect then .ok { f with ids := memWriteRange f.ids (p * idBytes) v.val } else .error (.outOfRange p)

/-- `IdFind(s, v)` (20_memory.md R66): the first sector from s to 79 whose ID equals v; none when s > 79. -/
def Framer.idFind (s : Nat) (v : Bytes 12) (f : Framer) : Option Nat :=
  (List.range nSect).find? fun k => s ≤ k && f.sectorId k == v

/-- `FormatAll()` (20_memory.md R67): zeros in all 80 sectors' data and IDs. -/
def Framer.formatAll (f : Framer) : Framer :=
  { f with data := memZeroRange f.data 0 (nSect * sectBytes), ids := memZeroRange f.ids 0 (nSect * idBytes) }

/-! ### The parameter field -/

/-- The step that takes one of `F G A R S B C W X` as command byte (41_fdc_commands.md R160). -/
def Framer.startCommand (c : Byte) (f : Framer) : Framer :=
  { f with cmd := c, toks := [], cur := Option.none, phase := .parm }

/-- One item of the field (41_fdc_commands.md R163). -/
def Framer.takeItem (f : Framer) (it : ParmItem) : Framer :=
  let t := scanItem (f.toks, f.cur) it
  { f with toks := t.1, cur := t.2 }

/-- The items of a field, in order. -/
def Framer.takeItems (items : List ParmItem) (f : Framer) : Framer := items.foldl Framer.takeItem f

/-- The completed field in the accumulator (41_fdc_commands.md R164). -/
def Framer.field (f : Framer) : List (Option Nat) := fieldOf (f.toks, f.cur)

/-- Field completion of a command other than F and G (41_fdc_commands.md R164): psn and lsn are written, a PSN above 255
halts (R168), else the command's handler runs. -/
def Framer.closePsn (handler : Framer → Framer) (f : Framer) : Framer :=
  let g := { f with psn := psnOf f.field, lsn := lsnOf f.field }
  if g.psn > psnMaxRender then g.halt .psnUnrenderable else handler g

/-- A whole field: its items, then its CR or the byte that breaks it (41_fdc_commands.md R163). -/
def Framer.runField (close : Framer → Framer) (fld : ParmField) (f : Framer) : Framer :=
  match fld with
  | .closed items => close (f.takeItems items)
  | .broken items _ => (f.takeItems items).halt .paramSyntax

/-! ### Data phases -/

/-- The first status word, then the wait for the gate byte (41_fdc_commands.md R180, R185). -/
def Framer.awaitGate (f : Framer) : Framer := { f.send (statusPsn f.psn) with phase := .gate }

/-- The first status word, then the wait for an ID or data payload in an empty buffer (41_fdc_commands.md R189, R193,
R196). -/
def Framer.awaitPayload (ph : Phase) (f : Framer) : Framer :=
  { f.send (statusPsn f.psn) with buf := [], bufCount := 0, phase := ph }

/-- Payload bytes enter the buffer (41_fdc_commands.md R190, R197). -/
def Framer.receive (bs : List Byte) (f : Framer) : Framer :=
  { f with buf := f.buf ++ bs, bufCount := f.bufCount + bs.length }

/-- The end of a gate that sends a payload or meets a storage error (41_fdc_commands.md R181). -/
def Framer.gatePayload (r : Except StoreError (List Byte)) (f : Framer) : Framer :=
  match r with
  | .ok bs => (f.send bs).endCommand
  | .error _ => f.storageFail

/-- A gate byte other than CR is dropped and the command ends (41_fdc_commands.md R181). -/
def Framer.gateDrop (b : Byte) (f : Framer) : Framer := (f.note (.gateNotCR b)).endCommand

/-! ### Blob -/

/-- Whether the blob of N bytes has offset `a` (20_memory.md R75). -/
def blobHas (n : Nat) (a : Int) : Bool := decide (0 ≤ a) && decide (a < (n : Int))

/-- `MemRead(a, 1)` (20_memory.md R75). -/
def blobRead (n : Nat) (blob : Memory) (a : Int) : Except Status Byte :=
  if blobHas n a then .ok (memRead blob a.toNat) else .error .codecRange

/-- The offset of the byte that holds nibble k of a region that grows down from `base` (20_memory.md R76). -/
def nibbleOffset (base : Int) (k : Nat) : Int := base - (k / 2 : Nat)

/-- `NibbleAt(base, k)` (20_memory.md R76). -/
def nibbleAt (n : Nat) (blob : Memory) (base : Int) (k : Nat) : Except Status (BitVec 4) :=
  match blobRead n blob (nibbleOffset base k) with
  | .ok v => .ok (nibbleOf v k)
  | .error e => .error e

/-- `MemWrite(top - j, 1, bs[j])` for every j, downward from `top` (20_memory.md R75; 44_pattern_codec.md R258). The
caller has checked the span. -/
def storeDown (blob : Memory) (top : Int) : List Byte → Memory
  | [] => blob
  | b :: bs => storeDown (memWrite blob top.toNat b) (top - 1) bs

/-- Whether every offset of the span `[lo, hi]` lies in the blob; an empty span does (44_pattern_codec.md R258). -/
def spanInBlob (n : Nat) (lo hi : Int) : Bool := decide (hi < lo) || (decide (0 ≤ lo) && decide (hi < (n : Int)))

/-- The host loads bytes into the blob from offset 0 up; bytes beyond N do not exist (10_state.md R39; log 13). -/
def Codec.load (n : Nat) (bytes : List Byte) (c : Codec) : Codec :=
  { c with blob := memWriteRange c.blob 0 (bytes.take n) }

/-! ### Whole-state updates and the reset input -/

/-- An action of the framer. -/
def State.onFramer (g : Framer → Framer) (s : State) : State := { s with fr := g s.fr }

/-- An action of the codec. -/
def State.onCodec (g : Codec → Codec) (s : State) : State := { s with co := g s.co }

/-- The reset input on the framer (70_reset_and_hazards.md R310 to R312): registers to their reset values; store, RX,
output and log kept. -/
def Framer.applyReset (c : Config) (f : Framer) : Framer :=
  { Framer.powerUp c with data := f.data, ids := f.ids, rx := f.rx, out := f.out, log := f.log }

/-- The reset input on the codec (R310, R311); pending requests are kept (log 14). -/
def Codec.applyReset (c : Config) (k : Codec) : Codec :=
  { Codec.powerUp c with blob := k.blob, req := k.req, log := k.log }

/-- The reset input (70_reset_and_hazards.md R310). -/
def State.applyReset (s : State) : State :=
  { s with fr := s.fr.applyReset s.cfg, co := s.co.applyReset s.cfg }

end Sys2Proof.Machine
end

