-- ==== Sys2Proof/Machine/OpMode.lean ====
section
/-!
DEFINITION. The OpMode request framer (40_opmode.md): its byte rules R140 to R145 with their outcomes R146 to R148, and
the meanings of the whole frames ENTER_FDC and REQ_IGN.
-/

namespace Sys2Proof.Machine

/-- Phase `HUNT` (40_opmode.md R140). -/
def huntByte (b : Byte) (f : Framer) : Framer :=
  if b = chZ then { f with phase := .sync2 } else { f.note (.discard b) with phase := .hunt }

/-- Phase `SYNC2` (40_opmode.md R141). -/
def sync2Byte (b : Byte) (f : Framer) : Framer :=
  if b = chZ then { f with phase := .req } else { f.note (.discard b) with phase := .hunt }

/-- An accepted enter-FDC request (40_opmode.md R146). -/
def acceptRequest (f : Framer) : Framer := { f with mode := .fdc }.endCommand

/-- An unimplemented request code (40_opmode.md R147). -/
def ignoreRequest (code : Byte) (f : Framer) : Framer := (f.note (.ignoredRequest code)).endCommand

/-- A checksum mismatch (40_opmode.md R148). -/
def rejectRequest (f : Framer) : Framer := (f.note .checksumMismatch).endCommand

/-- The request code 0x08 (40_opmode.md R142). -/
def takeCode (f : Framer) : Framer := { f with ckAcc := reqEnterFdc, phase := .len }

/-- Phase `REQ` (40_opmode.md R142). -/
def reqByte (b : Byte) (f : Framer) : Framer := if b = reqEnterFdc then takeCode f else ignoreRequest b f

/-- Phase `LEN` (40_opmode.md R143). -/
def lenByte (b : Byte) (f : Framer) : Framer :=
  { f with reqLen := b, reqRemain := b.toNat, ckAcc := ckAdd f.ckAcc b, phase := if b = 0#8 then .cks else .pay }

/-- Phase `PAY` (40_opmode.md R144). -/
def payByte (b : Byte) (f : Framer) : Framer :=
  let n := f.reqRemain - 1
  { f with ckAcc := ckAdd f.ckAcc b, reqRemain := n, phase := if n = 0 then .cks else f.phase }

/-- Phase `CKS` (40_opmode.md R145). -/
def cksByte (b : Byte) (f : Framer) : Framer :=
  if b = ckExpected f.ckAcc then acceptRequest f else rejectRequest f

/-- Request 0x08 from its code byte to its checksum byte. -/
def runRequest (payload : List Byte) (ck : Byte) (f : Framer) : Framer :=
  cksByte ck (payload.foldl (fun g b => payByte b g) (lenByte (BitVec.ofNat 8 payload.length) (takeCode f)))

/-- `ENTER_FDC` (40_opmode.md R142 to R146, R148). -/
def execEnterFdc (payload : List Byte) (ck : Byte) (s : State) : Host.Outcome State Fault Refusal :=
  .next (s.onFramer (runRequest payload ck))

/-- `REQ_IGN` (40_opmode.md R147). -/
def execReqIgn (code : Byte) (s : State) : Host.Outcome State Fault Refusal :=
  .next (s.onFramer (ignoreRequest code))

end Sys2Proof.Machine
end

