-- ==== Sys2Proof/Machine/FdcPlain.lean ====
section
/-!
DEFINITION. The FDCMode commands without parameters: HB, RESYNC, UNSUP_M, UNSUP_D, IGN (41_fdc_commands.md R170, R171,
R200, R201).
-/

namespace Sys2Proof.Machine

/-- The heartbeat (41_fdc_commands.md R170). -/
def heartbeat (f : Framer) : Framer := (f.send wordOk).endCommand

/-- `HB`. -/
def execHb (s : State) : Host.Outcome State Fault Refusal := .next (s.onFramer heartbeat)

/-- Phase `FZ2`, the byte after the first `'Z'` (41_fdc_commands.md R171). -/
def fz2Byte (b : Byte) (f : Framer) : Framer :=
  if b = chZ then { f with mode := .op, phase := .req } else (f.note (.discard b)).endCommand

/-- A resync from its second byte to the end of its frame (41_fdc_commands.md R171, R212). -/
def runResync (tail : ResyncTail) (f : Framer) : Framer :=
  match tail with
  | .drop b => fz2Byte b f
  | .enter payload ck => runRequest payload ck (fz2Byte chZ f)
  | .ignore code => ignoreRequest code (fz2Byte chZ f)

/-- `RESYNC`. -/
def execResync (tail : ResyncTail) (s : State) : Host.Outcome State Fault Refusal :=
  .next (s.onFramer (runResync tail))

/-- The command byte `M` (41_fdc_commands.md R200). -/
def unsupportedM (f : Framer) : Framer := f.halt .unsupportedCmd

/-- `UNSUP_M`. -/
def execUnsupM (s : State) : Host.Outcome State Fault Refusal := .next (s.onFramer unsupportedM)

/-- The command byte `D` (41_fdc_commands.md R200). -/
def unsupportedD (f : Framer) : Framer := f.halt .unsupportedCmd

/-- `UNSUP_D`. -/
def execUnsupD (s : State) : Host.Outcome State Fault Refusal := .next (s.onFramer unsupportedD)

/-- Any other command byte (41_fdc_commands.md R201). -/
def ignoreCommand (b : Byte) (f : Framer) : Framer := (f.note (.unknownCommand b)).endCommand

/-- `IGN`. -/
def execIgn (b : Byte) (s : State) : Host.Outcome State Fault Refusal := .next (s.onFramer (ignoreCommand b))

end Sys2Proof.Machine
end

