-- ==== Sys2Proof/Machine/Format.lean ====
section
/-!
DEFINITION. The format commands FMT_F and FMT_G (41_fdc_commands.md R174 to R177).
-/

namespace Sys2Proof.Machine

/-- Field completion of a format command (41_fdc_commands.md R174): bps, the format, the status word, the chain. -/
def Framer.closeFormat (c : Config) (word : List Byte) (f : Framer) : Framer :=
  (({ f with bps := bpsOf c.bpsTable f.field }.formatAll).send word).chainNext true

/-- The field completion of `F` (41_fdc_commands.md R174, R177). -/
def fmtFDone (c : Config) (f : Framer) : Framer := f.closeFormat c wordFormat

/-- `FMT_F`. -/
def execFmtF (fld : ParmField) (s : State) : Host.Outcome State Fault Refusal :=
  .next (s.onFramer fun f => (f.startCommand chF).runField (fmtFDone s.cfg) fld)

/-- The field completion of `G` (41_fdc_commands.md R174, R177). -/
def fmtGDone (c : Config) (f : Framer) : Framer := f.closeFormat c wordOk

/-- `FMT_G`. -/
def execFmtG (fld : ParmField) (s : State) : Host.Outcome State Fault Refusal :=
  .next (s.onFramer fun f => (f.startCommand chG).runField (fmtGDone s.cfg) fld)

end Sys2Proof.Machine
end

