-- ==== Sys2Proof/Machine/Ids.lean ====
section
/-!
DEFINITION. The ID commands SRCHID, WRID_B and WRID_C (41_fdc_commands.md R189 to R194).
-/

namespace Sys2Proof.Machine

/-- The 12 ID bytes of a frame, when the field left the framer waiting for them. -/
def Framer.runId (done : Bytes 12 → Framer → Framer) (id : Option (Bytes 12)) (f : Framer) : Framer :=
  match id with
  | some v => if f.phase = .idin then done v (f.receive v.val) else f
  | none => f

/-- The field completion of `S` (41_fdc_commands.md R189). -/
def srchidOpen (f : Framer) : Framer := f.awaitPayload .idin

/-- The completion of `S` at its 12th ID byte (41_fdc_commands.md R191). -/
def srchidDone (v : Bytes 12) (f : Framer) : Framer :=
  match f.idFind f.psn v with
  | some k => (f.send (statusPsn k)).endCommand
  | none => (f.send wordMiss).endCommand

/-- `SRCHID`. -/
def execSrchid (fld : ParmField) (id : Option (Bytes 12)) (s : State) : Host.Outcome State Fault Refusal :=
  .next (s.onFramer fun f =>
    ((f.startCommand chS).runField (Framer.closePsn srchidOpen) fld).runId srchidDone id)

/-- The end of an ID write (41_fdc_commands.md R194): the second status word and the chain, or the storage error. -/
def Framer.finishIdWrite (v : Bytes 12) (f : Framer) : Framer :=
  match f.idWrite f.psn v with
  | .ok g => (g.send (statusPsn g.psn)).chainNext false
  | .error _ => f.storageFail

/-- The field completion of `B` (41_fdc_commands.md R193). -/
def wridBOpen (f : Framer) : Framer := f.awaitPayload .idin

/-- The completion of `B` at its 12th ID byte (41_fdc_commands.md R194). -/
def wridBDone (v : Bytes 12) (f : Framer) : Framer := f.finishIdWrite v

/-- `WRID_B`. -/
def execWridB (fld : ParmField) (id : Option (Bytes 12)) (s : State) : Host.Outcome State Fault Refusal :=
  .next (s.onFramer fun f =>
    ((f.startCommand chB).runField (Framer.closePsn wridBOpen) fld).runId wridBDone id)

/-- The field completion of `C` (41_fdc_commands.md R193). -/
def wridCOpen (f : Framer) : Framer := f.awaitPayload .idin

/-- The completion of `C` at its 12th ID byte (41_fdc_commands.md R194). -/
def wridCDone (v : Bytes 12) (f : Framer) : Framer := f.finishIdWrite v

/-- `WRID_C`. -/
def execWridC (fld : ParmField) (id : Option (Bytes 12)) (s : State) : Host.Outcome State Fault Refusal :=
  .next (s.onFramer fun f =>
    ((f.startCommand chC).runField (Framer.closePsn wridCOpen) fld).runId wridCDone id)

end Sys2Proof.Machine
end

