-- ==== Sys2Proof/Machine/PatternTable.lean ====
section
/-!
DEFINITION. The pattern table (43_pattern_table.md): the size functions BFM, NPR, BPP, the table decode TDEC, LOOKUP.
-/

namespace Sys2Proof.Machine

/-- `BFM` (43_pattern_table.md R220). -/
def execBfm (r : Nat) (s : State) : Host.Outcome State Fault Refusal :=
  .next (s.onCodec (Codec.succeed (.number (bytesForMemo r))))

/-- `NPR` (43_pattern_table.md R221). -/
def execNpr (st : Nat) (s : State) : Host.Outcome State Fault Refusal :=
  .next (s.onCodec (Codec.succeed (.number (nibblesPerRow st))))

/-- `BPP` (43_pattern_table.md R222). -/
def execBpp (st r : Nat) (s : State) : Host.Outcome State Fault Refusal :=
  .next (s.onCodec (Codec.succeed (.number (bytesPerPattern st r))))

/-- The record of slot i, read from the blob (43_pattern_table.md R225, R227): bytes 1 to 6 after the flag. -/
def readSlot (c : Config) (blob : Memory) (i : Nat) (flag : Byte) : Except Status SlotRecord := do
  let b : Int := (slotBytes * (i - 1) : Nat)
  let s1 ← blobRead c.blobLen blob (b + 1)
  let s2 ← blobRead c.blobLen blob (b + 2)
  let s3 ← blobRead c.blobLen blob (b + 3)
  let s4 ← blobRead c.blobLen blob (b + 4)
  let s5 ← blobRead c.blobLen blob (b + 5)
  let s6 ← blobRead c.blobLen blob (b + 6)
  return slotOf c.blobLen c.numLayout i flag s1 s2 s3 s4 s5 s6

/-- The scan of `k` slots from slot i on (43_pattern_table.md R230): a zero flag stops it. -/
def scanTable (c : Config) (blob : Memory) : Nat → Nat → Except Status (List SlotRecord)
  | 0, _ => .ok []
  | k + 1, i => do
    let flag ← blobRead c.blobLen blob (slotBytes * (i - 1) : Nat)
    if flag = 0#8 then return []
    else
      let rec0 ← readSlot c blob i flag
      let more ← scanTable c blob k (i + 1)
      return rec0 :: more

/-- `TDEC()` (43_pattern_table.md R230). -/
def decodeTable (c : Config) (blob : Memory) : Except Status (List SlotRecord) := scanTable c blob nSlot 1

/-- `TDEC`. -/
def execTdec (s : State) : Host.Outcome State Fault Refusal :=
  .next (s.onCodec fun k => k.finish ((decodeTable s.cfg k.blob).map Result.slots))

/-- `LOOKUP(n)` (43_pattern_table.md R232, R233): the first record that carries the number. -/
def lookupSlot (c : Config) (blob : Memory) (n : Nat) : Except Status (Option SlotRecord) :=
  (decodeTable c blob).map fun l => l.find? fun r => r.number == n

/-- The result of a lookup (43_pattern_table.md R232). -/
def lookupResult : Option SlotRecord → Result
  | some r => .slot r
  | none => .notFound

/-- `LOOKUP`. -/
def execLookup (n : Nat) (s : State) : Host.Outcome State Fault Refusal :=
  .next (s.onCodec fun k => k.finish ((lookupSlot s.cfg k.blob n).map lookupResult))

end Sys2Proof.Machine
end

