-- ==== Sys2Proof/Machine/PatternCodec.lean ====
section
/-!
DEFINITION. The bitmap codec and pattern replacement (44_pattern_codec.md): BDEC, MDEC, BENC, REPL, and the reserved
operation codes (60_exceptions.md R285).
-/

namespace Sys2Proof.Machine

/-- Bit i of nibble k below `base`. -/
def bitAt (n : Nat) (blob : Memory) (base : Int) (k i : Nat) : Except Status Bool :=
  (nibbleAt n blob base k).map fun v => v.getLsbD i

/-- A read that did not raise. -/
def readOk : Except Status Bool → Bool
  | .ok _ => true
  | .error _ => false

/-- The bit of a read that did not raise. -/
def readBit : Except Status Bool → Bool
  | .ok b => b
  | .error _ => false

/-- The bit of row r and column c of a slot's bitmap (44_pattern_codec.md R250). -/
def bitmapBit (n : Nat) (blob : Memory) (slot : SlotRecord) (r c : Nat) : Except Status Bool :=
  bitAt n blob slot.patternOffset (r * nibblesPerRow slot.stitches + c / 4) (c % 4)

/-- `BDEC(rec)` (44_pattern_codec.md R250): the grid of the bits, unless one of the reads raises. -/
def decodeBitmap (n : Nat) (blob : Memory) (slot : SlotRecord) : Except Status Grid :=
  if (tabulate slot.rows slot.stitches fun r c => readOk (bitmapBit n blob slot r c)).all fun row => row.all id then
    .ok (gridOf slot.rows slot.stitches fun r c => readBit (bitmapBit n blob slot r c))
  else .error .codecRange

/-- `BDEC`. -/
def execBdec (slot : SlotRecord) (s : State) : Host.Outcome State Fault Refusal :=
  .next (s.onCodec fun k => k.finish ((decodeBitmap s.cfg.blobLen k.blob slot).map Result.grid))

/-- The memo flag of row r (44_pattern_codec.md R252): bit 0 of nibble r. -/
def memoBit (n : Nat) (blob : Memory) (slot : SlotRecord) (r : Nat) : Except Status Bool :=
  bitAt n blob slot.memoOffset r 0

/-- `MDEC(rec)` (44_pattern_codec.md R252). -/
def decodeMemo (n : Nat) (blob : Memory) (slot : SlotRecord) : Except Status (List Bool) :=
  if (List.range slot.rows).all fun r => readOk (memoBit n blob slot r) then
    .ok ((List.range slot.rows).map fun r => readBit (memoBit n blob slot r))
  else .error .codecRange

/-- `MDEC`. -/
def execMdec (slot : SlotRecord) (s : State) : Host.Outcome State Fault Refusal :=
  .next (s.onCodec fun k => k.finish ((decodeMemo s.cfg.blobLen k.blob slot).map Result.bits))

/-- `BENC` (44_pattern_codec.md R254). -/
def execBenc (grid : Grid) (s : State) : Host.Outcome State Fault Refusal :=
  .next (s.onCodec (Codec.succeed (.bytes (encodeGrid grid))))

/-- The blob after a slot's span was written (44_pattern_codec.md R258, R262): the bitmap from `patternOffset` down,
then a zero memo from `memoOffset` down. -/
def writeSpan (blob : Memory) (slot : SlotRecord) (grid : Grid) : Memory :=
  storeDown (storeDown blob slot.patternOffset (encodeGrid grid)) slot.memoOffset
    (List.replicate (bytesForMemo slot.rows) 0#8)

/-- The write of a `REPL` whose checks have passed (44_pattern_codec.md R258, R261). -/
def Codec.commitSpan (guard n : Nat) (slot : SlotRecord) (grid : Grid) (k : Codec) : Codec :=
  let w := collides guard slot.patternEndOffset
  { k with
    status := .ok
    result := .none
    warn := w
    blob := writeSpan k.blob slot grid
    log := if w then k.log ++ [.collision n] else k.log }

/-- `REPL(n, grid)` with its checks in the order of 44_pattern_codec.md R258, R259. -/
def replacePattern (c : Config) (n : Nat) (grid : Grid) (k : Codec) : Codec :=
  match lookupSlot c k.blob n with
  | .error st => k.fail st
  | .ok none => k.fail .patternNotFound
  | .ok (some slot) =>
    if grid.rows ≠ slot.rows ∨ grid.stitches ≠ slot.stitches then k.fail .sizeMismatch
    else if spanInBlob c.blobLen (slot.patternEndOffset + 1) slot.memoOffset then k.commitSpan c.guard n slot grid
    else k.fail .codecRange

/-- `REPL`. -/
def execRepl (n : Nat) (grid : Grid) (s : State) : Host.Outcome State Fault Refusal :=
  .next (s.onCodec (replacePattern s.cfg n grid))

/-- `CODEC_RESERVED` (60_exceptions.md R285): status `BAD_OP`, whichever of the reserved codes it is. -/
def execCodecReserved (_op : BitVec 4) (s : State) : Host.Outcome State Fault Refusal :=
  .next (s.onCodec (Codec.fail .badOp))

end Sys2Proof.Machine
end

