-- ==== Sys2Proof/Machine/Reads.lean ====
section
/-!
DEFINITION. The read commands RDID and RDSEC (41_fdc_commands.md R180 to R186).
-/

namespace Sys2Proof.Machine

/-- The gate byte of a frame, when the field left the framer at the gate. -/
def Framer.runGate (gateByte : Byte → Framer → Framer) (gate : Option Byte) (f : Framer) : Framer :=
  match gate with
  | some b => if f.phase = .gate then gateByte b f else f
  | none => f

/-- The field completion of `A` (41_fdc_commands.md R180). -/
def rdidOpen (f : Framer) : Framer := f.awaitGate

/-- The gate byte of `A` (41_fdc_commands.md R181, R182). -/
def rdidGate (b : Byte) (f : Framer) : Framer :=
  if b = chCR then f.gatePayload ((f.idRead f.psn).map Subtype.val) else f.gateDrop b

/-- `RDID`. -/
def execRdid (fld : ParmField) (gate : Option Byte) (s : State) : Host.Outcome State Fault Refusal :=
  .next (s.onFramer fun f =>
    ((f.startCommand chA).runField (Framer.closePsn rdidOpen) fld).runGate rdidGate gate)

/-- The field completion of `R` (41_fdc_commands.md R185). -/
def rdsecOpen (f : Framer) : Framer := f.awaitGate

/-- The gate byte of `R` (41_fdc_commands.md R181, R186). -/
def rdsecGate (b : Byte) (f : Framer) : Framer :=
  if b = chCR then f.gatePayload ((f.sectRead f.psn).map Subtype.val) else f.gateDrop b

/-- `RDSEC`. -/
def execRdsec (fld : ParmField) (gate : Option Byte) (s : State) : Host.Outcome State Fault Refusal :=
  .next (s.onFramer fun f =>
    ((f.startCommand chR).runField (Framer.closePsn rdsecOpen) fld).runGate rdsecGate gate)

end Sys2Proof.Machine
end

