-- ==== Sys2Proof/Machine/Writes.lean ====
section
/-!
DEFINITION. The sector writes WRSEC_W and WRSEC_X (41_fdc_commands.md R196 to R198).
-/

namespace Sys2Proof.Machine

/-- The 1024 data bytes of a frame, when the field left the framer waiting for them. -/
def Framer.runData (done : Bytes 1024 → Framer → Framer) (data : Option (Bytes 1024)) (f : Framer) : Framer :=
  match data with
  | some d => if f.phase = .datin then done d (f.receive d.val) else f
  | none => f

/-- The end of a sector write (41_fdc_commands.md R198): the write with its event, then the second status word, or the
storage error. -/
def Framer.finishSectorWrite (d : Bytes 1024) (f : Framer) : Framer :=
  match f.sectWrite f.psn d with
  | .ok g => (g.send (statusPsn g.psn)).endCommand
  | .error _ => f.storageFail

/-- The field completion of `W` (41_fdc_commands.md R196). -/
def wrsecWOpen (f : Framer) : Framer := f.awaitPayload .datin

/-- The completion of `W` at its 1024th data byte (41_fdc_commands.md R198). -/
def wrsecWDone (d : Bytes 1024) (f : Framer) : Framer := f.finishSectorWrite d

/-- `WRSEC_W`. -/
def execWrsecW (fld : ParmField) (data : Option (Bytes 1024)) (s : State) : Host.Outcome State Fault Refusal :=
  .next (s.onFramer fun f =>
    ((f.startCommand chW).runField (Framer.closePsn wrsecWOpen) fld).runData wrsecWDone data)

/-- The field completion of `X` (41_fdc_commands.md R196). -/
def wrsecXOpen (f : Framer) : Framer := f.awaitPayload .datin

/-- The completion of `X` at its 1024th data byte (41_fdc_commands.md R198). -/
def wrsecXDone (d : Bytes 1024) (f : Framer) : Framer := f.finishSectorWrite d

/-- `WRSEC_X`. -/
def execWrsecX (fld : ParmField) (data : Option (Bytes 1024)) (s : State) : Host.Outcome State Fault Refusal :=
  .next (s.onFramer fun f =>
    ((f.startCommand chX).runField (Framer.closePsn wrsecXOpen) fld).runData wrsecXDone data)

end Sys2Proof.Machine
end

