-- ==== Sys2Proof/Machine/Dispatch.lean ====
section
/-! DEFINITION. The dispatch: one arm per constructor of Instr, each one direct call of its meaning. -/

namespace Sys2Proof.Machine

def exec (i : Instr) (s : State) : Host.Outcome State Fault Refusal :=
  match i with
  | .enterFdc payload ck => Sys2Proof.Machine.execEnterFdc payload ck s
  | .reqIgn code => Sys2Proof.Machine.execReqIgn code s
  | .hb => Sys2Proof.Machine.execHb s
  | .resync tail => Sys2Proof.Machine.execResync tail s
  | .fmtF fld => Sys2Proof.Machine.execFmtF fld s
  | .fmtG fld => Sys2Proof.Machine.execFmtG fld s
  | .rdid fld gate => Sys2Proof.Machine.execRdid fld gate s
  | .rdsec fld gate => Sys2Proof.Machine.execRdsec fld gate s
  | .srchid fld id => Sys2Proof.Machine.execSrchid fld id s
  | .wridB fld id => Sys2Proof.Machine.execWridB fld id s
  | .wridC fld id => Sys2Proof.Machine.execWridC fld id s
  | .wrsecW fld data => Sys2Proof.Machine.execWrsecW fld data s
  | .wrsecX fld data => Sys2Proof.Machine.execWrsecX fld data s
  | .unsupM => Sys2Proof.Machine.execUnsupM s
  | .unsupD => Sys2Proof.Machine.execUnsupD s
  | .ign b => Sys2Proof.Machine.execIgn b s
  | .bfm r => Sys2Proof.Machine.execBfm r s
  | .npr st => Sys2Proof.Machine.execNpr st s
  | .bpp st r => Sys2Proof.Machine.execBpp st r s
  | .tdec => Sys2Proof.Machine.execTdec s
  | .lookup n => Sys2Proof.Machine.execLookup n s
  | .bdec slot => Sys2Proof.Machine.execBdec slot s
  | .mdec slot => Sys2Proof.Machine.execMdec slot s
  | .benc grid => Sys2Proof.Machine.execBenc grid s
  | .repl n grid => Sys2Proof.Machine.execRepl n grid s
  | .codecReserved op => Sys2Proof.Machine.execCodecReserved op s

end Sys2Proof.Machine
end

