-- ==== Sys2Proof/Machine/Agents.lean ====
section
/-!
DEFINITION. The steps of the two agents: the framer's step of one RX byte, the rule for (phase, byte) (10_state.md R43;
40_opmode.md, 41_fdc_commands.md), the framer's step of one whole frame (log 1), and the codec's step (R44).
-/

namespace Sys2Proof.Machine

/-- Phase `CMD`, command byte b (41_fdc_commands.md R160). -/
def cmdByte (b : Byte) (f : Framer) : Framer :=
  if b = chCR then heartbeat f
  else if b = chZ then { f with phase := .fz2 }
  else if [chF, chG, chA, chR, chS, chB, chC, chW, chX].contains b then f.startCommand b
  else if b = chM then unsupportedM f
  else if b = chD then unsupportedD f
  else ignoreCommand b f

/-- The CR of a field (41_fdc_commands.md R164): the handler of `FR.cmd`. -/
def closeField (c : Config) (f : Framer) : Except Fault Framer :=
  if f.cmd = chF then .ok (fmtFDone c f)
  else if f.cmd = chG then .ok (fmtGDone c f)
  else if f.cmd = chA then .ok (f.closePsn rdidOpen)
  else if f.cmd = chR then .ok (f.closePsn rdsecOpen)
  else if f.cmd = chS then .ok (f.closePsn srchidOpen)
  else if f.cmd = chB then .ok (f.closePsn wridBOpen)
  else if f.cmd = chC then .ok (f.closePsn wridCOpen)
  else if f.cmd = chW then .ok (f.closePsn wrsecWOpen)
  else if f.cmd = chX then .ok (f.closePsn wrsecXOpen)
  else .error .noHandler

/-- Phase `PARM`, field byte b (41_fdc_commands.md R163). -/
def parmByte (c : Config) (b : Byte) (f : Framer) : Except Fault Framer :=
  if b = chCR then closeField c f
  else
    match itemOfByte b with
    | some it => .ok (f.takeItem it)
    | none => .ok (f.halt .paramSyntax)

/-- Phase `GATE`, gate byte b (41_fdc_commands.md R181). -/
def gateByte (b : Byte) (f : Framer) : Framer := if f.cmd = chA then rdidGate b f else rdsecGate b f

/-- Phase `IDIN`, ID byte b (41_fdc_commands.md R190). -/
def idinByte (b : Byte) (f : Framer) : Except Fault Framer :=
  let g := f.receive [b]
  if g.bufCount = 12 then
    if h : g.buf.length = 12 then
      let v : Bytes 12 := ⟨g.buf, h⟩
      .ok (if g.cmd = chS then srchidDone v g else if g.cmd = chB then wridBDone v g else wridCDone v g)
    else .error .lengthMismatch
  else .ok g

/-- Phase `DATIN`, data byte b (41_fdc_commands.md R197). -/
def datinByte (b : Byte) (f : Framer) : Except Fault Framer :=
  let g := f.receive [b]
  if g.bufCount = 1024 then
    if h : g.buf.length = 1024 then
      let d : Bytes 1024 := ⟨g.buf, h⟩
      .ok (if g.cmd = chW then wrsecWDone d g else wrsecXDone d g)
    else .error .lengthMismatch
  else .ok g

/-- The rule for (phase, byte) (10_state.md R21, R43). `HALT` consumes nothing and its step is never enabled. -/
def rxByte (c : Config) (b : Byte) (f : Framer) : Except Fault Framer :=
  match f.phase with
  | .hunt => .ok (huntByte b f)
  | .sync2 => .ok (sync2Byte b f)
  | .req => .ok (reqByte b f)
  | .len => .ok (lenByte b f)
  | .pay => .ok (payByte b f)
  | .cks => .ok (cksByte b f)
  | .cmd => .ok (cmdByte b f)
  | .fz2 => .ok (fz2Byte b f)
  | .parm => parmByte c b f
  | .gate => .ok (gateByte b f)
  | .idin => idinByte b f
  | .datin => datinByte b f
  | .halt => .ok f

/-- Whether the framer's step is enabled (10_state.md R43): a byte is there and the phase is not `HALT`. -/
def Framer.enabled (f : Framer) : Bool := decide (f.phase ≠ .halt) && !f.rx.isEmpty

/-- The framer's step of one RX byte (10_state.md R43); an idle step when none is enabled (log 3). -/
def framerByteStep (s : State) : Host.Outcome State Fault Refusal :=
  if s.fr.phase = .halt then .next s
  else
    match s.fr.rx with
    | [] => .next s
    | b :: rest =>
      match rxByte s.cfg b (s.fr.withRx rest) with
      | .ok f => .next { s with fr := f }
      | .error e => .fault e

/-- The frame language of the next byte (30_encoding.md R100); none inside a frame and in `HALT`. -/
def frameLang : Phase → Option Lang
  | .hunt => some .opmode
  | .cmd => some .fdc
  | .sync2 | .req | .len | .pay | .cks | .fz2 | .parm | .gate | .idin | .datin | .halt => none

/-- The framer's step of one whole frame (log 1): at a frame boundary with a whole frame at `RX` the instruction it
decodes to is executed with its bytes consumed; otherwise the step is that of one byte. -/
def framerFrameStep (s : State) : Host.Outcome State Fault Refusal :=
  match frameLang s.fr.phase with
  | none => framerByteStep s
  | some lang =>
    match decodeFrame lang s.fr.rx with
    | .error _ => framerByteStep s
    | .ok (i, rest) => exec i { s with fr := s.fr.withRx rest }

/-- The codec's step of one request (10_state.md R44); an idle step when there is none (log 3). -/
def codecStep (s : State) : Host.Outcome State Fault Refusal :=
  match s.co.req with
  | [] => .next s
  | q :: rest => exec (decodeRequest q) { s with co := s.co.withReq rest }

/-- One scheduled turn (log 2). -/
def takeTurn (t : Turn) (s : State) : Host.Outcome State Fault Refusal :=
  match t with
  | .framerByte => framerByteStep s
  | .framerFrame => framerFrameStep s
  | .codec => codecStep s
  | .reset => .next s.applyReset
  | .loadBlob bytes => .next (s.onCodec (Codec.load s.cfg.blobLen bytes))

/-- The turn when none is scheduled (log 2): the framer's next byte if its step is enabled, else a codec request. -/
def defaultTurn (s : State) : Turn := if s.fr.enabled then .framerByte else .codec

end Sys2Proof.Machine
end

