-- ==== Sys2Proof/Machine/Step.lean ====
section
/-!
DEFINITION. The step of the block: the next scheduled turn, or the default one. And `withFetchWord`, which places one
word of spec/opcode_table.json where the next step takes its instruction from (log 4, log 5).
-/

namespace Sys2Proof.Machine

/-- One step of the block. -/
def step (s : State) : Host.Outcome State Fault Refusal :=
  match s.sched with
  | [] => takeTurn (defaultTurn s) s
  | t :: rest => takeTurn t { s with sched := rest }

/-- The state with one code placed as the next instruction: a frame alone at `RX`, the framer at the boundary of its
language, and the frame's turn next; a request alone at the command port and the codec's turn next. -/
def State.withCode (s : State) (c : Code) : State :=
  match c with
  | .frame .opmode bytes =>
    { s with sched := [.framerFrame], fr := { s.fr with rx := bytes, mode := .op, phase := .hunt } }
  | .frame .fdc bytes =>
    { s with sched := [.framerFrame], fr := { s.fr with rx := bytes, mode := .fdc, phase := .cmd } }
  | .request q => { s with sched := [.codec], co := { s.co with req := [q] } }

/-- The state whose next step runs the instruction of a table word (log 4): its frame's own bytes, no byte after. -/
def State.withFetchWord (s : State) (nbits w : Nat) : State :=
  match decodeTableWord nbits w with
  | some i => s.withCode (encode i)
  | none => s.withCode (codeOfWord nbits w)

end Sys2Proof.Machine
end

