-- ==== Sys2Proof/Safety.lean ====
section
/-!
DEFINITION. What counts as a safe run: the end of a run (70_reset_and_hazards.md R331) and the invariant that every
step keeps (the legal values of 10_state.md R20 to R40 and the canonical form of the memories).
-/

namespace Sys2Proof.Machine

/-- How a run that has consumed its stream ends (70_reset_and_hazards.md R331). -/
inductive RunEnd where
  /-- Every command sent has finished. -/
  | completed
  /-- The framer has halted; `FR.fault` names the cause. -/
  | faulted
  /-- A frame, field, gate, payload or chain is incomplete, and the framer waits for a byte (R320). -/
  | stuck
deriving DecidableEq, Repr

/-- The end a framer has reached (70_reset_and_hazards.md R331). -/
def runEnd (f : Framer) : RunEnd :=
  match f.phase with
  | .halt => .faulted
  | .hunt => if f.chain then .stuck else .completed
  | .cmd => if f.chain then .stuck else .completed
  | .sync2 | .req | .len | .pay | .cks | .fz2 | .parm | .gate | .idin | .datin => .stuck

/-- `k` steps, stopping at the first fault or refusal. -/
def runSteps : Nat → State → Host.Outcome State Fault Refusal
  | 0, s => .next s
  | k + 1, s =>
    match step s with
    | .next t => runSteps k t
    | .fault e => .fault e
    | .refused r => .refused r

/-- The phases that occur in mode `OP` (10_state.md R21). -/
def Phase.inOp : Phase → Bool
  | .hunt | .sync2 | .req | .len | .pay | .cks => true
  | .cmd | .fz2 | .parm | .gate | .idin | .datin | .halt => false

/-- The phases that occur in mode `FDC` (10_state.md R21). -/
def Phase.inFdc : Phase → Bool
  | .cmd | .fz2 | .parm | .gate | .idin | .datin => true
  | .hunt | .sync2 | .req | .len | .pay | .cks | .halt => false

/-- The command bytes that `FR.cmd` may hold once written (10_state.md R24). -/
def fdcpCommands : List Byte := [chF, chG, chA, chR, chS, chB, chC, chW, chX]

/-- The framer's legal states. -/
structure Framer.Inv (c : Config) (f : Framer) : Prop where
  /-- The sector data are a memory in canonical form within 80 x 1024 bytes (R34). -/
  data_wf : Memory.wf f.data = true
  data_within : Memory.within (nSect * sectBytes) f.data = true
  /-- The sector IDs are a memory in canonical form within 80 x 12 bytes (R34). -/
  ids_wf : Memory.wf f.ids = true
  ids_within : Memory.within (nSect * idBytes) f.ids = true
  /-- R21: which mode a phase occurs in. -/
  op_phase : f.phase.inOp = true → f.mode = .op
  fdc_phase : f.phase.inFdc = true → f.mode = .fdc
  /-- R21: `HUNT` and `SYNC2` never run inside a chain. -/
  hunt_unchained : f.phase = .hunt ∨ f.phase = .sync2 → f.chain = false
  /-- R23: only a chain can hold the forced return. -/
  force_chained : f.forceOp = true → f.chain = true
  /-- R24 -/
  cmd_legal : f.cmd = 0#8 ∨ f.cmd ∈ fdcpCommands
  parm_cmd : f.phase = .parm → f.cmd ∈ fdcpCommands
  gate_cmd : f.phase = .gate → f.cmd = chA ∨ f.cmd = chR
  idin_cmd : f.phase = .idin → f.cmd = chS ∨ f.cmd = chB ∨ f.cmd = chC
  datin_cmd : f.phase = .datin → f.cmd = chW ∨ f.cmd = chX
  /-- R25 -/
  bps_legal : f.bps = bpsDefault ∨ f.bps ∈ c.bpsTable
  /-- R26, R168: a data phase runs only with a PSN the status word renders. -/
  psn_rendered : f.phase = .gate ∨ f.phase = .idin ∨ f.phase = .datin → f.psn ≤ psnMaxRender
  /-- R28 -/
  remain_max : f.reqRemain ≤ 255
  pay_remain : f.phase = .pay → 1 ≤ f.reqRemain
  /-- R31 -/
  buf_count : f.bufCount = f.buf.length
  buf_max : f.bufCount ≤ 1024
  idin_room : f.phase = .idin → f.bufCount < 12
  datin_room : f.phase = .datin → f.bufCount < 1024
  /-- R32 -/
  track_max : f.lastTrack ≤ 40
  /-- R33, R281: a fault is recorded exactly in `HALT`. -/
  fault_halt : f.fault ≠ .none ↔ f.phase = .halt

/-- The codec's legal states. -/
structure Codec.Inv (c : Config) (k : Codec) : Prop where
  /-- The blob is a memory in canonical form within N bytes (R39). -/
  blob_wf : Memory.wf k.blob = true
  blob_within : Memory.within c.blobLen k.blob = true
  /-- 60_exceptions.md R285: no failed operation leaves a result. -/
  failed_result : k.status ≠ .ok → k.result = .none
  /-- R40: the warning stands only after a `REPL` that wrote. -/
  warn_only_repl : k.warn = true → k.status = .ok ∧ k.result = .none

/-- The legal states of the block. -/
structure State.Inv (s : State) : Prop where
  framer : s.fr.Inv s.cfg
  codec : s.co.Inv s.cfg

end Sys2Proof.Machine
end

