-- ==== Sys2Proof/Certificates/Slice0/Obligations.lean ====
section
/-!
DEFINITION. The statements for the provers. Log records are not normative (60_exceptions.md R299): where a rule logs, the
log of the next state is left open (`log := l` for some l).
-/

open Sys2Proof Sys2Proof.Machine

namespace Sys2Proof.Claims

/-- A framer whose command has ended with mode `m` before the forced return of a format chain is applied
(41_fdc_commands.md R211): the mode is OP when a chain held a format, the chain is over, the phase follows the mode. -/
def ended (m : Mode) (f : Framer) : Framer :=
  let m' := if f.chain = true ∧ f.forceOp = true then Mode.op else m
  { f with
    mode := m'
    phase := if m' = .op then .hunt else .cmd
    chain := false
    forceOp := if f.chain = true then false else f.forceOp }

/-- A framer that has taken command byte `c` and the items of its field (41_fdc_commands.md R160, R163). -/
def fieldTaken (c : Byte) (items : List ParmItem) (f : Framer) : Framer :=
  { f with cmd := c, toks := (scanItems items ([], none)).1, cur := (scanItems items ([], none)).2 }

/-- The same after its CR, with psn and lsn written (41_fdc_commands.md R164). -/
def psnTaken (c : Byte) (items : List ParmItem) (f : Framer) : Framer :=
  { fieldTaken c items f with psn := psnOf (fieldOfItems items), lsn := lsnOf (fieldOfItems items) }

/-- A halted framer (60_exceptions.md R281): the cause and the phase are written, all else is kept. -/
def halted (cause : Cause) (f : Framer) : Framer := { f with fault := cause, phase := .halt }

/-- A framer that has sent bytes on TX. -/
def sent (bs : List Byte) (f : Framer) : Framer := { f with out := f.out ++ bs.map Output.tx }

/-- A codec whose operation succeeded with a result (44_pattern_codec.md R263). -/
def succeeded (r : Result) (k : Codec) : Codec := { k with status := .ok, result := r, warn := false }

/-- A codec whose operation failed (44_pattern_codec.md R263). -/
def failed (st : Status) (k : Codec) : Codec := { k with status := st, result := .none, warn := false }

/-- ASCII codes of a text. -/
def ascii (cs : List Char) : List Byte := cs.map fun c => BitVec.ofNat 8 c.toNat

/-- Nibbles per row and the number of nibbles of a pattern (30_encoding.md R112). -/
def nprOf (stitches : Nat) : Nat := (stitches + 3) / 4

/-- The value of bit i of nibble k of a region that grows down from `base` (20_memory.md R76). -/
def nibbleBit (blob : Memory) (base : Int) (k i : Nat) : Bool :=
  (memRead blob (base - (k / 2 : Nat)).toNat).getLsbD (4 * (k % 2) + i)

/-- The next step of `s` is a framer byte's, by default or by a scheduled turn, and leaves `turns` scheduled. The default
turn is the framer's only when its step is enabled (log 2), which the statements say beside this. -/
def framerByteNext (s : State) (turns : List Turn) : Prop :=
  (s.sched = [] ∧ turns = []) ∨ s.sched = .framerByte :: turns

end Sys2Proof.Claims

open Sys2Proof.Claims

/-! ### Encoding -/

/-- Words written out from the spec's encodings decode to the instructions they stand for: `ENTER` (30_encoding.md
R126), a frame with the unimplemented code 0x07, and one FDCMode frame of each format of R103. -/
def Obligations.SampleWordsDecode : Prop :=
  decode (.frame .opmode [0x5A#8, 0x5A#8, 0x08#8, 0x00#8, 0xF7#8]) = .ok (.enterFdc [] 0xF7#8, []) ∧
  decode (.frame .opmode [0x5A#8, 0x5A#8, 0x07#8]) = .ok (.reqIgn 0x07#8, []) ∧
  decode (.frame .fdc [0x0D#8]) = .ok (.hb, []) ∧
  decode (.frame .fdc [0x5A#8, 0x51#8]) = .ok (.resync (.drop 0x51#8), []) ∧
  decode (.frame .fdc [0x52#8, 0x35#8, 0x0D#8, 0x0D#8]) = .ok (.rdsec (.closed [.digit 5]) (some 0x0D#8), []) ∧
  decode (.frame .fdc [0x46#8, 0x33#8, 0x0D#8]) = .ok (.fmtF (.closed [.digit 3]), []) ∧
  decode (.frame .fdc [0x4D#8]) = .ok (.unsupM, []) ∧
  decode (.frame .fdc [0x72#8]) = .ok (.ign 0x72#8, [])

/-- Decoding an encoded well-formed instruction gives it back, whatever bytes follow its frame on the stream. -/
def Obligations.DecodeOfEncodeIsTheInstruction : Prop :=
  ∀ i : Instr, i.wellFormed = true → ∀ rest : List Byte,
    match encode i with
    | .frame lang bytes => decode (.frame lang (bytes ++ rest)) = .ok (i, rest)
    | .request q => decode (.request q) = .ok (i, [])

/-- Whatever the decoder reads from a stream is a well-formed instruction, and its encoding is exactly the bytes read. -/
def Obligations.DecodedFrameReencodesToItsBytes : Prop :=
  ∀ (lang : Lang) (bs : List Byte) (i : Instr) (rest : List Byte), decodeFrame lang bs = .ok (i, rest) →
    i.wellFormed = true ∧ ∃ frame, encode i = .frame lang frame ∧ bs = frame ++ rest

/-- Every request decodes to a well-formed instruction whose encoding has the same operation code and decodes alike:
all sixteen codes have a meaning, 0x9..0xF as reserved (30_encoding.md R121). -/
def Obligations.EveryCodecRequestDecodes : Prop :=
  ∀ q : CodecReq, (decodeRequest q).wellFormed = true ∧
    ∃ q', encode (decodeRequest q) = .request q' ∧ q'.op = q.op ∧ decodeRequest q' = decodeRequest q

/-- A frame is recognised from its own bytes: bytes that follow it change nothing (30_encoding.md R125). -/
def Obligations.FrameNeedsNoLookahead : Prop :=
  ∀ (lang : Lang) (bs : List Byte) (i : Instr) (rest more : List Byte),
    decodeFrame lang bs = .ok (i, rest) → decodeFrame lang (bs ++ more) = .ok (i, rest ++ more)

/-! ### The step -/

/-- At a frame boundary with a frame's turn scheduled, the step is exec of the instruction the bytes at RX decode to, at
the state with those bytes consumed and the turn taken. -/
def Obligations.StepRunsTheDecodedFrame : Prop :=
  ∀ (s : State) (turns : List Turn) (lang : Lang) (i : Instr) (rest : List Byte),
    s.sched = .framerFrame :: turns → frameLang s.fr.phase = some lang →
    decode (.frame lang s.fr.rx) = .ok (i, rest) →
    step s = exec i { s with sched := turns, fr := s.fr.withRx rest }

/-- With no turn scheduled and no framer step enabled, the step is exec of the next request's instruction at the state
with that request taken; and so it is when a codec turn is scheduled. -/
def Obligations.StepServesTheNextRequest : Prop :=
  ∀ (s : State) (q : CodecReq) (rest : List CodecReq) (turns : List Turn), s.co.req = q :: rest →
    (s.sched = [] → s.fr.phase = .halt ∨ s.fr.rx = [] →
      step s = exec (decodeRequest q) { s with co := s.co.withReq rest }) ∧
    (s.sched = .codec :: turns →
      step s = exec (decodeRequest q) { s with sched := turns, co := s.co.withReq rest })

/-- With no turn scheduled, and with a framer byte's turn scheduled, a framer that is not halted and has a byte at RX
consumes exactly that byte and applies the rule for (phase, byte) (10_state.md R43). -/
def Obligations.StepConsumesOneByte : Prop :=
  ∀ (s : State) (turns : List Turn) (b : Byte) (rest : List Byte), framerByteNext s turns →
    s.fr.phase ≠ .halt → s.fr.rx = b :: rest →
    ∀ f, rxByte s.cfg b (s.fr.withRx rest) = .ok f → step s = .next { s with sched := turns, fr := f }

/-- A block with nothing scheduled, no enabled framer step and no request takes an idle step (the model's choice,
log 3: 10_state.md R43 says that no step is enabled). -/
def Obligations.WaitingBlockIdles : Prop :=
  ∀ s : State, s.sched = [] → s.fr.phase = .halt ∨ s.fr.rx = [] → s.co.req = [] → step s = .next s

/-- A whole frame taken as one instruction equals its bytes taken one by one: from a frame boundary with the frame at
the head of RX, as many byte steps as the frame has bytes reach exactly what exec reaches. -/
def Obligations.FrameEqualsItsBytes : Prop :=
  ∀ (s : State) (i : Instr) (lang : Lang) (frame rest : List Byte), i.wellFormed = true →
    s.sched = [] → frameLang s.fr.phase = some lang → encode i = .frame lang frame → s.fr.rx = frame ++ rest →
    runSteps frame.length s = exec i { s with fr := s.fr.withRx rest }

/-! ### Whole-machine rules -/

/-- The state after reset is legal. -/
def Obligations.ResetStateIsLegal : Prop := State.reset.Inv

/-- From every legal state the step answers a next state, and that state is legal: no fault, no refusal, every register
in its range, the mode of each phase, memories in canonical form. -/
def Obligations.StepKeepsLegalStates : Prop :=
  ∀ s : State, s.Inv → ∃ t, step s = .next t ∧ t.Inv

/-- No step changes the instance's parameters (10_state.md R46). -/
def Obligations.ParametersNeverChange : Prop :=
  ∀ s t : State, step s = .next t → t.cfg = s.cfg

/-- What has been sent or emitted stays: every step, a reset included, only appends to the output (70_reset_and_hazards.md
R312). -/
def Obligations.OutputIsOnlyAppended : Prop :=
  ∀ s t : State, step s = .next t → ∃ more, t.fr.out = s.fr.out ++ more

/-- The agents share no state: a framer turn leaves the codec as it is, a codec turn and a blob load leave the framer
(20_memory.md R80, 44_pattern_codec.md R266). -/
def Obligations.AgentsShareNoState : Prop :=
  ∀ s t : State,
    (framerByteStep s = .next t → t.co = s.co) ∧ (framerFrameStep s = .next t → t.co = s.co) ∧
    (codecStep s = .next t → t.fr = s.fr) ∧ (∀ bytes, takeTurn (.loadBlob bytes) s = .next t → t.fr = s.fr)

/-- A framer step and a codec step commute: in either order they reach the same state. -/
def Obligations.AgentStepsCommute : Prop :=
  ∀ s t u : State, framerByteStep s = .next t → codecStep s = .next u →
    ∃ v, codecStep t = .next v ∧ framerByteStep u = .next v

/-- A halted framer stays exactly as it is, its unconsumed bytes included, at every step that is not the reset input
(60_exceptions.md R281, 70_reset_and_hazards.md R327). -/
def Obligations.OnlyResetLeavesHalt : Prop :=
  ∀ s t : State, s.fr.phase = .halt → s.sched.head? ≠ some .reset → step s = .next t → t.fr = s.fr

/-- The mode changes only at an accepted request, at an FDCMode resync, or when a chain that holds a format ends
(10_state.md R21). -/
def Obligations.ModeChangesInThreePlaces : Prop :=
  ∀ (s t : State) (b : Byte) (rest : List Byte), framerByteStep s = .next t → s.fr.rx = b :: rest →
    t.fr.mode ≠ s.fr.mode →
      (s.fr.phase = .cks ∧ b = s.fr.ckAcc ^^^ 0xFF#8) ∨ (s.fr.phase = .fz2 ∧ b = 0x5A#8) ∨
        (s.fr.chain = true ∧ s.fr.forceOp = true ∧ t.fr.chain = false ∧ t.fr.mode = .op)

/-- A byte changes the sector data only as the CR of a format's field or as the 1024th data byte of a write to a sector
of the store, and the IDs only as that CR or as the 12th ID byte of a B or C command (20_memory.md R72). -/
def Obligations.StoreChangesOnlyAtCommit : Prop :=
  ∀ (s t : State) (b : Byte) (rest : List Byte), s.Inv → framerByteStep s = .next t → s.fr.rx = b :: rest →
    (t.fr.data ≠ s.fr.data →
      (s.fr.phase = .parm ∧ b = 0x0D#8 ∧ (s.fr.cmd = chF ∨ s.fr.cmd = chG)) ∨
        (s.fr.phase = .datin ∧ s.fr.bufCount = 1023 ∧ s.fr.psn ≤ 79)) ∧
    (t.fr.ids ≠ s.fr.ids →
      (s.fr.phase = .parm ∧ b = 0x0D#8 ∧ (s.fr.cmd = chF ∨ s.fr.cmd = chG)) ∨
        (s.fr.phase = .idin ∧ s.fr.bufCount = 11 ∧ (s.fr.cmd = chB ∨ s.fr.cmd = chC) ∧ s.fr.psn ≤ 79))

/-- No byte of an OpMode frame and no OpMode frame makes the framer send or emit anything (40_opmode.md R149). -/
def Obligations.OpModeSendsNothing : Prop :=
  (∀ s t : State, s.fr.phase.inOp = true → framerByteStep s = .next t → t.fr.out = s.fr.out) ∧
  (∀ (s : State) (payload : List Byte) (ck code : Byte),
    (∃ t, exec (.enterFdc payload ck) s = .next t ∧ t.fr.out = s.fr.out) ∧
    (∃ t, exec (.reqIgn code) s = .next t ∧ t.fr.out = s.fr.out))

/-- What one byte makes the framer send is nothing, one of the status words of 30_encoding.md R108, or, at a gate, the
12 ID bytes or the 1024 data bytes of the sector FR.psn. -/
def Obligations.EveryResponseIsAStatusWordOrPayload : Prop :=
  ∀ s t : State, s.Inv → framerByteStep s = .next t →
    ∃ more, t.fr.out = s.fr.out ++ more ∧
      (txStream more = [] ∨
        txStream more ∈ [ascii ['0','0','0','0','0','0','0','0'], ascii ['0','0','0','0','0','0','F','F'],
          ascii ['4','0','0','0','0','0','0','0'], ascii ['8','0','0','0','0','0','0','0']] ∨
        (∃ v, v ≤ 255 ∧ txStream more = statusPsn v) ∨
        (s.fr.phase = .gate ∧ s.fr.psn ≤ 79 ∧
          (txStream more = (List.range 12).map (fun j => memRead s.fr.ids (12 * s.fr.psn + j)) ∨
            txStream more = (List.range 1024).map (fun j => memRead s.fr.data (1024 * s.fr.psn + j)))))

/-- An event leaves only at the 1024th byte of a write to an odd sector p of the store; it names track p/2 + 1 and
carries the track image after the write: the even sector's bytes, then the odd sector's, which are the payload
(20_memory.md R63, 60_exceptions.md R290). -/
def Obligations.EventsComeFromOddSectorWrites : Prop :=
  ∀ (s t : State) (b : Byte) (rest : List Byte) (more : List Output), s.Inv → framerByteStep s = .next t →
    s.fr.rx = b :: rest → t.fr.out = s.fr.out ++ more → eventStream more ≠ [] →
      s.fr.phase = .datin ∧ s.fr.bufCount = 1023 ∧ s.fr.psn ≤ 79 ∧ s.fr.psn % 2 = 1 ∧
        t.fr.lastTrack = s.fr.psn / 2 + 1 ∧
        eventStream more = [.trackWritten (s.fr.psn / 2 + 1)
          ((List.range 1024).map (fun j => memRead s.fr.data (1024 * (s.fr.psn - 1) + j)) ++ (s.fr.buf ++ [b]))]

/-- A format's forced return to OpMode is kept through its chain: a byte step either keeps chain and forceOp, or ends the
chain in mode OP, phase HUNT (41_fdc_commands.md R176, R211, R213). -/
def Obligations.ForcedReturnEndsTheChainInOpMode : Prop :=
  ∀ s t : State, s.fr.chain = true → s.fr.forceOp = true → framerByteStep s = .next t →
    (t.fr.chain = true ∧ t.fr.forceOp = true) ∨
      (t.fr.chain = false ∧ t.fr.forceOp = false ∧ t.fr.mode = .op ∧ t.fr.phase = .hunt)

/-- The reset input sets every register of the block to the value of 70_reset_and_hazards.md R310 and keeps the store,
the blob, the unconsumed RX bytes and what was sent (R311, R312); pending codec requests are kept (the model's choice,
log 14). -/
def Obligations.ResetInputSetsRegistersAndKeepsStorage : Prop :=
  ∀ (s : State) (turns : List Turn), s.sched = .reset :: turns →
    step s = .next
      { s with
        sched := turns
        fr := { s.fr with
          mode := .op, phase := .hunt, chain := false, forceOp := false, cmd := 0x00#8, bps := 1024, psn := 0, lsn := 1,
          reqLen := 0#8, reqRemain := 0, ckAcc := 0x00#8, toks := [], cur := none, buf := [], bufCount := 0,
          lastTrack := 0, fault := .none }
        co := { s.co with status := .ok, result := .none, warn := false } }

/-! ### The OpMode request framer -/

/-- The hunt for the sync pair: in HUNT a 'Z' leads to SYNC2 and any other byte is discarded, in SYNC2 a 'Z' leads to REQ
and any other byte is discarded and leads back to HUNT; each is a step of its own, and nothing but RX, the phase and, for
a discarded byte, the log changes (40_opmode.md R140, R141). -/
def Obligations.HuntTakesOnlyTheSyncPair : Prop :=
  ∀ (s : State) (turns : List Turn) (b : Byte) (rest : List Byte), framerByteNext s turns → s.fr.rx = b :: rest →
    (s.fr.phase = .hunt →
      (b = 0x5A#8 → step s = .next { s with sched := turns, fr := { s.fr with rx := rest, phase := .sync2 } }) ∧
      (b ≠ 0x5A#8 → ∃ l,
        step s = .next { s with sched := turns, fr := { s.fr with rx := rest, phase := .hunt, log := l } })) ∧
    (s.fr.phase = .sync2 →
      (b = 0x5A#8 → step s = .next { s with sched := turns, fr := { s.fr with rx := rest, phase := .req } }) ∧
      (b ≠ 0x5A#8 → ∃ l,
        step s = .next { s with sched := turns, fr := { s.fr with rx := rest, phase := .hunt, log := l } }))

/-- An enter-FDC frame is accepted exactly when its checksum byte is
`((0x08 + L + sum(payload)) mod 256) xor 0xFF`: then mode FDC is entered, otherwise the mode stays; either way the
command ends and nothing else but the request registers changes. -/
def Obligations.RequestAcceptedExactlyOnItsChecksum : Prop :=
  ∀ (s : State) (payload : List Byte) (ck : Byte), payload.length ≤ 255 →
    let sum : Byte := BitVec.ofNat 8 ((8 + payload.length + (payload.map BitVec.toNat).sum) % 256)
    let f : Framer := { s.fr with reqLen := BitVec.ofNat 8 payload.length, reqRemain := 0, ckAcc := sum }
    (ck = sum ^^^ 0xFF#8 → exec (.enterFdc payload ck) s = .next { s with fr := ended .fdc f }) ∧
    (ck ≠ sum ^^^ 0xFF#8 →
      ∃ l, exec (.enterFdc payload ck) s = .next { s with fr := { ended s.fr.mode f with log := l } })

/-- An unimplemented request code ends the command and changes nothing else (40_opmode.md R147). -/
def Obligations.UnimplementedRequestIsIgnored : Prop :=
  ∀ (s : State) (code : Byte),
    ∃ l, exec (.reqIgn code) s = .next { s with fr := { ended s.fr.mode s.fr with log := l } }

/-! ### FDCMode commands without parameters -/

/-- The heartbeat sends "00000000" and ends the command (41_fdc_commands.md R170). -/
def Obligations.HeartbeatAnswersZeros : Prop :=
  ∀ s : State, exec .hb s =
    .next { s with fr := ended s.fr.mode (sent (ascii ['0','0','0','0','0','0','0','0']) s.fr) }

/-- `Z` and another byte are dropped; `ZZ` sets OpMode and takes the request that follows: accepted it ends in FDC (or in
OP when a format chain forces it), ignored or rejected it ends in OP (41_fdc_commands.md R171, R212). -/
def Obligations.ResyncTakesTheFollowingRequest : Prop :=
  ∀ s : State,
    (∀ b, b ≠ 0x5A#8 →
      ∃ l, exec (.resync (.drop b)) s = .next { s with fr := { ended s.fr.mode s.fr with log := l } }) ∧
    (∀ code, ∃ l, exec (.resync (.ignore code)) s = .next { s with fr := { ended .op s.fr with log := l } }) ∧
    (∀ (payload : List Byte) (ck : Byte), payload.length ≤ 255 →
      let sum : Byte := BitVec.ofNat 8 ((8 + payload.length + (payload.map BitVec.toNat).sum) % 256)
      let f : Framer := { s.fr with reqLen := BitVec.ofNat 8 payload.length, reqRemain := 0, ckAcc := sum }
      (ck = sum ^^^ 0xFF#8 → exec (.resync (.enter payload ck)) s = .next { s with fr := ended .fdc f }) ∧
      (ck ≠ sum ^^^ 0xFF#8 →
        ∃ l, exec (.resync (.enter payload ck)) s = .next { s with fr := { ended .op f with log := l } }))

/-- `M` and `D` halt with UNSUPPORTED_CMD, send nothing and keep every other register (41_fdc_commands.md R200). -/
def Obligations.UnsupportedCommandsHalt : Prop :=
  ∀ s : State,
    exec .unsupM s = .next { s with fr := halted .unsupportedCmd s.fr } ∧
    exec .unsupD s = .next { s with fr := halted .unsupportedCmd s.fr }

/-- Any other command byte ends its command and changes nothing else (41_fdc_commands.md R201). -/
def Obligations.UnlistedCommandByteIsIgnored : Prop :=
  ∀ (s : State) (b : Byte), ∃ l, exec (.ign b) s = .next { s with fr := { ended s.fr.mode s.fr with log := l } }

/-! ### Parameter fields -/

/-- A run of digits is their decimal number; spaces anywhere are ignored; the tokens of a field are the runs between its
commas; the PSN is the first token, 0 when absent or empty; the LSN is 1 for fewer than two tokens and otherwise the
first token again (41_fdc_commands.md R163 to R167). -/
def Obligations.FieldTokensGivePsnAndLsn : Prop :=
  (∀ ds : List (Fin 10), ds ≠ [] →
    fieldOfItems (ds.map .digit) = [some (ds.foldl (fun n d => 10 * n + d.val) 0)]) ∧
  (∀ items : List ParmItem, fieldOfItems (items.filter (· ≠ .space)) = fieldOfItems items) ∧
  (∀ (a b : List ParmItem), a.all (· ≠ .comma) = true →
    fieldOfItems (a ++ .comma :: b) =
      (scanItems a ([], none)).2 :: (if fieldOfItems b = [] then [none] else fieldOfItems b)) ∧
  (psnOf [] = 0 ∧ lsnOf [] = 1) ∧
  (∀ v : Option Nat, psnOf [v] = v.getD 0 ∧ lsnOf [v] = 1) ∧
  (∀ (v w : Option Nat) (more : List (Option Nat)),
    psnOf (v :: w :: more) = v.getD 0 ∧ lsnOf (v :: w :: more) = v.getD 0)

/-- A field broken by a byte outside the grammar halts each of the nine commands with PARAM_SYNTAX; FR.cmd, toks and cur
hold the command and the field read so far, nothing is sent, all else is kept (41_fdc_commands.md R163). -/
def Obligations.BrokenFieldHalts : Prop :=
  ∀ (s : State) (items : List ParmItem) (bad : Byte), itemOfByte bad = none → bad ≠ 0x0D#8 →
    exec (.fmtF (.broken items bad)) s = .next { s with fr := halted .paramSyntax (fieldTaken chF items s.fr) } ∧
    exec (.fmtG (.broken items bad)) s = .next { s with fr := halted .paramSyntax (fieldTaken chG items s.fr) } ∧
    exec (.rdid (.broken items bad) none) s = .next { s with fr := halted .paramSyntax (fieldTaken chA items s.fr) } ∧
    exec (.rdsec (.broken items bad) none) s = .next { s with fr := halted .paramSyntax (fieldTaken chR items s.fr) } ∧
    exec (.srchid (.broken items bad) none) s = .next { s with fr := halted .paramSyntax (fieldTaken chS items s.fr) } ∧
    exec (.wridB (.broken items bad) none) s = .next { s with fr := halted .paramSyntax (fieldTaken chB items s.fr) } ∧
    exec (.wridC (.broken items bad) none) s = .next { s with fr := halted .paramSyntax (fieldTaken chC items s.fr) } ∧
    exec (.wrsecW (.broken items bad) none) s = .next { s with fr := halted .paramSyntax (fieldTaken chW items s.fr) } ∧
    exec (.wrsecX (.broken items bad) none) s = .next { s with fr := halted .paramSyntax (fieldTaken chX items s.fr) }

/-- A PSN above 255 halts each of the seven PSN commands with PSN_UNRENDERABLE before anything is sent; psn and lsn hold
the parsed values (41_fdc_commands.md R164, R168). -/
def Obligations.UnrenderablePsnHalts : Prop :=
  ∀ (s : State) (items : List ParmItem), 255 < psnOf (fieldOfItems items) →
    exec (.rdid (.closed items) none) s = .next { s with fr := halted .psnUnrenderable (psnTaken chA items s.fr) } ∧
    exec (.rdsec (.closed items) none) s = .next { s with fr := halted .psnUnrenderable (psnTaken chR items s.fr) } ∧
    exec (.srchid (.closed items) none) s = .next { s with fr := halted .psnUnrenderable (psnTaken chS items s.fr) } ∧
    exec (.wridB (.closed items) none) s = .next { s with fr := halted .psnUnrenderable (psnTaken chB items s.fr) } ∧
    exec (.wridC (.closed items) none) s = .next { s with fr := halted .psnUnrenderable (psnTaken chC items s.fr) } ∧
    exec (.wrsecW (.closed items) none) s = .next { s with fr := halted .psnUnrenderable (psnTaken chW items s.fr) } ∧
    exec (.wrsecX (.closed items) none) s = .next { s with fr := halted .psnUnrenderable (psnTaken chX items s.fr) }

/-- A status word is "00", the two uppercase hex digits of the sector number, "0000"; it differs for different numbers
and holds no byte but 0..9 and A..F (41_fdc_commands.md R165, 30_encoding.md R109). -/
def Obligations.StatusWordIsUppercaseHex : Prop :=
  statusPsn 5 = ascii ['0','0','0','5','0','0','0','0'] ∧ statusPsn 79 = ascii ['0','0','4','F','0','0','0','0'] ∧
  ∀ v, v ≤ 255 →
    (∀ b ∈ statusPsn v, b ∈ ascii ['0','1','2','3','4','5','6','7','8','9','A','B','C','D','E','F']) ∧
    statusPsn v = ascii ['0','0'] ++
      [(ascii ['0','1','2','3','4','5','6','7','8','9','A','B','C','D','E','F']).getD (v / 16) 0#8,
       (ascii ['0','1','2','3','4','5','6','7','8','9','A','B','C','D','E','F']).getD (v % 16) 0#8] ++
      ascii ['0','0','0','0']

/-! ### Format -/

/-- F and G write bps, zero all 80 sectors' data and IDs and nothing else of the store, send "000000FF" or "00000000",
and open a chain with the forced return; the mode and every other register stay (41_fdc_commands.md R174, R176, R177). -/
def Obligations.FormatZeroesTheStoreAndChains : Prop :=
  ∀ (s : State) (items : List ParmItem),
    ∃ data ids : Memory,
      (∀ a, memRead data a = if a < 81920 then 0#8 else memRead s.fr.data a) ∧
      (∀ a, memRead ids a = if a < 960 then 0#8 else memRead s.fr.ids a) ∧
      exec (.fmtF (.closed items)) s = .next { s with
        fr := { sent (ascii ['0','0','0','0','0','0','F','F']) (fieldTaken chF items s.fr) with
          bps := bpsOf s.cfg.bpsTable (fieldOfItems items), data := data, ids := ids, chain := true, forceOp := true,
          phase := .cmd } } ∧
      exec (.fmtG (.closed items)) s = .next { s with
        fr := { sent (ascii ['0','0','0','0','0','0','0','0']) (fieldTaken chG items s.fr) with
          bps := bpsOf s.cfg.bpsTable (fieldOfItems items), data := data, ids := ids, chain := true, forceOp := true,
          phase := .cmd } }

/-- The format code selects the bytes per sector: with exactly one non-empty token k of 0..6 the table's entry k, and
1024 for any other field (41_fdc_commands.md R175). -/
def Obligations.FormatCodeSelectsBytesPerSector : Prop :=
  (∀ (t0 t1 t2 t3 t4 t5 t6 : Nat),
    [0, 1, 2, 3, 4, 5, 6].map (fun k => bpsOf [t0, t1, t2, t3, t4, t5, t6] [some k]) = [t0, t1, t2, t3, t4, t5, t6]) ∧
  (∀ (table : List Nat) (k : Nat), 6 < k → bpsOf table [some k] = 1024) ∧
  (∀ (table : List Nat) (field : List (Option Nat)), (∀ k, field ≠ [some k]) → bpsOf table field = 1024) ∧
  Config.default.bpsTable = [64, 80, 128, 256, 512, 1024, 1280]

/-! ### Reads -/

/-- `A` with a sector of the store and gate CR sends the status word and the sector's 12 ID bytes, index 0 first, and
ends the command; nothing else but the parsed field changes (41_fdc_commands.md R180 to R182). -/
def Obligations.ReadIdSendsTheId : Prop :=
  ∀ (s : State) (items : List ParmItem), psnOf (fieldOfItems items) ≤ 79 →
    let p := psnOf (fieldOfItems items)
    exec (.rdid (.closed items) (some 0x0D#8)) s =
      .next { s with fr := ended s.fr.mode (sent (statusPsn p ++
        (List.range 12).map fun j => memRead s.fr.ids (12 * p + j)) (psnTaken chA items s.fr)) }

/-- `R` with a sector of the store and gate CR sends the status word and the sector's 1024 data bytes, index 0 first
(41_fdc_commands.md R185, R186). -/
def Obligations.ReadSectorSendsTheData : Prop :=
  ∀ (s : State) (items : List ParmItem), psnOf (fieldOfItems items) ≤ 79 →
    let p := psnOf (fieldOfItems items)
    exec (.rdsec (.closed items) (some 0x0D#8)) s =
      .next { s with fr := ended s.fr.mode (sent (statusPsn p ++
        (List.range 1024).map fun j => memRead s.fr.data (1024 * p + j)) (psnTaken chR items s.fr)) }

/-- A gate byte other than CR is dropped: only the status word is sent and the command ends, also for a PSN of 80..255
(41_fdc_commands.md R181). -/
def Obligations.OtherGateByteSendsNoPayload : Prop :=
  ∀ (s : State) (items : List ParmItem) (b : Byte), psnOf (fieldOfItems items) ≤ 255 → b ≠ 0x0D#8 →
    let p := psnOf (fieldOfItems items)
    (∃ l, exec (.rdid (.closed items) (some b)) s =
      .next { s with fr := { ended s.fr.mode (sent (statusPsn p) (psnTaken chA items s.fr)) with log := l } }) ∧
    (∃ l, exec (.rdsec (.closed items) (some b)) s =
      .next { s with fr := { ended s.fr.mode (sent (statusPsn p) (psnTaken chR items s.fr)) with log := l } })

/-- A read of a sector 80..255 sends its status word, then "80000000", and halts with STORAGE_RANGE; mode, chain and
forceOp stay, and so does the store (41_fdc_commands.md R182, R186, 60_exceptions.md R283). -/
def Obligations.ReadBeyondTheStoreHalts : Prop :=
  ∀ (s : State) (items : List ParmItem), 80 ≤ psnOf (fieldOfItems items) → psnOf (fieldOfItems items) ≤ 255 →
    let p := psnOf (fieldOfItems items)
    let bs := statusPsn p ++ ascii ['8','0','0','0','0','0','0','0']
    exec (.rdid (.closed items) (some 0x0D#8)) s =
      .next { s with fr := halted .storageRange (sent bs (psnTaken chA items s.fr)) } ∧
    exec (.rdsec (.closed items) (some 0x0D#8)) s =
      .next { s with fr := halted .storageRange (sent bs (psnTaken chR items s.fr)) }

/-! ### IDs -/

/-- `S` sends its status word, then that of the first sector from its PSN to 79 whose ID equals the 12 bytes, or
"40000000" when there is none (also for a PSN of 80..255), and ends the command; the store stays
(41_fdc_commands.md R189, R191, 20_memory.md R66). -/
def Obligations.SearchAnswersTheFirstMatch : Prop :=
  ∀ (s : State) (items : List ParmItem) (v : Bytes 12), psnOf (fieldOfItems items) ≤ 255 →
    let p := psnOf (fieldOfItems items)
    let hit (k : Nat) : Prop :=
      p ≤ k ∧ k ≤ 79 ∧ v.val = (List.range 12).map fun j => memRead s.fr.ids (12 * k + j)
    let f : Framer := { psnTaken chS items s.fr with buf := v.val, bufCount := 12 }
    (∀ k, hit k → (∀ j, j < k → ¬hit j) →
      exec (.srchid (.closed items) (some v)) s =
        .next { s with fr := ended s.fr.mode (sent (statusPsn p ++ statusPsn k) f) }) ∧
    ((∀ k, ¬hit k) →
      exec (.srchid (.closed items) (some v)) s =
        .next { s with
          fr := ended s.fr.mode (sent (statusPsn p ++ ascii ['4','0','0','0','0','0','0','0']) f) })

/-- `B` and `C` replace the 12 ID bytes of a sector of the store and no other byte, send the status word twice, and open
a chain that sets no forced return; the mode and the sector data stay (41_fdc_commands.md R193, R194). -/
def Obligations.WriteIdStoresAndChains : Prop :=
  ∀ (s : State) (items : List ParmItem) (v : Bytes 12), psnOf (fieldOfItems items) ≤ 79 →
    let p := psnOf (fieldOfItems items)
    ∃ ids : Memory,
      (∀ a, (a < 12 * p ∨ 12 * p + 12 ≤ a) → memRead ids a = memRead s.fr.ids a) ∧
      ((List.range 12).map (fun j => memRead ids (12 * p + j)) = v.val) ∧
      exec (.wridB (.closed items) (some v)) s = .next { s with
        fr := { sent (statusPsn p ++ statusPsn p) (psnTaken chB items s.fr) with
          ids := ids, buf := v.val, bufCount := 12, chain := true, phase := .cmd } } ∧
      exec (.wridC (.closed items) (some v)) s = .next { s with
        fr := { sent (statusPsn p ++ statusPsn p) (psnTaken chC items s.fr) with
          ids := ids, buf := v.val, bufCount := 12, chain := true, phase := .cmd } }

/-! ### Sector writes -/

/-- `W` and `X` replace the 1024 data bytes of an even sector of the store and no other byte, send the status word twice
and end the command, with no event and lastTrack kept (41_fdc_commands.md R196, R198, 20_memory.md R63). -/
def Obligations.EvenSectorWriteStores : Prop :=
  ∀ (s : State) (items : List ParmItem) (d : Bytes 1024), psnOf (fieldOfItems items) ≤ 79 →
    psnOf (fieldOfItems items) % 2 = 0 →
    let p := psnOf (fieldOfItems items)
    ∃ data : Memory,
      (∀ a, (a < 1024 * p ∨ 1024 * p + 1024 ≤ a) → memRead data a = memRead s.fr.data a) ∧
      ((List.range 1024).map (fun j => memRead data (1024 * p + j)) = d.val) ∧
      exec (.wrsecW (.closed items) (some d)) s = .next { s with
        fr := ended s.fr.mode { sent (statusPsn p ++ statusPsn p) (psnTaken chW items s.fr) with
          data := data, buf := d.val, bufCount := 1024 } } ∧
      exec (.wrsecX (.closed items) (some d)) s = .next { s with
        fr := ended s.fr.mode { sent (statusPsn p ++ statusPsn p) (psnTaken chX items s.fr) with
          data := data, buf := d.val, bufCount := 1024 } }

/-- A write of an odd sector p also sets lastTrack to p/2 + 1 and emits TrackWritten with the even sector's bytes and
the payload, after the first status word and before the second (20_memory.md R63, 41_fdc_commands.md R198). -/
def Obligations.OddSectorWriteEmitsTheTrack : Prop :=
  ∀ (s : State) (items : List ParmItem) (d : Bytes 1024), psnOf (fieldOfItems items) ≤ 79 →
    psnOf (fieldOfItems items) % 2 = 1 →
    let p := psnOf (fieldOfItems items)
    let event := Event.trackWritten (p / 2 + 1)
      ((List.range 1024).map (fun j => memRead s.fr.data (1024 * (p - 1) + j)) ++ d.val)
    let out := s.fr.out ++ (statusPsn p).map Output.tx ++ [Output.event event] ++ (statusPsn p).map Output.tx
    ∃ data : Memory,
      (∀ a, (a < 1024 * p ∨ 1024 * p + 1024 ≤ a) → memRead data a = memRead s.fr.data a) ∧
      ((List.range 1024).map (fun j => memRead data (1024 * p + j)) = d.val) ∧
      exec (.wrsecW (.closed items) (some d)) s = .next { s with
        fr := ended s.fr.mode { psnTaken chW items s.fr with
          out := out, data := data, lastTrack := p / 2 + 1, buf := d.val, bufCount := 1024 } } ∧
      exec (.wrsecX (.closed items) (some d)) s = .next { s with
        fr := ended s.fr.mode { psnTaken chX items s.fr with
          out := out, data := data, lastTrack := p / 2 + 1, buf := d.val, bufCount := 1024 } }

/-- A write of a sector or an ID 80..255 takes its whole payload, sends the status word and "80000000", and halts with
STORAGE_RANGE; the store, mode, chain and forceOp stay (41_fdc_commands.md R194, R198, 60_exceptions.md R283). -/
def Obligations.WriteBeyondTheStoreHalts : Prop :=
  ∀ (s : State) (items : List ParmItem) (v : Bytes 12) (d : Bytes 1024), 80 ≤ psnOf (fieldOfItems items) →
    psnOf (fieldOfItems items) ≤ 255 →
    let bs := statusPsn (psnOf (fieldOfItems items)) ++ ascii ['8','0','0','0','0','0','0','0']
    exec (.wridB (.closed items) (some v)) s = .next { s with
      fr := halted .storageRange { sent bs (psnTaken chB items s.fr) with buf := v.val, bufCount := 12 } } ∧
    exec (.wridC (.closed items) (some v)) s = .next { s with
      fr := halted .storageRange { sent bs (psnTaken chC items s.fr) with buf := v.val, bufCount := 12 } } ∧
    exec (.wrsecW (.closed items) (some d)) s = .next { s with
      fr := halted .storageRange { sent bs (psnTaken chW items s.fr) with buf := d.val, bufCount := 1024 } } ∧
    exec (.wrsecX (.closed items) (some d)) s = .next { s with
      fr := halted .storageRange { sent bs (psnTaken chX items s.fr) with buf := d.val, bufCount := 1024 } }

/-! ### The pattern table -/

/-- BFM, NPR and BPP answer the rounded-up quotients of 43_pattern_table.md R220 to R222, NPR in the source's own form
(the stitches rounded up to a multiple of 4, then divided by 4), with the literal examples. -/
def Obligations.SizeFunctionsAnswer : Prop :=
  (∀ (s : State) (r st : Nat),
    exec (.bfm r) s = .next { s with co := succeeded (.number ((r + 1) / 2)) s.co } ∧
    exec (.npr st) s = .next { s with co := succeeded (.number (((st + 3) / 4 * 4 + 3) / 4)) s.co } ∧
    exec (.bpp st r) s = .next { s with co := succeeded (.number ((r * ((st + 3) / 4) + 1) / 2)) s.co }) ∧
  [4, 17].map bytesForMemo = [2, 9] ∧ [1, 4, 5, 17].map nibblesPerRow = [1, 1, 2, 5] ∧
  bytesPerPattern 16 16 = 32 ∧ bytesPerPattern 17 17 = 43 ∧ bytesPerPattern 5 4 = 4 ∧ bytesPerPattern 200 150 = 3750

/-- A descriptor's fields are the decimal values of its nibbles, high nibble first, nibbles above 9 as their values, and
its offsets are the signed differences of 43_pattern_table.md R227; the number under both layouts (R225). -/
def Obligations.SlotFieldsAreTheirDigits : Prop :=
  ∀ (n i : Nat) (layout : NumLayout) (s0 s1 s2 s3 s4 s5 s6 : Byte),
    let slot := slotOf n layout i s0 s1 s2 s3 s4 s5 s6
    slot.index = i ∧
    slot.rows = 100 * (s2.toNat / 16) + 10 * (s2.toNat % 16) + s3.toNat / 16 ∧
    slot.stitches = 100 * (s3.toNat % 16) + 10 * (s4.toNat / 16) + s4.toNat % 16 ∧
    slot.number =
      (match layout with
      | .low3 => 100 * (s5.toNat % 16) + 10 * (s6.toNat / 16) + s6.toNat % 16
      | .high3 => 100 * (s5.toNat / 16) + 10 * (s5.toNat % 16) + s6.toNat / 16) ∧
    slot.memoOffset = (n : Int) - 1 - (256 * s0.toNat + s1.toNat : Nat) ∧
    slot.patternOffset = slot.memoOffset - ((slot.rows + 1) / 2 : Nat) ∧
    slot.patternEndOffset = slot.patternOffset - ((slot.rows * nprOf slot.stitches + 1) / 2 : Nat)

/-- TDEC: when the first k slots have nonzero flags and lie in the blob, and the scan stops there (k = 99, or the next
flag is in the blob and zero), the result is their k records in order; when instead the next slot's flag, or with a
nonzero flag its other bytes, lie beyond the blob, the status is CODEC_RANGE and there is no result; the blob stays
(43_pattern_table.md R230, R231). -/
def Obligations.TableDecodeReadsTheSlots : Prop :=
  ∀ (s : State) (k : Nat), k ≤ 99 → 7 * k ≤ s.cfg.blobLen → (∀ i, i < k → memRead s.co.blob (7 * i) ≠ 0#8) →
    ((k = 99 ∨ (7 * k < s.cfg.blobLen ∧ memRead s.co.blob (7 * k) = 0#8)) →
      exec .tdec s = .next { s with co := succeeded (.slots ((List.range k).map fun i =>
        slotOf s.cfg.blobLen s.cfg.numLayout (i + 1)
          (memRead s.co.blob (7 * i)) (memRead s.co.blob (7 * i + 1)) (memRead s.co.blob (7 * i + 2))
          (memRead s.co.blob (7 * i + 3)) (memRead s.co.blob (7 * i + 4)) (memRead s.co.blob (7 * i + 5))
          (memRead s.co.blob (7 * i + 6)))) s.co }) ∧
    ((k < 99 ∧ (7 * k = s.cfg.blobLen ∨ (memRead s.co.blob (7 * k) ≠ 0#8 ∧ s.cfg.blobLen < 7 * k + 7 ∧
        7 * k < s.cfg.blobLen))) →
      exec .tdec s = .next { s with co := failed .codecRange s.co })

/-- LOOKUP answers the first record of the table that carries the number, NOT_FOUND with status OK when none does, and
CODEC_RANGE when the table cannot be decoded (43_pattern_table.md R232, R233). -/
def Obligations.LookupAnswersTheFirstRecord : Prop :=
  ∀ (s : State) (n : Nat),
    (∀ l l1 slot l2, decodeTable s.cfg s.co.blob = .ok l → l = l1 ++ slot :: l2 → slot.number = n →
      (∀ x ∈ l1, x.number ≠ n) → exec (.lookup n) s = .next { s with co := succeeded (.slot slot) s.co }) ∧
    (∀ l, decodeTable s.cfg s.co.blob = .ok l → (∀ x ∈ l, x.number ≠ n) →
      exec (.lookup n) s = .next { s with co := succeeded .notFound s.co }) ∧
    (∀ e, decodeTable s.cfg s.co.blob = .error e →
      exec (.lookup n) s = .next { s with co := failed .codecRange s.co })

/-! ### The bitmap codec -/

/-- BDEC: when every byte it needs lies in the blob (or the grid is empty) the result is the grid whose bit at row r and
column c is bit c mod 4 of nibble r*npr + c div 4 below patternOffset; when one does not, CODEC_RANGE; the blob stays
(44_pattern_codec.md R250, R251). -/
def Obligations.BitmapDecodeReadsTheBits : Prop :=
  ∀ (s : State) (slot : SlotRecord),
    let npr := nprOf slot.stitches
    let total := slot.rows * npr
    ((total = 0 ∨ (((total - 1) / 2 : Nat) ≤ slot.patternOffset ∧ slot.patternOffset < s.cfg.blobLen)) →
      ∃ g, exec (.bdec slot) s = .next { s with co := succeeded (.grid g) s.co } ∧
        g.rows = slot.rows ∧ g.stitches = slot.stitches ∧
        ∀ r c, r < slot.rows → c < slot.stitches →
          gridBit g r c = nibbleBit s.co.blob slot.patternOffset (r * npr + c / 4) (c % 4)) ∧
    ((total ≠ 0 ∧ (slot.patternOffset < ((total - 1) / 2 : Nat) ∨ s.cfg.blobLen ≤ slot.patternOffset)) →
      exec (.bdec slot) s = .next { s with co := failed .codecRange s.co })

/-- MDEC: the flag of row r is bit 0 of nibble r below memoOffset, when every byte needed lies in the blob; else
CODEC_RANGE (44_pattern_codec.md R252, R253). -/
def Obligations.MemoDecodeReadsTheFlags : Prop :=
  ∀ (s : State) (slot : SlotRecord),
    ((slot.rows = 0 ∨ (((slot.rows - 1) / 2 : Nat) ≤ slot.memoOffset ∧ slot.memoOffset < s.cfg.blobLen)) →
      exec (.mdec slot) s = .next { s with co := succeeded (.bits ((List.range slot.rows).map fun r =>
        nibbleBit s.co.blob slot.memoOffset r 0)) s.co }) ∧
    ((slot.rows ≠ 0 ∧ (slot.memoOffset < ((slot.rows - 1) / 2 : Nat) ∨ s.cfg.blobLen ≤ slot.memoOffset)) →
      exec (.mdec slot) s = .next { s with co := failed .codecRange s.co })

/-- BENC's output has the length bytesPerPattern; bit c mod 4 of nibble r*npr + c div 4 is the stitch at row r, column c,
and a padding column's bit is 0, the low nibble of a byte before its high one; an odd nibble count leaves the last high
nibble 0 (44_pattern_codec.md R254, R255). -/
def Obligations.EncodedGridHoldsTheBits : Prop :=
  ∀ (s : State) (g : Grid), ∃ e : List Byte,
    exec (.benc g) s = .next { s with co := succeeded (.bytes e) s.co } ∧
    e.length = (g.rows * nprOf g.stitches + 1) / 2 ∧
    (∀ r c, r < g.rows → c < 4 * nprOf g.stitches →
      let k := r * nprOf g.stitches + c / 4
      (e.getD (k / 2) 0#8).getLsbD (4 * (k % 2) + c % 4) = (decide (c < g.stitches) && gridBit g r c)) ∧
    (g.rows * nprOf g.stitches % 2 = 1 → ∀ i, i < 4 →
      (e.getD ((g.rows * nprOf g.stitches) / 2) 0#8).getLsbD (4 + i) = false)

/-- Round trip: a grid encoded and stored down from patternOffset is decoded back (44_pattern_codec.md R256). -/
def Obligations.DecodeOfStoredEncodingIsTheGrid : Prop :=
  ∀ (n : Nat) (blob : Memory) (g : Grid) (slot : SlotRecord), Memory.wf blob = true →
    slot.rows = g.rows → slot.stitches = g.stitches →
    (g.rows * nprOf g.stitches = 0 ∨
      (((g.rows * nprOf g.stitches + 1) / 2 : Nat) ≤ slot.patternOffset + 1 ∧ slot.patternOffset < n)) →
    decodeBitmap n (storeDown blob slot.patternOffset (encodeGrid g)) slot = .ok g

/-! ### Replacement -/

/-- REPL of a pattern of the table by a grid of its size whose span lies in the blob: status OK, no result, the warning
exactly when patternEndOffset ≤ GUARD; the bitmap region holds the encoding, byte 0 at patternOffset, going down, the
memo region holds zeros, and every other byte of the blob, the framer and the parameters stay (44_pattern_codec.md
R258, R261, R262). -/
def Obligations.ReplaceWritesExactlyItsSpan : Prop :=
  ∀ (s : State) (n : Nat) (g : Grid) (slot : SlotRecord), Memory.wf s.co.blob = true →
    lookupSlot s.cfg s.co.blob n = .ok (some slot) → g.rows = slot.rows → g.stitches = slot.stitches →
    (slot.memoOffset ≤ slot.patternEndOffset ∨
      (0 ≤ slot.patternEndOffset + 1 ∧ slot.memoOffset < s.cfg.blobLen)) →
    ∃ (m : Memory) (l : List LogRecord),
      exec (.repl n g) s = .next { s with co := { s.co with
        status := .ok, result := .none, warn := decide (slot.patternEndOffset ≤ s.cfg.guard), blob := m, log := l } } ∧
      (∀ a : Nat, ((a : Int) ≤ slot.patternEndOffset ∨ slot.memoOffset < a) → memRead m a = memRead s.co.blob a) ∧
      (∀ j, j < (encodeGrid g).length → memRead m (slot.patternOffset - (j : Nat)).toNat = (encodeGrid g).getD j 0#8) ∧
      (∀ a : Nat, slot.patternOffset < a → (a : Int) ≤ slot.memoOffset → memRead m a = 0#8)

/-- After a REPL with status OK, BDEC of the slot it replaced gives the grid and MDEC gives all zeros (44_pattern_codec.md
R260). -/
def Obligations.DecodeAfterReplaceIsTheNewPattern : Prop :=
  ∀ (s t : State) (n : Nat) (g : Grid) (slot : SlotRecord), Memory.wf s.co.blob = true →
    lookupSlot s.cfg s.co.blob n = .ok (some slot) → exec (.repl n g) s = .next t → t.co.status = .ok →
    exec (.bdec slot) t = .next { t with co := succeeded (.grid g) t.co } ∧
    exec (.mdec slot) t = .next { t with co := succeeded (.bits (List.replicate slot.rows false)) t.co }

/-- REPL's failures, in the order of its checks: CODEC_RANGE for a table that cannot be decoded, PATTERN_NOT_FOUND,
SIZE_MISMATCH, CODEC_RANGE for a span that leaves the blob; each with no result, no warning and the blob as it was
(44_pattern_codec.md R258, R259). -/
def Obligations.ReplaceFailsInTheOrderOfItsChecks : Prop :=
  ∀ (s : State) (n : Nat) (g : Grid),
    (∀ e, decodeTable s.cfg s.co.blob = .error e →
      exec (.repl n g) s = .next { s with co := failed .codecRange s.co }) ∧
    (∀ l, decodeTable s.cfg s.co.blob = .ok l → (∀ x ∈ l, x.number ≠ n) →
      exec (.repl n g) s = .next { s with co := failed .patternNotFound s.co }) ∧
    (∀ slot, lookupSlot s.cfg s.co.blob n = .ok (some slot) →
      (g.rows ≠ slot.rows ∨ g.stitches ≠ slot.stitches →
        exec (.repl n g) s = .next { s with co := failed .sizeMismatch s.co }) ∧
      (g.rows = slot.rows → g.stitches = slot.stitches → slot.patternEndOffset < slot.memoOffset →
        (slot.patternEndOffset + 1 < 0 ∨ s.cfg.blobLen ≤ slot.memoOffset) →
        exec (.repl n g) s = .next { s with co := failed .codecRange s.co }))

/-- A reserved operation code answers BAD_OP with no result and no warning and leaves the blob (60_exceptions.md R285). -/
def Obligations.ReservedOperationAnswersBadOp : Prop :=
  ∀ (s : State) (op : BitVec 4), exec (.codecReserved op) s = .next { s with co := failed .badOp s.co }

/-- Only a REPL that ends with status OK changes the blob, and a codec step that ends with another status leaves no
result and no warning (10_state.md R39, 44_pattern_codec.md R263). -/
def Obligations.OnlyReplaceWritesTheBlob : Prop :=
  ∀ s t : State, codecStep s = .next t → s.co.req ≠ [] →
    (t.co.blob ≠ s.co.blob →
      ∃ q rest n g, s.co.req = q :: rest ∧ decodeRequest q = .repl n g ∧ t.co.status = .ok) ∧
    (t.co.status ≠ .ok → t.co.result = .none ∧ t.co.warn = false)

/-- A host load stores its bytes into the blob from offset 0 up, as far as the blob reaches, and changes nothing else
(the model's choice, log 13; 10_state.md R39 says only that the host loads the blob). -/
def Obligations.HostLoadFillsTheBlobFromItsStart : Prop :=
  ∀ (s : State) (turns : List Turn) (bytes : List Byte), s.sched = .loadBlob bytes :: turns →
    ∃ m : Memory,
      step s = .next { s with sched := turns, co := { s.co with blob := m } } ∧
      ∀ a, memRead m a =
        if a < bytes.length ∧ a < s.cfg.blobLen then bytes.getD a 0#8 else memRead s.co.blob a
end

