-- ==== Sys2Proof/Laws/Decode.lean ====
section
/-!
SUPPORT. The laws of the decoder's and encoder's parts: a field, a fixed-length payload and a request tail are read back
from what the encoder writes, and what was read is exactly what the encoder writes.
-/

namespace Sys2Proof

theorem Machine.itemOfByte_byteOfItem (it : ParmItem) : Machine.itemOfByte (Machine.byteOfItem it) = some it := by
  cases it with
  | comma => decide
  | space => decide
  | digit d => revert d; decide

theorem Machine.byteOfItem_ne_cr (it : ParmItem) : Machine.byteOfItem it ≠ chCR := by
  cases it with
  | comma => decide
  | space => decide
  | digit d => revert d; decide

theorem Machine.byteOfItem_itemOfByte {b : Byte} {it : ParmItem} (h : Machine.itemOfByte b = some it) :
    Machine.byteOfItem it = b := by
  unfold Machine.itemOfByte at h
  split_ifs at h with h1 h2 h3
  · cases h; exact h1.symm
  · cases h; exact h2.symm
  · cases h
    apply BitVec.eq_of_toNat_eq
    simp only [Machine.byteOfItem, BitVec.toNat_ofNat]
    omega

/-- A well-formed field is read back, whatever follows it. -/
theorem decodeField_encodeField (fld : ParmField) (h : fieldWellFormed fld = true) (rest : List Byte) :
    decodeField (encodeField fld ++ rest) = .ok (fld, rest) := by
  cases fld with
  | closed items =>
    induction items with
    | nil => simp [encodeField, decodeField]
    | cons it items ih =>
      have := ih rfl
      simp only [encodeField, List.map_cons, List.cons_append, decodeField] at this ⊢
      rw [if_neg (Machine.byteOfItem_ne_cr it), Machine.itemOfByte_byteOfItem]
      simp only [this]
  | broken items bad =>
    simp only [fieldWellFormed, Bool.and_eq_true, decide_eq_true_eq, Option.isNone_iff_eq_none] at h
    induction items with
    | nil =>
      simp only [encodeField, List.map_nil, List.nil_append, List.cons_append, decodeField]
      rw [if_neg h.1, h.2]
    | cons it items ih =>
      simp only [encodeField, List.map_cons, List.cons_append, decodeField] at ih ⊢
      rw [if_neg (Machine.byteOfItem_ne_cr it), Machine.itemOfByte_byteOfItem]
      simp only [ih]

/-- What was read as a field is a well-formed field, and the bytes read are its encoding. -/
theorem decodeField_ok {bs : List Byte} {fld : ParmField} {rest : List Byte} (h : decodeField bs = .ok (fld, rest)) :
    fieldWellFormed fld = true ∧ bs = encodeField fld ++ rest := by
  induction bs generalizing fld rest with
  | nil => cases h
  | cons b bs ih =>
    rw [decodeField] at h
    by_cases hb : b = chCR
    · rw [if_pos hb] at h; cases h; exact ⟨rfl, by simp [encodeField, hb]⟩
    · rw [if_neg hb] at h
      cases hi : Machine.itemOfByte b with
      | none =>
        rw [hi] at h; cases h
        exact ⟨by simp [fieldWellFormed, hb, hi], by simp [encodeField]⟩
      | some it =>
        have hbi := Machine.byteOfItem_itemOfByte hi
        rw [hi] at h
        rcases hd : decodeField bs with e | ⟨fld', rest'⟩
        · rw [hd] at h; cases h
        · rw [hd] at h
          obtain ⟨h1, h2⟩ := ih hd
          cases fld' <;> cases h
          · exact ⟨rfl, by simp [encodeField, h2, hbi]⟩
          · exact ⟨h1, by simp [encodeField, h2, hbi]⟩

/-- A fixed-length payload is read back, whatever follows it. -/
theorem takeBytes_append {n : Nat} (v : Bytes n) (rest : List Byte) : takeBytes n (v.val ++ rest) = some (v, rest) := by
  obtain ⟨bs, rfl⟩ := v
  simp [takeBytes]

/-- What was read as a payload is the bytes read. -/
theorem takeBytes_some {n : Nat} {bs : List Byte} {v : Bytes n} {rest : List Byte}
    (h : takeBytes n bs = some (v, rest)) : bs = v.val ++ rest := by
  unfold takeBytes at h
  split at h
  · cases h; exact (List.take_append_drop n bs).symm
  · cases h

/-- A request tail: its encoding from the code byte on, for the two tails that follow a sync pair. -/
theorem decodeTail_encodeEnter (payload : List Byte) (ck : Byte) (h : payload.length ≤ 255) (rest : List Byte) :
    decodeTail (encodeEnter payload ck ++ rest) = .ok (.enter payload ck, rest) := by
  have e : (BitVec.ofNat 8 payload.length).toNat = payload.length := by
    simp only [BitVec.toNat_ofNat]; omega
  obtain ⟨v, hv⟩ : ∃ v : Bytes (BitVec.ofNat 8 payload.length).toNat, v.val = payload := ⟨⟨payload, e.symm⟩, rfl⟩
  have := takeBytes_append v (ck :: rest)
  simp only [hv] at this
  simp only [encodeEnter, List.cons_append, List.nil_append, List.append_assoc, decodeTail, if_true]
  rw [this]
  simp only [hv]

theorem decodeTail_ignore (code : Byte) (h : code ≠ reqEnterFdc) (rest : List Byte) :
    decodeTail (code :: rest) = .ok (.ignore code, rest) := by
  simp only [decodeTail, if_neg h]

/-- What was read as a request tail is well-formed, and the bytes read are its encoding. -/
theorem decodeTail_ok {bs : List Byte} {tail : ResyncTail} {rest : List Byte} (h : decodeTail bs = .ok (tail, rest)) :
    tailWellFormed tail = true ∧ chZ :: bs = encodeTail tail ++ rest ∧ ∀ b, tail ≠ .drop b := by
  cases bs with
  | nil => cases h
  | cons code bs =>
    simp only [decodeTail] at h
    by_cases hc : code = reqEnterFdc
    · rw [if_pos hc] at h
      cases bs with
      | nil => cases h
      | cons len bs =>
        simp only at h
        rcases ht : takeBytes len.toNat bs with _ | ⟨payload, more⟩
        · rw [ht] at h; cases h
        · rw [ht] at h
          have hb := takeBytes_some ht
          cases more with
          | nil => cases h
          | cons ck more =>
            cases h
            have hl := payload.2
            have hlen : len.toNat < 256 := len.isLt
            refine ⟨by simp only [tailWellFormed, decide_eq_true_eq]; omega, ?_, by simp⟩
            have e : BitVec.ofNat 8 payload.val.length = len := by
              rw [hl]; exact BitVec.eq_of_toNat_eq (by simp only [BitVec.toNat_ofNat]; omega)
            simp [encodeTail, encodeEnter, hc, hb, e]
    · rw [if_neg hc] at h; cases h
      exact ⟨by simpa [tailWellFormed] using hc, by simp [encodeTail], by simp⟩

end Sys2Proof
end

