-- ==== Sys2Proof/Laws/Memory.lean ====
section
/-!
SUPPORT. The laws of memory: what a read answers after each memory operation, and that every operation keeps the
canonical form and the bounds of its space.
-/

namespace Sys2Proof

/-! ### Single bytes -/

@[simp] theorem Machine.memRead_nil (a : Nat) : Machine.memRead [] a = 0#8 := rfl

theorem Machine.memRead_memWrite_other (m : Memory) (a b : Nat) (v : Byte) (h : b ≠ a) :
    Machine.memRead (Machine.memWrite m a v) b = Machine.memRead m b := by
  induction m with
  | nil => simp only [Machine.memWrite]; split <;> simp [Machine.memRead, Ne.symm h]
  | cons c m ih =>
    obtain ⟨k, w⟩ := c
    simp only [Machine.memWrite]
    split_ifs with h1 h2 h3 h4
    · rfl
    · simp [Machine.memRead, Ne.symm h]
    · subst h3; simp [Machine.memRead, Ne.symm h]
    · subst h3; simp [Machine.memRead, Ne.symm h]
    · by_cases hk : k = b <;> simp [Machine.memRead, hk, ih]

theorem Memory.wfFrom_mono {lo lo' : Nat} (h : lo' ≤ lo) (m : Memory) (hw : Memory.wfFrom lo m = true) :
    Memory.wfFrom lo' m = true := by
  cases m with
  | nil => rfl
  | cons c m => simp only [Memory.wfFrom, Bool.and_eq_true, decide_eq_true_eq] at hw ⊢; exact ⟨⟨by omega, hw.1.2⟩, hw.2⟩

theorem Machine.memRead_below {lo : Nat} (m : Memory) (hw : Memory.wfFrom lo m = true) (a : Nat) (h : a < lo) :
    Machine.memRead m a = 0#8 := by
  induction m generalizing lo with
  | nil => rfl
  | cons c m ih =>
    obtain ⟨k, w⟩ := c
    simp only [Memory.wfFrom, Bool.and_eq_true, decide_eq_true_eq] at hw
    have : k ≠ a := by omega
    simpa [Machine.memRead, this] using ih hw.2 (by omega)

theorem Machine.memRead_memWrite_same {lo : Nat} (m : Memory) (hw : Memory.wfFrom lo m = true) (a : Nat) (v : Byte) :
    Machine.memRead (Machine.memWrite m a v) a = v := by
  induction m generalizing lo with
  | nil => simp only [Machine.memWrite]; split <;> simp_all [Machine.memRead]
  | cons c m ih =>
    obtain ⟨k, w⟩ := c
    simp only [Memory.wfFrom, Bool.and_eq_true, decide_eq_true_eq] at hw
    simp only [Machine.memWrite]
    split_ifs with h1 h2 h3 h4
    · have hk : k ≠ a := by omega
      simp [Machine.memRead, hk, Machine.memRead_below m hw.2 a (by omega), h2]
    · simp [Machine.memRead]
    · simp [h4, Machine.memRead_below m hw.2 a (by omega)]
    · simp [Machine.memRead]
    · have hk : k ≠ a := by omega
      simp [Machine.memRead, hk, ih hw.2]

theorem Memory.wfFrom_memWrite {lo : Nat} (m : Memory) (hw : Memory.wfFrom lo m = true) (a : Nat) (v : Byte)
    (h : lo ≤ a) : Memory.wfFrom lo (Machine.memWrite m a v) = true := by
  induction m generalizing lo with
  | nil => simp only [Machine.memWrite]; split <;> simp_all [Memory.wfFrom]
  | cons c m ih =>
    obtain ⟨k, w⟩ := c
    have hw' := hw
    simp only [Memory.wfFrom, Bool.and_eq_true, decide_eq_true_eq] at hw
    simp only [Machine.memWrite]
    split_ifs with h1 h2 h3 h4
    · exact hw'
    · simp only [Memory.wfFrom, Bool.and_eq_true, decide_eq_true_eq]
      exact ⟨⟨h, h2⟩, ⟨by omega, hw.1.2⟩, hw.2⟩
    · exact Memory.wfFrom_mono (by omega) m hw.2
    · simp only [Memory.wfFrom, Bool.and_eq_true, decide_eq_true_eq]
      exact ⟨⟨h, h4⟩, by subst h3; exact hw.2⟩
    · simp only [Memory.wfFrom, Bool.and_eq_true, decide_eq_true_eq]
      exact ⟨hw.1, ih hw.2 (by omega)⟩

/-- A byte write keeps the canonical form. -/
theorem Memory.wf_memWrite (m : Memory) (hw : Memory.wf m = true) (a : Nat) (v : Byte) :
    Memory.wf (Machine.memWrite m a v) = true := Memory.wfFrom_memWrite m hw a v (Nat.zero_le a)

theorem Memory.within_iff (size : Nat) (m : Memory) : Memory.within size m = true ↔ ∀ c ∈ m, c.1 < size := by
  simp [Memory.within]

theorem Memory.within_memWrite (size : Nat) (m : Memory) (hw : Memory.within size m = true) (a : Nat) (v : Byte)
    (h : a < size) : Memory.within size (Machine.memWrite m a v) = true := by
  rw [Memory.within_iff] at hw ⊢
  induction m with
  | nil => simp only [Machine.memWrite]; split <;> simp_all
  | cons c m ih =>
    obtain ⟨k, w⟩ := c
    have ih' := ih (fun c hc => hw c (List.mem_cons_of_mem _ hc))
    have hk : k < size := hw (k, w) (by simp)
    have hm : ∀ c ∈ m, c.1 < size := fun c hc => hw c (List.mem_cons_of_mem _ hc)
    simp only [Machine.memWrite]
    split_ifs
    · exact hw
    · exact List.forall_mem_cons.mpr ⟨h, hw⟩
    · exact hm
    · exact List.forall_mem_cons.mpr ⟨h, hm⟩
    · exact List.forall_mem_cons.mpr ⟨hk, ih'⟩

/-! ### Selecting the entries of some addresses -/

theorem Machine.memRead_filter (m : Memory) (q : Nat → Bool) (a : Nat) :
    Machine.memRead (m.filter fun c => q c.1) a = if q a then Machine.memRead m a else 0#8 := by
  induction m with
  | nil => simp [Machine.memRead]
  | cons c m ih =>
    obtain ⟨k, w⟩ := c
    by_cases hk : k = a
    · subst hk; cases hq : q k <;> simp_all [Machine.memRead]
    · cases hq : q k <;> simp_all [Machine.memRead]

theorem Memory.wfFrom_filter {lo : Nat} (m : Memory) (hw : Memory.wfFrom lo m = true) (p : Host.Cell → Bool) :
    Memory.wfFrom lo (m.filter p) = true := by
  induction m generalizing lo with
  | nil => rfl
  | cons c m ih =>
    obtain ⟨k, w⟩ := c
    simp only [Memory.wfFrom, Bool.and_eq_true, decide_eq_true_eq] at hw
    by_cases hp : p (k, w)
    · simp only [List.filter_cons, hp, if_true, Memory.wfFrom, Bool.and_eq_true, decide_eq_true_eq]
      exact ⟨hw.1, ih hw.2⟩
    · rw [List.filter_cons_of_neg hp]
      exact Memory.wfFrom_mono (by omega) _ (ih hw.2)

theorem Memory.within_filter (size : Nat) (m : Memory) (hw : Memory.within size m = true) (p : Host.Cell → Bool) :
    Memory.within size (m.filter p) = true := by
  rw [Memory.within_iff] at hw ⊢
  intro c hc
  exact hw c (List.mem_filter.mp hc).1

/-! ### Ranges -/

/-- A range read is the reads of its bytes, whatever the memory's form. -/
theorem Machine.memReadRange_eq (m : Memory) (a n : Nat) :
    Machine.memReadRange m a n = (List.range n).map fun i => Machine.memRead m (a + i) := by
  simp only [Machine.memReadRange]
  apply List.map_congr_left
  intro i hi
  rw [List.mem_range] at hi
  have := Machine.memRead_filter m (fun k => decide (a ≤ k) && decide (k < a + n)) (a + i)
  simp only [this]
  simp [hi]

@[simp] theorem Machine.memReadRange_length (m : Memory) (a n : Nat) : (Machine.memReadRange m a n).length = n := by
  simp [Machine.memReadRange]

@[simp] theorem Machine.memReadRange_getElem (m : Memory) (a n i : Nat) (h : i < (Machine.memReadRange m a n).length) :
    (Machine.memReadRange m a n)[i] = Machine.memRead m (a + i) := by
  simp [Machine.memReadRange_eq]

theorem Machine.memRead_append_unlisted (x y : Memory) (a : Nat) (h : ∀ c ∈ x, c.1 ≠ a) :
    Machine.memRead (x ++ y) a = Machine.memRead y a := by
  induction x with
  | nil => rfl
  | cons c x ih =>
    obtain ⟨k, w⟩ := c
    have hk : k ≠ a := h (k, w) (by simp)
    simpa [Machine.memRead, hk] using ih (fun c hc => h c (List.mem_cons_of_mem _ hc))

theorem Machine.memRead_append_below (x y : Memory) (a : Nat) (h : ∀ c ∈ y, c.1 ≠ a) :
    Machine.memRead (x ++ y) a = Machine.memRead x a := by
  induction x with
  | nil =>
    induction y with
    | nil => rfl
    | cons c y ih =>
      obtain ⟨k, w⟩ := c
      have hk : k ≠ a := h (k, w) (by simp)
      simpa [Machine.memRead, hk] using ih (fun c hc => h c (List.mem_cons_of_mem _ hc))
  | cons c x ih =>
    obtain ⟨k, w⟩ := c
    by_cases hk : k = a <;> simp [Machine.memRead, hk, ih]

theorem Machine.cellsOf_bounds (a : Nat) (bs : List Byte) : ∀ c ∈ Machine.cellsOf a bs, a ≤ c.1 ∧ c.1 < a + bs.length := by
  induction bs generalizing a with
  | nil => simp [Machine.cellsOf]
  | cons b bs ih =>
    intro c hc
    simp only [Machine.cellsOf] at hc
    split at hc
    · have := ih (a + 1) c hc; simp only [List.length_cons]; omega
    · rcases List.mem_cons.mp hc with rfl | hc
      · simp
      · have := ih (a + 1) c hc; simp only [List.length_cons]; omega

theorem Machine.memRead_cellsOf (a : Nat) (bs : List Byte) (i : Nat) (h : i < bs.length) :
    Machine.memRead (Machine.cellsOf a bs) (a + i) = bs[i] := by
  induction bs generalizing a i with
  | nil => simp at h
  | cons b bs ih =>
    simp only [Machine.cellsOf]
    have low : Machine.memRead (Machine.cellsOf (a + 1) bs) a = 0#8 := by
      have := Machine.memRead_append_below [] (Machine.cellsOf (a + 1) bs) a (fun c hc => by
        have := Machine.cellsOf_bounds (a + 1) bs c hc; omega)
      simpa using this
    cases i with
    | zero => split <;> simp_all [Machine.memRead]
    | succ i =>
      have e : a + (i + 1) = (a + 1) + i := by omega
      have := ih (a + 1) i (by simpa using h)
      split
      · simpa [e] using this
      · have hk : a ≠ a + 1 + i := by omega
        simpa [Machine.memRead, hk, e] using this

/-- What a read answers after a range write. -/
theorem Machine.memRead_memWriteRange (m : Memory) (a : Nat) (bs : List Byte) (b : Nat) :
    Machine.memRead (Machine.memWriteRange m a bs) b =
      if h : a ≤ b ∧ b < a + bs.length then bs[b - a]'(by omega) else Machine.memRead m b := by
  simp only [Machine.memWriteRange]
  have f1 : ∀ c ∈ m.filter (fun c => decide (c.1 < a)), c.1 < a := fun c hc => by
    simpa using (List.mem_filter.mp hc).2
  have f3 : ∀ c ∈ m.filter (fun c => decide (a + bs.length ≤ c.1)), a + bs.length ≤ c.1 := fun c hc => by
    simpa using (List.mem_filter.mp hc).2
  have f2 := Machine.cellsOf_bounds a bs
  have r1 := Machine.memRead_filter m (fun k => decide (k < a)) b
  have r3 := Machine.memRead_filter m (fun k => decide (a + bs.length ≤ k)) b
  by_cases h1 : b < a
  · rw [Machine.memRead_append_below _ _ _ (fun c hc => by have := f3 c hc; omega),
      Machine.memRead_append_below _ _ _ (fun c hc => by have := f2 c hc; omega), r1]
    have : ¬(a ≤ b ∧ b < a + bs.length) := by omega
    simp [h1, this]
  · by_cases h3 : a + bs.length ≤ b
    · rw [List.append_assoc, Machine.memRead_append_unlisted _ _ _ (fun c hc => by have := f1 c hc; omega),
        Machine.memRead_append_unlisted _ _ _ (fun c hc => by have := f2 c hc; omega), r3]
      have : ¬(a ≤ b ∧ b < a + bs.length) := by omega
      simp [h3, this]
    · rw [Machine.memRead_append_below _ _ _ (fun c hc => by have := f3 c hc; omega),
        Machine.memRead_append_unlisted _ _ _ (fun c hc => by have := f1 c hc; omega)]
      have hb : a ≤ b ∧ b < a + bs.length := by omega
      have := Machine.memRead_cellsOf a bs (b - a) (by omega)
      rw [show a + (b - a) = b by omega] at this
      simp [this, hb]

theorem Memory.wfFrom_append {lo mid : Nat} (x y : Memory) (hx : Memory.wfFrom lo x = true)
    (hb : ∀ c ∈ x, c.1 < mid) (hl : lo ≤ mid) (hy : Memory.wfFrom mid y = true) : Memory.wfFrom lo (x ++ y) = true := by
  induction x generalizing lo with
  | nil => exact Memory.wfFrom_mono hl y hy
  | cons c x ih =>
    obtain ⟨k, w⟩ := c
    simp only [List.cons_append, Memory.wfFrom, Bool.and_eq_true, decide_eq_true_eq] at hx ⊢
    have hk : k < mid := hb (k, w) (by simp)
    exact ⟨hx.1, ih hx.2 (fun c hc => hb c (List.mem_cons_of_mem _ hc)) (by omega)⟩

theorem Memory.wfFrom_of_bound {lo lo' : Nat} (m : Memory) (hw : Memory.wfFrom lo m = true)
    (hb : ∀ c ∈ m, lo' ≤ c.1) : Memory.wfFrom lo' m = true := by
  cases m with
  | nil => rfl
  | cons c m =>
    simp only [Memory.wfFrom, Bool.and_eq_true, decide_eq_true_eq] at hw ⊢
    exact ⟨⟨hb c (by simp), hw.1.2⟩, hw.2⟩

theorem Memory.wfFrom_cellsOf (a : Nat) (bs : List Byte) : Memory.wfFrom a (Machine.cellsOf a bs) = true := by
  induction bs generalizing a with
  | nil => rfl
  | cons b bs ih =>
    simp only [Machine.cellsOf]
    split
    · exact Memory.wfFrom_mono (by omega) _ (ih (a + 1))
    · rename_i h
      simp only [Memory.wfFrom, Bool.and_eq_true, decide_eq_true_eq]
      exact ⟨⟨le_refl a, h⟩, ih (a + 1)⟩

/-- A range write keeps the canonical form. -/
theorem Memory.wf_memWriteRange (m : Memory) (hw : Memory.wf m = true) (a : Nat) (bs : List Byte) :
    Memory.wf (Machine.memWriteRange m a bs) = true := by
  have f1 : ∀ c ∈ m.filter (fun c => decide (c.1 < a)), c.1 < a := fun c hc => by
    simpa using (List.mem_filter.mp hc).2
  have f2 := Machine.cellsOf_bounds a bs
  have f3 : ∀ c ∈ m.filter (fun c => decide (a + bs.length ≤ c.1)), a + bs.length ≤ c.1 := fun c hc => by
    simpa using (List.mem_filter.mp hc).2
  have h3 := Memory.wfFrom_of_bound _ (Memory.wfFrom_filter m hw _) f3
  have h2 := Memory.wfFrom_append _ _ (Memory.wfFrom_cellsOf a bs) (fun c hc => (f2 c hc).2) (by omega) h3
  have h1 := Memory.wfFrom_append _ _ (Memory.wfFrom_filter m hw (fun c => decide (c.1 < a))) f1 (Nat.zero_le a) h2
  simpa [Memory.wf, Machine.memWriteRange] using h1

theorem Memory.within_memWriteRange (size : Nat) (m : Memory) (hw : Memory.within size m = true) (a : Nat)
    (bs : List Byte) (h : a + bs.length ≤ size) : Memory.within size (Machine.memWriteRange m a bs) = true := by
  rw [Memory.within_iff] at hw ⊢
  intro c hc
  simp only [Machine.memWriteRange, List.mem_append] at hc
  rcases hc with (hc | hc) | hc
  · exact hw c (List.mem_filter.mp hc).1
  · have := Machine.cellsOf_bounds a bs c hc; omega
  · exact hw c (List.mem_filter.mp hc).1

/-- What a read answers after a range was zeroed. -/
theorem Machine.memRead_memZeroRange (m : Memory) (a n b : Nat) :
    Machine.memRead (Machine.memZeroRange m a n) b = if a ≤ b ∧ b < a + n then 0#8 else Machine.memRead m b := by
  have := Machine.memRead_filter m (fun k => !(decide (a ≤ k) && decide (k < a + n))) b
  simp only [Machine.memZeroRange, this]
  by_cases h : a ≤ b ∧ b < a + n
  · simp [h]
  · rw [if_neg h]
    have : (!(decide (a ≤ b) && decide (b < a + n))) = true := by
      simp only [Bool.not_eq_true', Bool.and_eq_false_iff, decide_eq_false_iff_not]; omega
    simp [this]

/-- Zeroing a range keeps the canonical form. -/
theorem Memory.wf_memZeroRange (m : Memory) (hw : Memory.wf m = true) (a n : Nat) :
    Memory.wf (Machine.memZeroRange m a n) = true := Memory.wfFrom_filter m hw _

theorem Memory.within_memZeroRange (size : Nat) (m : Memory) (hw : Memory.within size m = true) (a n : Nat) :
    Memory.within size (Machine.memZeroRange m a n) = true := Memory.within_filter size m hw _

/-! ### Downward stores -/

/-- A downward store that stays at offsets from 0 up keeps the canonical form. -/
theorem Memory.wf_storeDown (m : Memory) (hw : Memory.wf m = true) (top : Int) (bs : List Byte) :
    Memory.wf (Machine.storeDown m top bs) = true := by
  induction bs generalizing m top with
  | nil => exact hw
  | cons b bs ih => exact ih _ (Memory.wf_memWrite m hw _ _) _

theorem Memory.within_storeDown (size : Nat) (m : Memory) (hw : Memory.within size m = true) (top : Int)
    (bs : List Byte) (h0 : bs ≠ [] → (bs.length : Int) ≤ top + 1) (h1 : bs ≠ [] → top < (size : Int)) :
    Memory.within size (Machine.storeDown m top bs) = true := by
  induction bs generalizing m top with
  | nil => exact hw
  | cons b bs ih =>
    have h0' := h0 (by simp)
    have h1' := h1 (by simp)
    simp only [List.length_cons, Nat.cast_add, Nat.cast_one] at h0'
    refine ih _ (Memory.within_memWrite size m hw _ _ ?_) _ (fun _ => ?_) (fun _ => ?_) <;> omega

/-- A downward store leaves every byte outside its span alone. -/
theorem Machine.memRead_storeDown_other (m : Memory) (top : Int) (bs : List Byte) (b : Nat)
    (h0 : bs ≠ [] → (bs.length : Int) ≤ top + 1) (h : (b : Int) ≤ top - bs.length ∨ top < (b : Int)) :
    Machine.memRead (Machine.storeDown m top bs) b = Machine.memRead m b := by
  induction bs generalizing m top with
  | nil => rfl
  | cons c bs ih =>
    have h0' := h0 (by simp)
    simp only [List.length_cons, Nat.cast_add, Nat.cast_one] at h0' h
    rw [Machine.storeDown, ih (memWrite m top.toNat c) (top - 1) (fun _ => by omega) (by omega)]
    exact Machine.memRead_memWrite_other m _ _ _ (by omega)

/-- A downward store puts byte j of its sequence at `top - j`. -/
theorem Machine.memRead_storeDown (m : Memory) (hw : Memory.wf m = true) (top : Int) (bs : List Byte) (j : Nat)
    (h0 : (bs.length : Int) ≤ top + 1) (hj : j < bs.length) :
    Machine.memRead (Machine.storeDown m top bs) (top - j).toNat = bs[j] := by
  induction bs generalizing m top j with
  | nil => simp at hj
  | cons c bs ih =>
    simp only [List.length_cons, Nat.cast_add, Nat.cast_one] at h0
    cases j with
    | zero =>
      rw [Machine.storeDown, Machine.memRead_storeDown_other _ _ _ _ (fun _ => by omega) (by omega)]
      simpa using Machine.memRead_memWrite_same m hw top.toNat c
    | succ j =>
      have := ih (memWrite m top.toNat c) (Memory.wf_memWrite m hw _ _) (top - 1) j (by omega) (by simpa using hj)
      rw [Machine.storeDown]
      rw [show (top - ((j + 1 : Nat) : Int)) = top - 1 - (j : Int) by push_cast; ring]
      simpa using this

end Sys2Proof
end

