-- ==== Sys2Proof/Laws/State.lean ====
section
/-!
SUPPORT. One lemma per field per named update of the framer, the codec and the state, each true by rfl, so that no
later proof unfolds an update.
-/

namespace Sys2Proof.Machine

/-! ### Framer.send -/

@[simp] theorem Framer.send_mode (bs : List Byte) (f : Framer) : (f.send bs).mode = f.mode := rfl
@[simp] theorem Framer.send_phase (bs : List Byte) (f : Framer) : (f.send bs).phase = f.phase := rfl
@[simp] theorem Framer.send_chain (bs : List Byte) (f : Framer) : (f.send bs).chain = f.chain := rfl
@[simp] theorem Framer.send_forceOp (bs : List Byte) (f : Framer) : (f.send bs).forceOp = f.forceOp := rfl
@[simp] theorem Framer.send_cmd (bs : List Byte) (f : Framer) : (f.send bs).cmd = f.cmd := rfl
@[simp] theorem Framer.send_bps (bs : List Byte) (f : Framer) : (f.send bs).bps = f.bps := rfl
@[simp] theorem Framer.send_psn (bs : List Byte) (f : Framer) : (f.send bs).psn = f.psn := rfl
@[simp] theorem Framer.send_lsn (bs : List Byte) (f : Framer) : (f.send bs).lsn = f.lsn := rfl
@[simp] theorem Framer.send_reqLen (bs : List Byte) (f : Framer) : (f.send bs).reqLen = f.reqLen := rfl
@[simp] theorem Framer.send_reqRemain (bs : List Byte) (f : Framer) : (f.send bs).reqRemain = f.reqRemain := rfl
@[simp] theorem Framer.send_ckAcc (bs : List Byte) (f : Framer) : (f.send bs).ckAcc = f.ckAcc := rfl
@[simp] theorem Framer.send_toks (bs : List Byte) (f : Framer) : (f.send bs).toks = f.toks := rfl
@[simp] theorem Framer.send_cur (bs : List Byte) (f : Framer) : (f.send bs).cur = f.cur := rfl
@[simp] theorem Framer.send_buf (bs : List Byte) (f : Framer) : (f.send bs).buf = f.buf := rfl
@[simp] theorem Framer.send_bufCount (bs : List Byte) (f : Framer) : (f.send bs).bufCount = f.bufCount := rfl
@[simp] theorem Framer.send_lastTrack (bs : List Byte) (f : Framer) : (f.send bs).lastTrack = f.lastTrack := rfl
@[simp] theorem Framer.send_fault (bs : List Byte) (f : Framer) : (f.send bs).fault = f.fault := rfl
@[simp] theorem Framer.send_data (bs : List Byte) (f : Framer) : (f.send bs).data = f.data := rfl
@[simp] theorem Framer.send_ids (bs : List Byte) (f : Framer) : (f.send bs).ids = f.ids := rfl
@[simp] theorem Framer.send_rx (bs : List Byte) (f : Framer) : (f.send bs).rx = f.rx := rfl
@[simp] theorem Framer.send_out (bs : List Byte) (f : Framer) : (f.send bs).out = f.out ++ bs.map .tx := rfl
@[simp] theorem Framer.send_log (bs : List Byte) (f : Framer) : (f.send bs).log = f.log := rfl

/-! ### Framer.emit -/

@[simp] theorem Framer.emit_mode (e : Event) (f : Framer) : (f.emit e).mode = f.mode := rfl
@[simp] theorem Framer.emit_phase (e : Event) (f : Framer) : (f.emit e).phase = f.phase := rfl
@[simp] theorem Framer.emit_chain (e : Event) (f : Framer) : (f.emit e).chain = f.chain := rfl
@[simp] theorem Framer.emit_forceOp (e : Event) (f : Framer) : (f.emit e).forceOp = f.forceOp := rfl
@[simp] theorem Framer.emit_cmd (e : Event) (f : Framer) : (f.emit e).cmd = f.cmd := rfl
@[simp] theorem Framer.emit_bps (e : Event) (f : Framer) : (f.emit e).bps = f.bps := rfl
@[simp] theorem Framer.emit_psn (e : Event) (f : Framer) : (f.emit e).psn = f.psn := rfl
@[simp] theorem Framer.emit_lsn (e : Event) (f : Framer) : (f.emit e).lsn = f.lsn := rfl
@[simp] theorem Framer.emit_reqLen (e : Event) (f : Framer) : (f.emit e).reqLen = f.reqLen := rfl
@[simp] theorem Framer.emit_reqRemain (e : Event) (f : Framer) : (f.emit e).reqRemain = f.reqRemain := rfl
@[simp] theorem Framer.emit_ckAcc (e : Event) (f : Framer) : (f.emit e).ckAcc = f.ckAcc := rfl
@[simp] theorem Framer.emit_toks (e : Event) (f : Framer) : (f.emit e).toks = f.toks := rfl
@[simp] theorem Framer.emit_cur (e : Event) (f : Framer) : (f.emit e).cur = f.cur := rfl
@[simp] theorem Framer.emit_buf (e : Event) (f : Framer) : (f.emit e).buf = f.buf := rfl
@[simp] theorem Framer.emit_bufCount (e : Event) (f : Framer) : (f.emit e).bufCount = f.bufCount := rfl
@[simp] theorem Framer.emit_lastTrack (e : Event) (f : Framer) : (f.emit e).lastTrack = f.lastTrack := rfl
@[simp] theorem Framer.emit_fault (e : Event) (f : Framer) : (f.emit e).fault = f.fault := rfl
@[simp] theorem Framer.emit_data (e : Event) (f : Framer) : (f.emit e).data = f.data := rfl
@[simp] theorem Framer.emit_ids (e : Event) (f : Framer) : (f.emit e).ids = f.ids := rfl
@[simp] theorem Framer.emit_rx (e : Event) (f : Framer) : (f.emit e).rx = f.rx := rfl
@[simp] theorem Framer.emit_out (e : Event) (f : Framer) : (f.emit e).out = f.out ++ [.event e] := rfl
@[simp] theorem Framer.emit_log (e : Event) (f : Framer) : (f.emit e).log = f.log := rfl

/-! ### Framer.withRx -/

@[simp] theorem Framer.withRx_mode (rest : List Byte) (f : Framer) : (f.withRx rest).mode = f.mode := rfl
@[simp] theorem Framer.withRx_phase (rest : List Byte) (f : Framer) : (f.withRx rest).phase = f.phase := rfl
@[simp] theorem Framer.withRx_chain (rest : List Byte) (f : Framer) : (f.withRx rest).chain = f.chain := rfl
@[simp] theorem Framer.withRx_forceOp (rest : List Byte) (f : Framer) : (f.withRx rest).forceOp = f.forceOp := rfl
@[simp] theorem Framer.withRx_cmd (rest : List Byte) (f : Framer) : (f.withRx rest).cmd = f.cmd := rfl
@[simp] theorem Framer.withRx_bps (rest : List Byte) (f : Framer) : (f.withRx rest).bps = f.bps := rfl
@[simp] theorem Framer.withRx_psn (rest : List Byte) (f : Framer) : (f.withRx rest).psn = f.psn := rfl
@[simp] theorem Framer.withRx_lsn (rest : List Byte) (f : Framer) : (f.withRx rest).lsn = f.lsn := rfl
@[simp] theorem Framer.withRx_reqLen (rest : List Byte) (f : Framer) : (f.withRx rest).reqLen = f.reqLen := rfl
@[simp] theorem Framer.withRx_reqRemain (rest : List Byte) (f : Framer) : (f.withRx rest).reqRemain = f.reqRemain := rfl
@[simp] theorem Framer.withRx_ckAcc (rest : List Byte) (f : Framer) : (f.withRx rest).ckAcc = f.ckAcc := rfl
@[simp] theorem Framer.withRx_toks (rest : List Byte) (f : Framer) : (f.withRx rest).toks = f.toks := rfl
@[simp] theorem Framer.withRx_cur (rest : List Byte) (f : Framer) : (f.withRx rest).cur = f.cur := rfl
@[simp] theorem Framer.withRx_buf (rest : List Byte) (f : Framer) : (f.withRx rest).buf = f.buf := rfl
@[simp] theorem Framer.withRx_bufCount (rest : List Byte) (f : Framer) : (f.withRx rest).bufCount = f.bufCount := rfl
@[simp] theorem Framer.withRx_lastTrack (rest : List Byte) (f : Framer) : (f.withRx rest).lastTrack = f.lastTrack := rfl
@[simp] theorem Framer.withRx_fault (rest : List Byte) (f : Framer) : (f.withRx rest).fault = f.fault := rfl
@[simp] theorem Framer.withRx_data (rest : List Byte) (f : Framer) : (f.withRx rest).data = f.data := rfl
@[simp] theorem Framer.withRx_ids (rest : List Byte) (f : Framer) : (f.withRx rest).ids = f.ids := rfl
@[simp] theorem Framer.withRx_rx (rest : List Byte) (f : Framer) : (f.withRx rest).rx = rest := rfl
@[simp] theorem Framer.withRx_out (rest : List Byte) (f : Framer) : (f.withRx rest).out = f.out := rfl
@[simp] theorem Framer.withRx_log (rest : List Byte) (f : Framer) : (f.withRx rest).log = f.log := rfl

/-! ### Framer.note -/

@[simp] theorem Framer.note_mode (r : LogRecord) (f : Framer) : (f.note r).mode = f.mode := rfl
@[simp] theorem Framer.note_phase (r : LogRecord) (f : Framer) : (f.note r).phase = f.phase := rfl
@[simp] theorem Framer.note_chain (r : LogRecord) (f : Framer) : (f.note r).chain = f.chain := rfl
@[simp] theorem Framer.note_forceOp (r : LogRecord) (f : Framer) : (f.note r).forceOp = f.forceOp := rfl
@[simp] theorem Framer.note_cmd (r : LogRecord) (f : Framer) : (f.note r).cmd = f.cmd := rfl
@[simp] theorem Framer.note_bps (r : LogRecord) (f : Framer) : (f.note r).bps = f.bps := rfl
@[simp] theorem Framer.note_psn (r : LogRecord) (f : Framer) : (f.note r).psn = f.psn := rfl
@[simp] theorem Framer.note_lsn (r : LogRecord) (f : Framer) : (f.note r).lsn = f.lsn := rfl
@[simp] theorem Framer.note_reqLen (r : LogRecord) (f : Framer) : (f.note r).reqLen = f.reqLen := rfl
@[simp] theorem Framer.note_reqRemain (r : LogRecord) (f : Framer) : (f.note r).reqRemain = f.reqRemain := rfl
@[simp] theorem Framer.note_ckAcc (r : LogRecord) (f : Framer) : (f.note r).ckAcc = f.ckAcc := rfl
@[simp] theorem Framer.note_toks (r : LogRecord) (f : Framer) : (f.note r).toks = f.toks := rfl
@[simp] theorem Framer.note_cur (r : LogRecord) (f : Framer) : (f.note r).cur = f.cur := rfl
@[simp] theorem Framer.note_buf (r : LogRecord) (f : Framer) : (f.note r).buf = f.buf := rfl
@[simp] theorem Framer.note_bufCount (r : LogRecord) (f : Framer) : (f.note r).bufCount = f.bufCount := rfl
@[simp] theorem Framer.note_lastTrack (r : LogRecord) (f : Framer) : (f.note r).lastTrack = f.lastTrack := rfl
@[simp] theorem Framer.note_fault (r : LogRecord) (f : Framer) : (f.note r).fault = f.fault := rfl
@[simp] theorem Framer.note_data (r : LogRecord) (f : Framer) : (f.note r).data = f.data := rfl
@[simp] theorem Framer.note_ids (r : LogRecord) (f : Framer) : (f.note r).ids = f.ids := rfl
@[simp] theorem Framer.note_rx (r : LogRecord) (f : Framer) : (f.note r).rx = f.rx := rfl
@[simp] theorem Framer.note_out (r : LogRecord) (f : Framer) : (f.note r).out = f.out := rfl
@[simp] theorem Framer.note_log (r : LogRecord) (f : Framer) : (f.note r).log = f.log ++ [r] := rfl

/-! ### Framer.halt -/

@[simp] theorem Framer.halt_mode (c : Cause) (f : Framer) : (f.halt c).mode = f.mode := rfl
@[simp] theorem Framer.halt_phase (c : Cause) (f : Framer) : (f.halt c).phase = .halt := rfl
@[simp] theorem Framer.halt_chain (c : Cause) (f : Framer) : (f.halt c).chain = f.chain := rfl
@[simp] theorem Framer.halt_forceOp (c : Cause) (f : Framer) : (f.halt c).forceOp = f.forceOp := rfl
@[simp] theorem Framer.halt_cmd (c : Cause) (f : Framer) : (f.halt c).cmd = f.cmd := rfl
@[simp] theorem Framer.halt_bps (c : Cause) (f : Framer) : (f.halt c).bps = f.bps := rfl
@[simp] theorem Framer.halt_psn (c : Cause) (f : Framer) : (f.halt c).psn = f.psn := rfl
@[simp] theorem Framer.halt_lsn (c : Cause) (f : Framer) : (f.halt c).lsn = f.lsn := rfl
@[simp] theorem Framer.halt_reqLen (c : Cause) (f : Framer) : (f.halt c).reqLen = f.reqLen := rfl
@[simp] theorem Framer.halt_reqRemain (c : Cause) (f : Framer) : (f.halt c).reqRemain = f.reqRemain := rfl
@[simp] theorem Framer.halt_ckAcc (c : Cause) (f : Framer) : (f.halt c).ckAcc = f.ckAcc := rfl
@[simp] theorem Framer.halt_toks (c : Cause) (f : Framer) : (f.halt c).toks = f.toks := rfl
@[simp] theorem Framer.halt_cur (c : Cause) (f : Framer) : (f.halt c).cur = f.cur := rfl
@[simp] theorem Framer.halt_buf (c : Cause) (f : Framer) : (f.halt c).buf = f.buf := rfl
@[simp] theorem Framer.halt_bufCount (c : Cause) (f : Framer) : (f.halt c).bufCount = f.bufCount := rfl
@[simp] theorem Framer.halt_lastTrack (c : Cause) (f : Framer) : (f.halt c).lastTrack = f.lastTrack := rfl
@[simp] theorem Framer.halt_fault (c : Cause) (f : Framer) : (f.halt c).fault = c := rfl
@[simp] theorem Framer.halt_data (c : Cause) (f : Framer) : (f.halt c).data = f.data := rfl
@[simp] theorem Framer.halt_ids (c : Cause) (f : Framer) : (f.halt c).ids = f.ids := rfl
@[simp] theorem Framer.halt_rx (c : Cause) (f : Framer) : (f.halt c).rx = f.rx := rfl
@[simp] theorem Framer.halt_out (c : Cause) (f : Framer) : (f.halt c).out = f.out := rfl
@[simp] theorem Framer.halt_log (c : Cause) (f : Framer) : (f.halt c).log = f.log := rfl

/-! ### Framer.chainNext -/

@[simp] theorem Framer.chainNext_mode (b : Bool) (f : Framer) : (f.chainNext b).mode = f.mode := rfl
@[simp] theorem Framer.chainNext_phase (b : Bool) (f : Framer) : (f.chainNext b).phase = .cmd := rfl
@[simp] theorem Framer.chainNext_chain (b : Bool) (f : Framer) : (f.chainNext b).chain = true := rfl
@[simp] theorem Framer.chainNext_forceOp (b : Bool) (f : Framer) : (f.chainNext b).forceOp = (f.forceOp || b) := rfl
@[simp] theorem Framer.chainNext_cmd (b : Bool) (f : Framer) : (f.chainNext b).cmd = f.cmd := rfl
@[simp] theorem Framer.chainNext_bps (b : Bool) (f : Framer) : (f.chainNext b).bps = f.bps := rfl
@[simp] theorem Framer.chainNext_psn (b : Bool) (f : Framer) : (f.chainNext b).psn = f.psn := rfl
@[simp] theorem Framer.chainNext_lsn (b : Bool) (f : Framer) : (f.chainNext b).lsn = f.lsn := rfl
@[simp] theorem Framer.chainNext_reqLen (b : Bool) (f : Framer) : (f.chainNext b).reqLen = f.reqLen := rfl
@[simp] theorem Framer.chainNext_reqRemain (b : Bool) (f : Framer) : (f.chainNext b).reqRemain = f.reqRemain := rfl
@[simp] theorem Framer.chainNext_ckAcc (b : Bool) (f : Framer) : (f.chainNext b).ckAcc = f.ckAcc := rfl
@[simp] theorem Framer.chainNext_toks (b : Bool) (f : Framer) : (f.chainNext b).toks = f.toks := rfl
@[simp] theorem Framer.chainNext_cur (b : Bool) (f : Framer) : (f.chainNext b).cur = f.cur := rfl
@[simp] theorem Framer.chainNext_buf (b : Bool) (f : Framer) : (f.chainNext b).buf = f.buf := rfl
@[simp] theorem Framer.chainNext_bufCount (b : Bool) (f : Framer) : (f.chainNext b).bufCount = f.bufCount := rfl
@[simp] theorem Framer.chainNext_lastTrack (b : Bool) (f : Framer) : (f.chainNext b).lastTrack = f.lastTrack := rfl
@[simp] theorem Framer.chainNext_fault (b : Bool) (f : Framer) : (f.chainNext b).fault = f.fault := rfl
@[simp] theorem Framer.chainNext_data (b : Bool) (f : Framer) : (f.chainNext b).data = f.data := rfl
@[simp] theorem Framer.chainNext_ids (b : Bool) (f : Framer) : (f.chainNext b).ids = f.ids := rfl
@[simp] theorem Framer.chainNext_rx (b : Bool) (f : Framer) : (f.chainNext b).rx = f.rx := rfl
@[simp] theorem Framer.chainNext_out (b : Bool) (f : Framer) : (f.chainNext b).out = f.out := rfl
@[simp] theorem Framer.chainNext_log (b : Bool) (f : Framer) : (f.chainNext b).log = f.log := rfl

/-! ### Framer.storageFail -/

@[simp] theorem Framer.storageFail_mode (f : Framer) : (f.storageFail).mode = f.mode := rfl
@[simp] theorem Framer.storageFail_phase (f : Framer) : (f.storageFail).phase = .halt := rfl
@[simp] theorem Framer.storageFail_chain (f : Framer) : (f.storageFail).chain = f.chain := rfl
@[simp] theorem Framer.storageFail_forceOp (f : Framer) : (f.storageFail).forceOp = f.forceOp := rfl
@[simp] theorem Framer.storageFail_cmd (f : Framer) : (f.storageFail).cmd = f.cmd := rfl
@[simp] theorem Framer.storageFail_bps (f : Framer) : (f.storageFail).bps = f.bps := rfl
@[simp] theorem Framer.storageFail_psn (f : Framer) : (f.storageFail).psn = f.psn := rfl
@[simp] theorem Framer.storageFail_lsn (f : Framer) : (f.storageFail).lsn = f.lsn := rfl
@[simp] theorem Framer.storageFail_reqLen (f : Framer) : (f.storageFail).reqLen = f.reqLen := rfl
@[simp] theorem Framer.storageFail_reqRemain (f : Framer) : (f.storageFail).reqRemain = f.reqRemain := rfl
@[simp] theorem Framer.storageFail_ckAcc (f : Framer) : (f.storageFail).ckAcc = f.ckAcc := rfl
@[simp] theorem Framer.storageFail_toks (f : Framer) : (f.storageFail).toks = f.toks := rfl
@[simp] theorem Framer.storageFail_cur (f : Framer) : (f.storageFail).cur = f.cur := rfl
@[simp] theorem Framer.storageFail_buf (f : Framer) : (f.storageFail).buf = f.buf := rfl
@[simp] theorem Framer.storageFail_bufCount (f : Framer) : (f.storageFail).bufCount = f.bufCount := rfl
@[simp] theorem Framer.storageFail_lastTrack (f : Framer) : (f.storageFail).lastTrack = f.lastTrack := rfl
@[simp] theorem Framer.storageFail_fault (f : Framer) : (f.storageFail).fault = .storageRange := rfl
@[simp] theorem Framer.storageFail_data (f : Framer) : (f.storageFail).data = f.data := rfl
@[simp] theorem Framer.storageFail_ids (f : Framer) : (f.storageFail).ids = f.ids := rfl
@[simp] theorem Framer.storageFail_rx (f : Framer) : (f.storageFail).rx = f.rx := rfl
@[simp] theorem Framer.storageFail_out (f : Framer) : (f.storageFail).out = f.out ++ wordStorageError.map .tx := rfl
@[simp] theorem Framer.storageFail_log (f : Framer) : (f.storageFail).log = f.log := rfl

/-! ### Framer.startCommand -/

@[simp] theorem Framer.startCommand_mode (c : Byte) (f : Framer) : (f.startCommand c).mode = f.mode := rfl
@[simp] theorem Framer.startCommand_phase (c : Byte) (f : Framer) : (f.startCommand c).phase = .parm := rfl
@[simp] theorem Framer.startCommand_chain (c : Byte) (f : Framer) : (f.startCommand c).chain = f.chain := rfl
@[simp] theorem Framer.startCommand_forceOp (c : Byte) (f : Framer) : (f.startCommand c).forceOp = f.forceOp := rfl
@[simp] theorem Framer.startCommand_cmd (c : Byte) (f : Framer) : (f.startCommand c).cmd = c := rfl
@[simp] theorem Framer.startCommand_bps (c : Byte) (f : Framer) : (f.startCommand c).bps = f.bps := rfl
@[simp] theorem Framer.startCommand_psn (c : Byte) (f : Framer) : (f.startCommand c).psn = f.psn := rfl
@[simp] theorem Framer.startCommand_lsn (c : Byte) (f : Framer) : (f.startCommand c).lsn = f.lsn := rfl
@[simp] theorem Framer.startCommand_reqLen (c : Byte) (f : Framer) : (f.startCommand c).reqLen = f.reqLen := rfl
@[simp] theorem Framer.startCommand_reqRemain (c : Byte) (f : Framer) : (f.startCommand c).reqRemain = f.reqRemain := rfl
@[simp] theorem Framer.startCommand_ckAcc (c : Byte) (f : Framer) : (f.startCommand c).ckAcc = f.ckAcc := rfl
@[simp] theorem Framer.startCommand_toks (c : Byte) (f : Framer) : (f.startCommand c).toks = [] := rfl
@[simp] theorem Framer.startCommand_cur (c : Byte) (f : Framer) : (f.startCommand c).cur = none := rfl
@[simp] theorem Framer.startCommand_buf (c : Byte) (f : Framer) : (f.startCommand c).buf = f.buf := rfl
@[simp] theorem Framer.startCommand_bufCount (c : Byte) (f : Framer) : (f.startCommand c).bufCount = f.bufCount := rfl
@[simp] theorem Framer.startCommand_lastTrack (c : Byte) (f : Framer) : (f.startCommand c).lastTrack = f.lastTrack := rfl
@[simp] theorem Framer.startCommand_fault (c : Byte) (f : Framer) : (f.startCommand c).fault = f.fault := rfl
@[simp] theorem Framer.startCommand_data (c : Byte) (f : Framer) : (f.startCommand c).data = f.data := rfl
@[simp] theorem Framer.startCommand_ids (c : Byte) (f : Framer) : (f.startCommand c).ids = f.ids := rfl
@[simp] theorem Framer.startCommand_rx (c : Byte) (f : Framer) : (f.startCommand c).rx = f.rx := rfl
@[simp] theorem Framer.startCommand_out (c : Byte) (f : Framer) : (f.startCommand c).out = f.out := rfl
@[simp] theorem Framer.startCommand_log (c : Byte) (f : Framer) : (f.startCommand c).log = f.log := rfl

/-! ### Framer.takeItem -/

@[simp] theorem Framer.takeItem_mode (f : Framer) (it : ParmItem) : (f.takeItem it).mode = f.mode := rfl
@[simp] theorem Framer.takeItem_phase (f : Framer) (it : ParmItem) : (f.takeItem it).phase = f.phase := rfl
@[simp] theorem Framer.takeItem_chain (f : Framer) (it : ParmItem) : (f.takeItem it).chain = f.chain := rfl
@[simp] theorem Framer.takeItem_forceOp (f : Framer) (it : ParmItem) : (f.takeItem it).forceOp = f.forceOp := rfl
@[simp] theorem Framer.takeItem_cmd (f : Framer) (it : ParmItem) : (f.takeItem it).cmd = f.cmd := rfl
@[simp] theorem Framer.takeItem_bps (f : Framer) (it : ParmItem) : (f.takeItem it).bps = f.bps := rfl
@[simp] theorem Framer.takeItem_psn (f : Framer) (it : ParmItem) : (f.takeItem it).psn = f.psn := rfl
@[simp] theorem Framer.takeItem_lsn (f : Framer) (it : ParmItem) : (f.takeItem it).lsn = f.lsn := rfl
@[simp] theorem Framer.takeItem_reqLen (f : Framer) (it : ParmItem) : (f.takeItem it).reqLen = f.reqLen := rfl
@[simp] theorem Framer.takeItem_reqRemain (f : Framer) (it : ParmItem) : (f.takeItem it).reqRemain = f.reqRemain := rfl
@[simp] theorem Framer.takeItem_ckAcc (f : Framer) (it : ParmItem) : (f.takeItem it).ckAcc = f.ckAcc := rfl
@[simp] theorem Framer.takeItem_toks (f : Framer) (it : ParmItem) : (f.takeItem it).toks = (scanItem (f.toks, f.cur) it).1 := rfl
@[simp] theorem Framer.takeItem_cur (f : Framer) (it : ParmItem) : (f.takeItem it).cur = (scanItem (f.toks, f.cur) it).2 := rfl
@[simp] theorem Framer.takeItem_buf (f : Framer) (it : ParmItem) : (f.takeItem it).buf = f.buf := rfl
@[simp] theorem Framer.takeItem_bufCount (f : Framer) (it : ParmItem) : (f.takeItem it).bufCount = f.bufCount := rfl
@[simp] theorem Framer.takeItem_lastTrack (f : Framer) (it : ParmItem) : (f.takeItem it).lastTrack = f.lastTrack := rfl
@[simp] theorem Framer.takeItem_fault (f : Framer) (it : ParmItem) : (f.takeItem it).fault = f.fault := rfl
@[simp] theorem Framer.takeItem_data (f : Framer) (it : ParmItem) : (f.takeItem it).data = f.data := rfl
@[simp] theorem Framer.takeItem_ids (f : Framer) (it : ParmItem) : (f.takeItem it).ids = f.ids := rfl
@[simp] theorem Framer.takeItem_rx (f : Framer) (it : ParmItem) : (f.takeItem it).rx = f.rx := rfl
@[simp] theorem Framer.takeItem_out (f : Framer) (it : ParmItem) : (f.takeItem it).out = f.out := rfl
@[simp] theorem Framer.takeItem_log (f : Framer) (it : ParmItem) : (f.takeItem it).log = f.log := rfl

/-! ### Framer.awaitGate -/

@[simp] theorem Framer.awaitGate_mode (f : Framer) : (f.awaitGate).mode = f.mode := rfl
@[simp] theorem Framer.awaitGate_phase (f : Framer) : (f.awaitGate).phase = .gate := rfl
@[simp] theorem Framer.awaitGate_chain (f : Framer) : (f.awaitGate).chain = f.chain := rfl
@[simp] theorem Framer.awaitGate_forceOp (f : Framer) : (f.awaitGate).forceOp = f.forceOp := rfl
@[simp] theorem Framer.awaitGate_cmd (f : Framer) : (f.awaitGate).cmd = f.cmd := rfl
@[simp] theorem Framer.awaitGate_bps (f : Framer) : (f.awaitGate).bps = f.bps := rfl
@[simp] theorem Framer.awaitGate_psn (f : Framer) : (f.awaitGate).psn = f.psn := rfl
@[simp] theorem Framer.awaitGate_lsn (f : Framer) : (f.awaitGate).lsn = f.lsn := rfl
@[simp] theorem Framer.awaitGate_reqLen (f : Framer) : (f.awaitGate).reqLen = f.reqLen := rfl
@[simp] theorem Framer.awaitGate_reqRemain (f : Framer) : (f.awaitGate).reqRemain = f.reqRemain := rfl
@[simp] theorem Framer.awaitGate_ckAcc (f : Framer) : (f.awaitGate).ckAcc = f.ckAcc := rfl
@[simp] theorem Framer.awaitGate_toks (f : Framer) : (f.awaitGate).toks = f.toks := rfl
@[simp] theorem Framer.awaitGate_cur (f : Framer) : (f.awaitGate).cur = f.cur := rfl
@[simp] theorem Framer.awaitGate_buf (f : Framer) : (f.awaitGate).buf = f.buf := rfl
@[simp] theorem Framer.awaitGate_bufCount (f : Framer) : (f.awaitGate).bufCount = f.bufCount := rfl
@[simp] theorem Framer.awaitGate_lastTrack (f : Framer) : (f.awaitGate).lastTrack = f.lastTrack := rfl
@[simp] theorem Framer.awaitGate_fault (f : Framer) : (f.awaitGate).fault = f.fault := rfl
@[simp] theorem Framer.awaitGate_data (f : Framer) : (f.awaitGate).data = f.data := rfl
@[simp] theorem Framer.awaitGate_ids (f : Framer) : (f.awaitGate).ids = f.ids := rfl
@[simp] theorem Framer.awaitGate_rx (f : Framer) : (f.awaitGate).rx = f.rx := rfl
@[simp] theorem Framer.awaitGate_out (f : Framer) : (f.awaitGate).out = f.out ++ (statusPsn f.psn).map .tx := rfl
@[simp] theorem Framer.awaitGate_log (f : Framer) : (f.awaitGate).log = f.log := rfl

/-! ### Framer.awaitPayload -/

@[simp] theorem Framer.awaitPayload_mode (ph : Phase) (f : Framer) : (f.awaitPayload ph).mode = f.mode := rfl
@[simp] theorem Framer.awaitPayload_phase (ph : Phase) (f : Framer) : (f.awaitPayload ph).phase = ph := rfl
@[simp] theorem Framer.awaitPayload_chain (ph : Phase) (f : Framer) : (f.awaitPayload ph).chain = f.chain := rfl
@[simp] theorem Framer.awaitPayload_forceOp (ph : Phase) (f : Framer) : (f.awaitPayload ph).forceOp = f.forceOp := rfl
@[simp] theorem Framer.awaitPayload_cmd (ph : Phase) (f : Framer) : (f.awaitPayload ph).cmd = f.cmd := rfl
@[simp] theorem Framer.awaitPayload_bps (ph : Phase) (f : Framer) : (f.awaitPayload ph).bps = f.bps := rfl
@[simp] theorem Framer.awaitPayload_psn (ph : Phase) (f : Framer) : (f.awaitPayload ph).psn = f.psn := rfl
@[simp] theorem Framer.awaitPayload_lsn (ph : Phase) (f : Framer) : (f.awaitPayload ph).lsn = f.lsn := rfl
@[simp] theorem Framer.awaitPayload_reqLen (ph : Phase) (f : Framer) : (f.awaitPayload ph).reqLen = f.reqLen := rfl
@[simp] theorem Framer.awaitPayload_reqRemain (ph : Phase) (f : Framer) : (f.awaitPayload ph).reqRemain = f.reqRemain := rfl
@[simp] theorem Framer.awaitPayload_ckAcc (ph : Phase) (f : Framer) : (f.awaitPayload ph).ckAcc = f.ckAcc := rfl
@[simp] theorem Framer.awaitPayload_toks (ph : Phase) (f : Framer) : (f.awaitPayload ph).toks = f.toks := rfl
@[simp] theorem Framer.awaitPayload_cur (ph : Phase) (f : Framer) : (f.awaitPayload ph).cur = f.cur := rfl
@[simp] theorem Framer.awaitPayload_buf (ph : Phase) (f : Framer) : (f.awaitPayload ph).buf = [] := rfl
@[simp] theorem Framer.awaitPayload_bufCount (ph : Phase) (f : Framer) : (f.awaitPayload ph).bufCount = 0 := rfl
@[simp] theorem Framer.awaitPayload_lastTrack (ph : Phase) (f : Framer) : (f.awaitPayload ph).lastTrack = f.lastTrack := rfl
@[simp] theorem Framer.awaitPayload_fault (ph : Phase) (f : Framer) : (f.awaitPayload ph).fault = f.fault := rfl
@[simp] theorem Framer.awaitPayload_data (ph : Phase) (f : Framer) : (f.awaitPayload ph).data = f.data := rfl
@[simp] theorem Framer.awaitPayload_ids (ph : Phase) (f : Framer) : (f.awaitPayload ph).ids = f.ids := rfl
@[simp] theorem Framer.awaitPayload_rx (ph : Phase) (f : Framer) : (f.awaitPayload ph).rx = f.rx := rfl
@[simp] theorem Framer.awaitPayload_out (ph : Phase) (f : Framer) : (f.awaitPayload ph).out = f.out ++ (statusPsn f.psn).map .tx := rfl
@[simp] theorem Framer.awaitPayload_log (ph : Phase) (f : Framer) : (f.awaitPayload ph).log = f.log := rfl

/-! ### Framer.receive -/

@[simp] theorem Framer.receive_mode (bs : List Byte) (f : Framer) : (f.receive bs).mode = f.mode := rfl
@[simp] theorem Framer.receive_phase (bs : List Byte) (f : Framer) : (f.receive bs).phase = f.phase := rfl
@[simp] theorem Framer.receive_chain (bs : List Byte) (f : Framer) : (f.receive bs).chain = f.chain := rfl
@[simp] theorem Framer.receive_forceOp (bs : List Byte) (f : Framer) : (f.receive bs).forceOp = f.forceOp := rfl
@[simp] theorem Framer.receive_cmd (bs : List Byte) (f : Framer) : (f.receive bs).cmd = f.cmd := rfl
@[simp] theorem Framer.receive_bps (bs : List Byte) (f : Framer) : (f.receive bs).bps = f.bps := rfl
@[simp] theorem Framer.receive_psn (bs : List Byte) (f : Framer) : (f.receive bs).psn = f.psn := rfl
@[simp] theorem Framer.receive_lsn (bs : List Byte) (f : Framer) : (f.receive bs).lsn = f.lsn := rfl
@[simp] theorem Framer.receive_reqLen (bs : List Byte) (f : Framer) : (f.receive bs).reqLen = f.reqLen := rfl
@[simp] theorem Framer.receive_reqRemain (bs : List Byte) (f : Framer) : (f.receive bs).reqRemain = f.reqRemain := rfl
@[simp] theorem Framer.receive_ckAcc (bs : List Byte) (f : Framer) : (f.receive bs).ckAcc = f.ckAcc := rfl
@[simp] theorem Framer.receive_toks (bs : List Byte) (f : Framer) : (f.receive bs).toks = f.toks := rfl
@[simp] theorem Framer.receive_cur (bs : List Byte) (f : Framer) : (f.receive bs).cur = f.cur := rfl
@[simp] theorem Framer.receive_buf (bs : List Byte) (f : Framer) : (f.receive bs).buf = f.buf ++ bs := rfl
@[simp] theorem Framer.receive_bufCount (bs : List Byte) (f : Framer) : (f.receive bs).bufCount = f.bufCount + bs.length := rfl
@[simp] theorem Framer.receive_lastTrack (bs : List Byte) (f : Framer) : (f.receive bs).lastTrack = f.lastTrack := rfl
@[simp] theorem Framer.receive_fault (bs : List Byte) (f : Framer) : (f.receive bs).fault = f.fault := rfl
@[simp] theorem Framer.receive_data (bs : List Byte) (f : Framer) : (f.receive bs).data = f.data := rfl
@[simp] theorem Framer.receive_ids (bs : List Byte) (f : Framer) : (f.receive bs).ids = f.ids := rfl
@[simp] theorem Framer.receive_rx (bs : List Byte) (f : Framer) : (f.receive bs).rx = f.rx := rfl
@[simp] theorem Framer.receive_out (bs : List Byte) (f : Framer) : (f.receive bs).out = f.out := rfl
@[simp] theorem Framer.receive_log (bs : List Byte) (f : Framer) : (f.receive bs).log = f.log := rfl

/-! ### Framer.formatAll -/

@[simp] theorem Framer.formatAll_mode (f : Framer) : (f.formatAll).mode = f.mode := rfl
@[simp] theorem Framer.formatAll_phase (f : Framer) : (f.formatAll).phase = f.phase := rfl
@[simp] theorem Framer.formatAll_chain (f : Framer) : (f.formatAll).chain = f.chain := rfl
@[simp] theorem Framer.formatAll_forceOp (f : Framer) : (f.formatAll).forceOp = f.forceOp := rfl
@[simp] theorem Framer.formatAll_cmd (f : Framer) : (f.formatAll).cmd = f.cmd := rfl
@[simp] theorem Framer.formatAll_bps (f : Framer) : (f.formatAll).bps = f.bps := rfl
@[simp] theorem Framer.formatAll_psn (f : Framer) : (f.formatAll).psn = f.psn := rfl
@[simp] theorem Framer.formatAll_lsn (f : Framer) : (f.formatAll).lsn = f.lsn := rfl
@[simp] theorem Framer.formatAll_reqLen (f : Framer) : (f.formatAll).reqLen = f.reqLen := rfl
@[simp] theorem Framer.formatAll_reqRemain (f : Framer) : (f.formatAll).reqRemain = f.reqRemain := rfl
@[simp] theorem Framer.formatAll_ckAcc (f : Framer) : (f.formatAll).ckAcc = f.ckAcc := rfl
@[simp] theorem Framer.formatAll_toks (f : Framer) : (f.formatAll).toks = f.toks := rfl
@[simp] theorem Framer.formatAll_cur (f : Framer) : (f.formatAll).cur = f.cur := rfl
@[simp] theorem Framer.formatAll_buf (f : Framer) : (f.formatAll).buf = f.buf := rfl
@[simp] theorem Framer.formatAll_bufCount (f : Framer) : (f.formatAll).bufCount = f.bufCount := rfl
@[simp] theorem Framer.formatAll_lastTrack (f : Framer) : (f.formatAll).lastTrack = f.lastTrack := rfl
@[simp] theorem Framer.formatAll_fault (f : Framer) : (f.formatAll).fault = f.fault := rfl
@[simp] theorem Framer.formatAll_data (f : Framer) : (f.formatAll).data = memZeroRange f.data 0 (nSect * sectBytes) := rfl
@[simp] theorem Framer.formatAll_ids (f : Framer) : (f.formatAll).ids = memZeroRange f.ids 0 (nSect * idBytes) := rfl
@[simp] theorem Framer.formatAll_rx (f : Framer) : (f.formatAll).rx = f.rx := rfl
@[simp] theorem Framer.formatAll_out (f : Framer) : (f.formatAll).out = f.out := rfl
@[simp] theorem Framer.formatAll_log (f : Framer) : (f.formatAll).log = f.log := rfl

/-! ### Framer.applyReset -/

@[simp] theorem Framer.applyReset_mode (c : Config) (f : Framer) : (f.applyReset c).mode = .op := rfl
@[simp] theorem Framer.applyReset_phase (c : Config) (f : Framer) : (f.applyReset c).phase = .hunt := rfl
@[simp] theorem Framer.applyReset_chain (c : Config) (f : Framer) : (f.applyReset c).chain = false := rfl
@[simp] theorem Framer.applyReset_forceOp (c : Config) (f : Framer) : (f.applyReset c).forceOp = false := rfl
@[simp] theorem Framer.applyReset_cmd (c : Config) (f : Framer) : (f.applyReset c).cmd = 0#8 := rfl
@[simp] theorem Framer.applyReset_bps (c : Config) (f : Framer) : (f.applyReset c).bps = 1024 := rfl
@[simp] theorem Framer.applyReset_psn (c : Config) (f : Framer) : (f.applyReset c).psn = 0 := rfl
@[simp] theorem Framer.applyReset_lsn (c : Config) (f : Framer) : (f.applyReset c).lsn = 1 := rfl
@[simp] theorem Framer.applyReset_reqLen (c : Config) (f : Framer) : (f.applyReset c).reqLen = 0#8 := rfl
@[simp] theorem Framer.applyReset_reqRemain (c : Config) (f : Framer) : (f.applyReset c).reqRemain = 0 := rfl
@[simp] theorem Framer.applyReset_ckAcc (c : Config) (f : Framer) : (f.applyReset c).ckAcc = 0#8 := rfl
@[simp] theorem Framer.applyReset_toks (c : Config) (f : Framer) : (f.applyReset c).toks = [] := rfl
@[simp] theorem Framer.applyReset_cur (c : Config) (f : Framer) : (f.applyReset c).cur = none := rfl
@[simp] theorem Framer.applyReset_buf (c : Config) (f : Framer) : (f.applyReset c).buf = [] := rfl
@[simp] theorem Framer.applyReset_bufCount (c : Config) (f : Framer) : (f.applyReset c).bufCount = 0 := rfl
@[simp] theorem Framer.applyReset_lastTrack (c : Config) (f : Framer) : (f.applyReset c).lastTrack = 0 := rfl
@[simp] theorem Framer.applyReset_fault (c : Config) (f : Framer) : (f.applyReset c).fault = .none := rfl
@[simp] theorem Framer.applyReset_data (c : Config) (f : Framer) : (f.applyReset c).data = f.data := rfl
@[simp] theorem Framer.applyReset_ids (c : Config) (f : Framer) : (f.applyReset c).ids = f.ids := rfl
@[simp] theorem Framer.applyReset_rx (c : Config) (f : Framer) : (f.applyReset c).rx = f.rx := rfl
@[simp] theorem Framer.applyReset_out (c : Config) (f : Framer) : (f.applyReset c).out = f.out := rfl
@[simp] theorem Framer.applyReset_log (c : Config) (f : Framer) : (f.applyReset c).log = f.log := rfl

/-! ### Codec.succeed -/

@[simp] theorem Codec.succeed_status (r : Result) (k : Codec) : (k.succeed r).status = .ok := rfl
@[simp] theorem Codec.succeed_result (r : Result) (k : Codec) : (k.succeed r).result = r := rfl
@[simp] theorem Codec.succeed_warn (r : Result) (k : Codec) : (k.succeed r).warn = false := rfl
@[simp] theorem Codec.succeed_blob (r : Result) (k : Codec) : (k.succeed r).blob = k.blob := rfl
@[simp] theorem Codec.succeed_req (r : Result) (k : Codec) : (k.succeed r).req = k.req := rfl
@[simp] theorem Codec.succeed_log (r : Result) (k : Codec) : (k.succeed r).log = k.log := rfl

/-! ### Codec.fail -/

@[simp] theorem Codec.fail_status (st : Status) (k : Codec) : (k.fail st).status = st := rfl
@[simp] theorem Codec.fail_result (st : Status) (k : Codec) : (k.fail st).result = .none := rfl
@[simp] theorem Codec.fail_warn (st : Status) (k : Codec) : (k.fail st).warn = false := rfl
@[simp] theorem Codec.fail_blob (st : Status) (k : Codec) : (k.fail st).blob = k.blob := rfl
@[simp] theorem Codec.fail_req (st : Status) (k : Codec) : (k.fail st).req = k.req := rfl
@[simp] theorem Codec.fail_log (st : Status) (k : Codec) : (k.fail st).log = k.log := rfl

/-! ### Codec.withReq -/

@[simp] theorem Codec.withReq_status (rest : List CodecReq) (k : Codec) : (k.withReq rest).status = k.status := rfl
@[simp] theorem Codec.withReq_result (rest : List CodecReq) (k : Codec) : (k.withReq rest).result = k.result := rfl
@[simp] theorem Codec.withReq_warn (rest : List CodecReq) (k : Codec) : (k.withReq rest).warn = k.warn := rfl
@[simp] theorem Codec.withReq_blob (rest : List CodecReq) (k : Codec) : (k.withReq rest).blob = k.blob := rfl
@[simp] theorem Codec.withReq_req (rest : List CodecReq) (k : Codec) : (k.withReq rest).req = rest := rfl
@[simp] theorem Codec.withReq_log (rest : List CodecReq) (k : Codec) : (k.withReq rest).log = k.log := rfl

/-! ### Codec.load -/

@[simp] theorem Codec.load_status (n : Nat) (bytes : List Byte) (k : Codec) : (k.load n bytes).status = k.status := rfl
@[simp] theorem Codec.load_result (n : Nat) (bytes : List Byte) (k : Codec) : (k.load n bytes).result = k.result := rfl
@[simp] theorem Codec.load_warn (n : Nat) (bytes : List Byte) (k : Codec) : (k.load n bytes).warn = k.warn := rfl
@[simp] theorem Codec.load_blob (n : Nat) (bytes : List Byte) (k : Codec) : (k.load n bytes).blob = memWriteRange k.blob 0 (bytes.take n) := rfl
@[simp] theorem Codec.load_req (n : Nat) (bytes : List Byte) (k : Codec) : (k.load n bytes).req = k.req := rfl
@[simp] theorem Codec.load_log (n : Nat) (bytes : List Byte) (k : Codec) : (k.load n bytes).log = k.log := rfl

/-! ### Codec.commitSpan -/

@[simp] theorem Codec.commitSpan_status (guard n : Nat) (slot : SlotRecord) (grid : Grid) (k : Codec) : (k.commitSpan guard n slot grid).status = .ok := rfl
@[simp] theorem Codec.commitSpan_result (guard n : Nat) (slot : SlotRecord) (grid : Grid) (k : Codec) : (k.commitSpan guard n slot grid).result = .none := rfl
@[simp] theorem Codec.commitSpan_warn (guard n : Nat) (slot : SlotRecord) (grid : Grid) (k : Codec) : (k.commitSpan guard n slot grid).warn = collides guard slot.patternEndOffset := rfl
@[simp] theorem Codec.commitSpan_blob (guard n : Nat) (slot : SlotRecord) (grid : Grid) (k : Codec) : (k.commitSpan guard n slot grid).blob = writeSpan k.blob slot grid := rfl
@[simp] theorem Codec.commitSpan_req (guard n : Nat) (slot : SlotRecord) (grid : Grid) (k : Codec) : (k.commitSpan guard n slot grid).req = k.req := rfl

/-! ### Codec.applyReset -/

@[simp] theorem Codec.applyReset_status (c : Config) (k : Codec) : (k.applyReset c).status = .ok := rfl
@[simp] theorem Codec.applyReset_result (c : Config) (k : Codec) : (k.applyReset c).result = .none := rfl
@[simp] theorem Codec.applyReset_warn (c : Config) (k : Codec) : (k.applyReset c).warn = false := rfl
@[simp] theorem Codec.applyReset_blob (c : Config) (k : Codec) : (k.applyReset c).blob = k.blob := rfl
@[simp] theorem Codec.applyReset_req (c : Config) (k : Codec) : (k.applyReset c).req = k.req := rfl
@[simp] theorem Codec.applyReset_log (c : Config) (k : Codec) : (k.applyReset c).log = k.log := rfl

/-! ### The state -/

@[simp] theorem State.onFramer_cfg (g : Framer → Framer) (s : State) : (s.onFramer g).cfg = s.cfg := rfl
@[simp] theorem State.onFramer_sched (g : Framer → Framer) (s : State) : (s.onFramer g).sched = s.sched := rfl
@[simp] theorem State.onFramer_fr (g : Framer → Framer) (s : State) : (s.onFramer g).fr = g s.fr := rfl
@[simp] theorem State.onFramer_co (g : Framer → Framer) (s : State) : (s.onFramer g).co = s.co := rfl
@[simp] theorem State.onCodec_cfg (g : Codec → Codec) (s : State) : (s.onCodec g).cfg = s.cfg := rfl
@[simp] theorem State.onCodec_sched (g : Codec → Codec) (s : State) : (s.onCodec g).sched = s.sched := rfl
@[simp] theorem State.onCodec_fr (g : Codec → Codec) (s : State) : (s.onCodec g).fr = s.fr := rfl
@[simp] theorem State.onCodec_co (g : Codec → Codec) (s : State) : (s.onCodec g).co = g s.co := rfl
@[simp] theorem State.applyReset_cfg (s : State) : s.applyReset.cfg = s.cfg := rfl
@[simp] theorem State.applyReset_sched (s : State) : s.applyReset.sched = s.sched := rfl
@[simp] theorem State.applyReset_fr (s : State) : s.applyReset.fr = s.fr.applyReset s.cfg := rfl
@[simp] theorem State.applyReset_co (s : State) : s.applyReset.co = s.co.applyReset s.cfg := rfl

end Sys2Proof.Machine
end

