-- ==== Sys2Proof/Laws/Ops.lean ====
section
/-!
SUPPORT. One lemma per shared operation that says once everything it can do.
-/

namespace Sys2Proof.Machine

/-- `EndCommand` as one update: the mode is forced to OP by a chain that holds a format, the chain is over, the phase
follows the mode. -/
theorem Framer.endCommand_eq (f : Framer) :
    f.endCommand =
      { f with
        mode := if f.chain && f.forceOp then .op else f.mode
        phase := if (if f.chain && f.forceOp then Mode.op else f.mode) = .op then .hunt else .cmd
        chain := false
        forceOp := f.forceOp && !f.chain } := by
  obtain ⟨mode, phase, chain, forceOp⟩ := f
  cases chain <;> cases forceOp <;> simp [Framer.endCommand]

/-- The items of a field touch nothing but the parameter accumulator. -/
theorem Framer.takeItems_eq (items : List ParmItem) (f : Framer) :
    f.takeItems items =
      { f with toks := (scanItems items (f.toks, f.cur)).1, cur := (scanItems items (f.toks, f.cur)).2 } := by
  induction items generalizing f with
  | nil => rfl
  | cons it items ih =>
    have := ih (f.takeItem it)
    simp only [Framer.takeItems, List.foldl_cons, scanItems] at this ⊢
    rw [this]
    rfl

/-- Payload bytes of a request: the checksum accumulates, the count falls, the phase is `CKS` once it is spent. -/
theorem payFold_eq (bs : List Byte) (f : Framer) :
    bs.foldl (fun g b => payByte b g) f =
      { f with
        ckAcc := bs.foldl ckAdd f.ckAcc
        reqRemain := f.reqRemain - bs.length
        phase := if bs ≠ [] ∧ f.reqRemain ≤ bs.length then .cks else f.phase } := by
  induction bs generalizing f with
  | nil => simp
  | cons b bs ih =>
    rw [List.foldl_cons, ih]
    simp only [payByte, List.foldl_cons, List.length_cons, Nat.sub_sub, Nat.add_comm 1]
    congr 1
    by_cases h : bs = []
    · subst h
      by_cases h1 : f.reqRemain ≤ 1 <;> simp [h1, Nat.sub_eq_zero_iff_le]
    · have hl : 1 ≤ bs.length := List.length_pos_iff.mpr h
      by_cases h1 : f.reqRemain ≤ bs.length + 1
      · have : f.reqRemain - 1 ≤ bs.length := by omega
        simp [h, h1, this]
      · have h2 : ¬ f.reqRemain - 1 ≤ bs.length := by omega
        have h3 : f.reqRemain - 1 ≠ 0 := by omega
        simp [h1, h2, h3]

/-- Field completion of a command other than F and G: the halt for an unrenderable PSN, or the handler. -/
theorem Framer.closePsn_cases (handler : Framer → Framer) (f : Framer) :
    (psnMaxRender < psnOf f.field ∧ f.closePsn handler =
        { f with psn := psnOf f.field, lsn := lsnOf f.field, fault := .psnUnrenderable, phase := .halt }) ∨
      (psnOf f.field ≤ psnMaxRender ∧
        f.closePsn handler = handler { f with psn := psnOf f.field, lsn := lsnOf f.field }) := by
  by_cases h : psnMaxRender < psnOf f.field
  · exact .inl ⟨h, by simp [Framer.closePsn, Framer.halt, h]⟩
  · exact .inr ⟨Nat.le_of_not_lt h, by simp [Framer.closePsn, h]⟩

/-- A sector write in range: the sector's bytes, and for an odd sector the track and its event. -/
theorem Framer.sectWrite_cases (p : Nat) (d : Bytes 1024) (f : Framer) :
    (nSect ≤ p ∧ f.sectWrite p d = .error (.outOfRange p)) ∨
      (p < nSect ∧ p % 2 = 0 ∧
        f.sectWrite p d = .ok { f with data := memWriteRange f.data (p * sectBytes) d.val }) ∨
      (p < nSect ∧ p % 2 = 1 ∧ ∃ g : Framer, g = { f with data := memWriteRange f.data (p * sectBytes) d.val } ∧
        f.sectWrite p d =
          .ok { g with
            lastTrack := p / 2 + 1
            out := f.out ++ [.event (.trackWritten (p / 2 + 1) ((g.sector (p - 1)).val ++ (g.sector p).val))] }) := by
  by_cases hp : p < nSect
  · by_cases ho : p % 2 = 1
    · exact .inr (.inr ⟨hp, ho, _, rfl, by rw [Framer.sectWrite, if_pos hp, if_pos ho]; rfl⟩)
    · exact .inr (.inl ⟨hp, by omega, by simp [Framer.sectWrite, hp, ho]⟩)
  · exact .inl ⟨Nat.le_of_not_lt hp, by simp [Framer.sectWrite, hp]⟩

/-- An ID write: the sector's ID bytes, or the error. -/
theorem Framer.idWrite_cases (p : Nat) (v : Bytes 12) (f : Framer) :
    (nSect ≤ p ∧ f.idWrite p v = .error (.outOfRange p)) ∨
      (p < nSect ∧ f.idWrite p v = .ok { f with ids := memWriteRange f.ids (p * idBytes) v.val }) := by
  by_cases hp : p < nSect
  · exact .inr ⟨hp, by simp [Framer.idWrite, hp]⟩
  · exact .inl ⟨Nat.le_of_not_lt hp, by simp [Framer.idWrite, hp]⟩

/-- An ID search answers the least sector from `s` to 79 with that ID, or none when there is none. -/
theorem Framer.idFind_some (s : Nat) (v : Bytes 12) (f : Framer) (k : Nat) (h : f.idFind s v = some k) :
    s ≤ k ∧ k < nSect ∧ f.sectorId k = v ∧ ∀ j, s ≤ j → j < k → f.sectorId j ≠ v := by
  rw [Framer.idFind, List.find?_range_eq_some] at h
  obtain ⟨h1, h2, h3⟩ := h
  simp only [Bool.and_eq_true, decide_eq_true_eq, beq_iff_eq] at h1
  refine ⟨h1.1, by simpa using h2, h1.2, fun j hs hj he => ?_⟩
  have := h3 j hj
  simp [hs, he] at this

theorem Framer.idFind_none (s : Nat) (v : Bytes 12) (f : Framer) (h : f.idFind s v = none) :
    ∀ j, s ≤ j → j < nSect → f.sectorId j ≠ v := by
  intro j hs hj he
  rw [Framer.idFind, List.find?_eq_none] at h
  have := h j (by simpa using hj)
  simp [hs, he] at this

/-- The data bytes of a sector as reads of single bytes. Cite this rather than unfolding a sector's 1024 bytes. -/
theorem Framer.sector_val (f : Framer) (p : Nat) :
    (f.sector p).val = (List.range sectBytes).map fun i => memRead f.data (p * sectBytes + i) := by
  simp only [Framer.sector, memReadRange_eq]

/-- The ID bytes of a sector as reads of single bytes. -/
theorem Framer.sectorId_val (f : Framer) (p : Nat) :
    (f.sectorId p).val = (List.range idBytes).map fun j => memRead f.ids (p * idBytes + j) := by
  simp only [Framer.sectorId, memReadRange_eq]

/-- Reading a data byte of a sector. -/
theorem Framer.sector_getElem (f : Framer) (p i : Nat) (h : i < (f.sector p).val.length) :
    (f.sector p).val[i] = memRead f.data (p * sectBytes + i) := by simp [Framer.sector]

/-- Reading an ID byte of a sector. -/
theorem Framer.sectorId_getElem (f : Framer) (p i : Nat) (h : i < (f.sectorId p).val.length) :
    (f.sectorId p).val[i] = memRead f.ids (p * idBytes + i) := by simp [Framer.sectorId]

/-- A blob read: the byte, or `CODEC_RANGE` outside [0, N-1]. -/
theorem blobRead_cases (n : Nat) (blob : Memory) (a : Int) :
    (0 ≤ a ∧ a < n ∧ blobRead n blob a = .ok (memRead blob a.toNat)) ∨
      ((a < 0 ∨ (n : Int) ≤ a) ∧ blobRead n blob a = .error .codecRange) := by
  by_cases h0 : 0 ≤ a <;> by_cases h1 : a < (n : Int)
  · exact .inl ⟨h0, h1, by simp [blobRead, blobHas, h0, h1]⟩
  · exact .inr ⟨.inr (by omega), by simp [blobRead, blobHas, h1]⟩
  · exact .inr ⟨.inl (by omega), by simp [blobRead, blobHas, h0]⟩
  · exact .inr ⟨.inl (by omega), by simp [blobRead, blobHas, h0]⟩

/-- The one error of a blob read. -/
theorem blobRead_error {n : Nat} {blob : Memory} {a : Int} {e : Status} (h : blobRead n blob a = .error e) :
    e = .codecRange := by
  rcases blobRead_cases n blob a with ⟨_, _, h'⟩ | ⟨_, h'⟩ <;> rw [h'] at h <;> simp_all

/-- A bind in `Except` that fails: the first part fails, or the second. -/
theorem except_bind_error {ε α β : Type} {x : Except ε α} {f : α → Except ε β} {e : ε} (h : x >>= f = .error e) :
    x = .error e ∨ ∃ a, x = .ok a ∧ f a = .error e := by
  cases x with
  | error e' => exact .inl (by cases h; rfl)
  | ok a => exact .inr ⟨a, rfl, h⟩

/-- A bind in `Except` that succeeds: both parts do. -/
theorem except_bind_ok {ε α β : Type} {x : Except ε α} {f : α → Except ε β} {b : β} (h : x >>= f = .ok b) :
    ∃ a, x = .ok a ∧ f a = .ok b := by
  cases x with
  | error e => cases h
  | ok a => exact ⟨a, rfl, h⟩

theorem readSlot_error {c : Config} {blob : Memory} {i : Nat} {flag : Byte} {e : Status}
    (h : readSlot c blob i flag = .error e) : e = .codecRange := by
  unfold readSlot at h
  repeat
    rcases except_bind_error h with h' | ⟨_, _, h'⟩
    · exact blobRead_error h'
    clear h
    rename' h' => h
  cases h

theorem scanTable_error {c : Config} {blob : Memory} {k i : Nat} {e : Status}
    (h : scanTable c blob k i = .error e) : e = .codecRange := by
  induction k generalizing i with
  | zero => cases h
  | succ k ih =>
    unfold scanTable at h
    rcases except_bind_error h with h' | ⟨flag, _, h'⟩
    · exact blobRead_error h'
    · split at h'
      · cases h'
      · rcases except_bind_error h' with h2 | ⟨_, _, h2⟩
        · exact readSlot_error h2
        · rcases except_bind_error h2 with h3 | ⟨_, _, h3⟩
          · exact ih h3
          · cases h3

/-- The one error of a table decode. -/
theorem decodeTable_error {c : Config} {blob : Memory} {e : Status} (h : decodeTable c blob = .error e) :
    e = .codecRange := scanTable_error h

/-- The one error of a lookup. -/
theorem lookupSlot_error {c : Config} {blob : Memory} {n : Nat} {e : Status} (h : lookupSlot c blob n = .error e) :
    e = .codecRange := by
  unfold lookupSlot at h
  rcases h' : decodeTable c blob with e' | l
  · rw [h'] at h; cases h; exact decodeTable_error h'
  · rw [h'] at h; cases h

/-- `REPL` either fails with one of three statuses, changing nothing but status, result and warning, or writes the
span of the slot it found. -/
theorem replacePattern_cases (c : Config) (n : Nat) (grid : Grid) (k : Codec) :
    (∃ st, (st = .codecRange ∨ st = .patternNotFound ∨ st = .sizeMismatch) ∧
        replacePattern c n grid k = k.fail st) ∨
      (∃ slot, lookupSlot c k.blob n = .ok (some slot) ∧ grid.rows = slot.rows ∧ grid.stitches = slot.stitches ∧
        spanInBlob c.blobLen (slot.patternEndOffset + 1) slot.memoOffset = true ∧
        replacePattern c n grid k = k.commitSpan c.guard n slot grid) := by
  rcases h : lookupSlot c k.blob n with e | slot
  · exact .inl ⟨e, .inl (lookupSlot_error h), by simp [replacePattern, h]⟩
  · cases slot with
    | none => exact .inl ⟨_, .inr (.inl rfl), by simp [replacePattern, h]⟩
    | some slot =>
      by_cases hd : grid.rows ≠ slot.rows ∨ grid.stitches ≠ slot.stitches
      · exact .inl ⟨_, .inr (.inr rfl), by simp [replacePattern, h, hd]⟩
      · by_cases hs : spanInBlob c.blobLen (slot.patternEndOffset + 1) slot.memoOffset = true
        · exact .inr ⟨slot, rfl, by tauto, by tauto, hs, by simp only [replacePattern, h, if_neg hd, hs, if_true]⟩
        · exact .inl ⟨.codecRange, .inl rfl, by simp only [replacePattern, h, if_neg hd, hs]; rfl⟩

/-- The framer's byte step when none is enabled: nothing changes. -/
theorem framerByteStep_idle (s : State) (h : s.fr.phase = .halt ∨ s.fr.rx = []) : framerByteStep s = .next s := by
  unfold framerByteStep
  split
  · rfl
  · rcases h with h | h
    · contradiction
    · rw [h]

/-- The framer's byte step when it is enabled: the byte is consumed and the rule for (phase, byte) applies. -/
theorem framerByteStep_byte (s : State) (b : Byte) (rest : List Byte) (h : s.fr.phase ≠ .halt)
    (hr : s.fr.rx = b :: rest) :
    framerByteStep s =
      match rxByte s.cfg b (s.fr.withRx rest) with
      | .ok f => .next { s with fr := f }
      | .error e => .fault e := by
  unfold framerByteStep
  rw [if_neg h]
  split
  · rename_i h'
    rw [hr] at h'
    cases h'
  · rename_i h'
    rw [hr] at h'
    cases h'
    rfl

/-- A framer byte step that answers a next state: nothing changed, or a byte was consumed and its rule applied. -/
theorem framerByteStep_next {s t : State} (h : framerByteStep s = .next t) :
    ((s.fr.phase = .halt ∨ s.fr.rx = []) ∧ t = s) ∨
      ∃ b rest f, s.fr.phase ≠ .halt ∧ s.fr.rx = b :: rest ∧ rxByte s.cfg b (s.fr.withRx rest) = .ok f ∧
        t = { s with fr := f } := by
  by_cases hp : s.fr.phase = .halt
  · rw [framerByteStep_idle s (.inl hp)] at h; cases h; exact .inl ⟨.inl hp, rfl⟩
  · cases hr : s.fr.rx with
    | nil => rw [framerByteStep_idle s (.inr hr)] at h; cases h; exact .inl ⟨.inr rfl, rfl⟩
    | cons b rest =>
      rw [framerByteStep_byte s b rest hp hr] at h
      rcases hx : rxByte s.cfg b (s.fr.withRx rest) with e | f
      · rw [hx] at h; cases h
      · rw [hx] at h; cases h; exact .inr ⟨b, rest, f, hp, rfl, hx, rfl⟩

end Sys2Proof.Machine
end

