-- ==== Sys2Proof/Laws/Frames.lean ====
section
/-!
SUPPORT. The laws that tie a frame to its bytes: the pieces of a frame's decoding and encoding, the stores of a payload,
and chains of byte steps for each part of a frame.
-/

namespace Sys2Proof

/-! ### Frames of each shape -/

theorem decodeFormat_ok {mk : ParmField → Instr} {bs rest : List Byte} {i : Instr}
    (h : decodeFormat mk bs = .ok (i, rest)) :
    ∃ fld, i = mk fld ∧ fieldWellFormed fld = true ∧ bs = encodeField fld ++ rest := by
  unfold decodeFormat at h
  rcases hd : decodeField bs with e | ⟨fld, r⟩
  · rw [hd] at h; cases h
  · rw [hd] at h
    cases h
    obtain ⟨h1, h2⟩ := decodeField_ok hd
    exact ⟨fld, rfl, h1, h2⟩

theorem decodeGated_ok {mk : ParmField → Option Byte → Instr} {bs rest : List Byte} {i : Instr}
    (h : decodeGated mk bs = .ok (i, rest)) :
    ∃ fld g, i = mk fld g ∧ dataWellFormed fld g.isSome = true ∧ bs = encodeField fld ++ g.toList ++ rest := by
  unfold decodeGated at h
  rcases hd : decodeField bs with e | ⟨fld, r⟩
  · rw [hd] at h; cases h
  · rw [hd] at h
    obtain ⟨h1, h2⟩ := decodeField_ok hd
    simp only at h
    split at h
    · rename_i hp
      cases r with
      | nil => cases h
      | cons g r => cases h; exact ⟨fld, some g, rfl, by simp [dataWellFormed, h1, hp], by simp [h2]⟩
    · rename_i hp
      cases h
      exact ⟨fld, none, rfl, by simp [dataWellFormed, h1, hp], by simp [h2]⟩

theorem decodeData_ok {n : Nat} {mk : ParmField → Option (Bytes n) → Instr} {bs rest : List Byte} {i : Instr}
    (h : decodeData n mk bs = .ok (i, rest)) :
    ∃ fld d, i = mk fld d ∧ dataWellFormed fld d.isSome = true ∧ bs = encodeField fld ++ optBytes d ++ rest := by
  unfold decodeData at h
  rcases hd : decodeField bs with e | ⟨fld, r⟩
  · rw [hd] at h; cases h
  · rw [hd] at h
    obtain ⟨h1, h2⟩ := decodeField_ok hd
    simp only at h
    split at h
    · rename_i hp
      rcases ht : takeBytes n r with _ | ⟨v, r'⟩
      · rw [ht] at h; cases h
      · rw [ht] at h
        cases h
        exact ⟨fld, some v, rfl, by simp [dataWellFormed, h1, hp], by simp [h2, takeBytes_some ht, optBytes]⟩
    · rename_i hp
      cases h
      exact ⟨fld, none, rfl, by simp [dataWellFormed, h1, hp], by simp [h2, optBytes]⟩

theorem decodeFormat_encode {mk : ParmField → Instr} (fld : ParmField) (rest : List Byte)
    (h : fieldWellFormed fld = true) : decodeFormat mk (encodeField fld ++ [] ++ rest) = .ok (mk fld, rest) := by
  simp [decodeFormat, decodeField_encodeField fld h rest]

theorem decodeGated_encode {mk : ParmField → Option Byte → Instr} (fld : ParmField) (g : Option Byte)
    (rest : List Byte) (h : dataWellFormed fld g.isSome = true) :
    decodeGated mk (encodeField fld ++ g.toList ++ rest) = .ok (mk fld g, rest) := by
  simp [dataWellFormed] at h
  unfold decodeGated
  rw [List.append_assoc, decodeField_encodeField fld h.1]
  cases g <;> simp at h <;> simp [← h.2]

theorem decodeData_encode {n : Nat} {mk : ParmField → Option (Bytes n) → Instr} (fld : ParmField)
    (d : Option (Bytes n)) (rest : List Byte) (h : dataWellFormed fld d.isSome = true) :
    decodeData n mk (encodeField fld ++ optBytes d ++ rest) = .ok (mk fld d, rest) := by
  simp [dataWellFormed] at h
  unfold decodeData
  rw [List.append_assoc, decodeField_encodeField fld h.1]
  cases d with
  | none => simp at h; simp [← h.2, optBytes]
  | some v => simp at h; simp only [← h.2, optBytes, takeBytes_append, if_true]

namespace Machine

/-! ### Stores of a payload -/

/-- A byte sequence stored from `a` up reads back. -/
theorem memReadBack (m : Memory) (a n : Nat) (bs : List Byte) (h : bs.length = n) :
    (List.range n).map (fun j => memRead (memWriteRange m a bs) (a + j)) = bs := by
  apply List.ext_getElem (by simp [h])
  intro i h1 h2
  simp [memRead_memWriteRange, h2]

theorem Framer.idWrite_ok (p : Nat) (v : Bytes 12) (f : Framer) (h : p < 80) :
    f.idWrite p v = .ok { f with ids := memWriteRange f.ids (12 * p) v.val } := by
  simp [Framer.idWrite, h, Nat.mul_comm]

theorem Framer.idWrite_error (p : Nat) (v : Bytes 12) (f : Framer) (h : ¬ p < 80) :
    f.idWrite p v = .error (.outOfRange p) := by
  simp [Framer.idWrite, h]

theorem Framer.sectWrite_even (p : Nat) (d : Bytes 1024) (f : Framer) (h : p < 80) (h2 : ¬ p % 2 = 1) :
    f.sectWrite p d = .ok { f with data := memWriteRange f.data (1024 * p) d.val } := by
  unfold Framer.sectWrite
  rw [if_pos h, if_neg h2, Nat.mul_comm]

/-- An odd sector's event holds the even sector's bytes as they were and the payload. -/
theorem Framer.sectWrite_odd (p : Nat) (d : Bytes 1024) (f : Framer) (h : p < 80) (h2 : p % 2 = 1) :
    f.sectWrite p d = .ok { f with
      data := memWriteRange f.data (1024 * p) d.val
      lastTrack := p / 2 + 1
      out := f.out ++ [.event (.trackWritten (p / 2 + 1)
        ((List.range 1024).map (fun j => memRead f.data (1024 * (p - 1) + j)) ++ d.val))] } := by
  have e1 : (List.range 1024).map (fun i => memRead (memWriteRange f.data (1024 * p) d.val) (1024 * (p - 1) + i)) =
      (List.range 1024).map (fun i => memRead f.data (1024 * (p - 1) + i)) := by
    apply List.map_congr_left
    intro i hi
    rw [List.mem_range] at hi
    rw [memRead_memWriteRange, dif_neg]
    omega
  have e2 := memReadBack f.data (1024 * p) 1024 d.val d.2
  unfold Framer.sectWrite
  rw [if_pos h, if_pos h2]
  simp only [Framer.emit, Framer.sector, memReadRange_eq, sectBytes]
  rw [Nat.mul_comm p 1024, Nat.mul_comm (p - 1) 1024, e1, e2]

theorem Framer.sectWrite_error (p : Nat) (d : Bytes 1024) (f : Framer) (h : ¬ p < 80) :
    f.sectWrite p d = .error (.outOfRange p) := by
  simp [Framer.sectWrite, h]

/-! ### The output -/

theorem txStream_tx (bs : List Byte) : txStream (bs.map .tx) = bs := by
  induction bs with
  | nil => rfl
  | cons b bs ih => simp [txStream] at ih ⊢

theorem eventStream_tx (bs : List Byte) : eventStream (bs.map .tx) = [] := by simp [eventStream]

theorem txStream_append (a b : List Output) : txStream (a ++ b) = txStream a ++ txStream b := by simp [txStream]

theorem eventStream_append (a b : List Output) : eventStream (a ++ b) = eventStream a ++ eventStream b := by
  simp [eventStream]

/-! ### A field -/

/-- A command byte and the items of its field. -/
theorem Framer.startCommand_takeItems (c : Byte) (items : List ParmItem) (f : Framer) :
    (f.startCommand c).takeItems items =
      { f with
        cmd := c
        toks := (scanItems items ([], none)).1
        cur := (scanItems items ([], none)).2
        phase := .parm } := by
  rw [Framer.takeItems_eq]
  rfl

/-- A whole field whose PSN the status word renders reaches the handler with psn and lsn written. -/
theorem Framer.closePsn_ok (handler : Framer → Framer) (c : Byte) (items : List ParmItem) (f : Framer)
    (hp : psnOf (fieldOfItems items) ≤ 255) :
    Framer.closePsn handler ((f.startCommand c).takeItems items) =
      handler { f with
        cmd := c
        toks := (scanItems items ([], none)).1
        cur := (scanItems items ([], none)).2
        psn := psnOf (fieldOfItems items)
        lsn := lsnOf (fieldOfItems items)
        phase := .parm } := by
  rcases Framer.closePsn_cases handler ((f.startCommand c).takeItems items) with ⟨h, _⟩ | ⟨_, e⟩
  · rw [Framer.startCommand_takeItems] at h
    exact absurd h (Nat.not_lt.mpr hp)
  · rw [e, Framer.startCommand_takeItems]
    rfl

/-- A whole field whose PSN the status word does not render halts. -/
theorem Framer.closePsn_halt (handler : Framer → Framer) (c : Byte) (items : List ParmItem) (f : Framer)
    (hp : 255 < psnOf (fieldOfItems items)) :
    Framer.closePsn handler ((f.startCommand c).takeItems items) =
      { f with
        cmd := c
        toks := (scanItems items ([], none)).1
        cur := (scanItems items ([], none)).2
        psn := psnOf (fieldOfItems items)
        lsn := lsnOf (fieldOfItems items)
        fault := .psnUnrenderable
        phase := .halt } := by
  rcases Framer.closePsn_cases handler ((f.startCommand c).takeItems items) with ⟨_, e⟩ | ⟨h, _⟩
  · rw [e, Framer.startCommand_takeItems]
    rfl
  · rw [Framer.startCommand_takeItems] at h
    exact absurd hp (Nat.not_lt.mpr h)

/-! ### A request -/

theorem foldl_ckAdd (bs : List Byte) (a : Byte) :
    bs.foldl ckAdd a = a + BitVec.ofNat 8 (bs.map BitVec.toNat).sum := by
  induction bs generalizing a with
  | nil => simp
  | cons b bs ih => simp [ih, ckAdd, BitVec.add_assoc, BitVec.ofNat_add]

/-- A request up to its checksum byte. -/
theorem runRequest_eq (payload : List Byte) (ck : Byte) (h : payload.length ≤ 255) (f : Framer) :
    runRequest payload ck f = cksByte ck
      { f with
        reqLen := BitVec.ofNat 8 payload.length
        reqRemain := 0
        ckAcc := BitVec.ofNat 8 ((8 + payload.length + (payload.map BitVec.toNat).sum) % 256)
        phase := .cks } := by
  unfold runRequest
  rw [payFold_eq]
  congr 1
  simp only [lenByte, takeCode, foldl_ckAdd]
  have e : payload.length % 256 = payload.length := by omega
  congr 1
  · by_cases hp : payload = []
    · simp [hp]
    · have : 0 < payload.length := List.length_pos_iff.mpr hp
      simp [hp, e]
  · simp [e]
  · simp only [ckAdd, reqEnterFdc]
    apply BitVec.eq_of_toNat_eq
    simp [BitVec.toNat_ofNat]

/-! ### Chains of byte steps -/

/-- A framer reaches another by n byte steps. -/
def Steps (c : Config) : Nat → Framer → Framer → Prop
  | 0, f, g => g = f
  | n + 1, f, g =>
    ∃ b rest f', f.phase ≠ .halt ∧ f.rx = b :: rest ∧ rxByte c b (f.withRx rest) = .ok f' ∧ Steps c n f' g

theorem Steps.trans {c : Config} {m n : Nat} {f g h : Framer} (h1 : Steps c m f g) (h2 : Steps c n g h) :
    Steps c (m + n) f h := by
  induction m generalizing f with
  | zero => cases h1; simpa using h2
  | succ m ih =>
    obtain ⟨b, rest, f', a1, a2, a3, a4⟩ := h1
    rw [show m + 1 + n = (m + n) + 1 by omega]
    exact ⟨b, rest, f', a1, a2, a3, ih a4⟩

theorem Steps.one {c : Config} {f g : Framer} {b : Byte} {rest : List Byte} (h1 : f.phase ≠ .halt)
    (h2 : f.rx = b :: rest) (h3 : rxByte c b (f.withRx rest) = .ok g) : Steps c 1 f g :=
  ⟨b, rest, g, h1, h2, h3, rfl⟩

/-- A chain of byte steps is a run of the block when nothing is scheduled. -/
theorem Steps.run {n : Nat} {s : State} {g : Framer} (hs : s.sched = []) (h : Steps s.cfg n s.fr g) :
    runSteps n s = .next { s with fr := g } := by
  induction n generalizing s with
  | zero => cases h; rfl
  | succ n ih =>
    obtain ⟨b, rest, f', a1, a2, a3, a4⟩ := h
    have he : s.fr.enabled = true := by simp [Framer.enabled, a1, a2]
    have : step s = .next { s with fr := f' } := by
      simp [step, hs, defaultTurn, he, takeTurn, framerByteStep, a1, a2, a3]
    simp only [runSteps, this]
    exact ih (s := { s with fr := f' }) hs a4

theorem Steps.items (c : Config) (items : List ParmItem) (f : Framer) (rest : List Byte) (hp : f.phase = .parm)
    (hr : f.rx = items.map byteOfItem ++ rest) : Steps c items.length f ((f.withRx rest).takeItems items) := by
  induction items generalizing f with
  | nil => simp at hr; show _ = _; cases f; simp at hr; subst hr; rfl
  | cons it items ih =>
    refine ⟨byteOfItem it, items.map byteOfItem ++ rest,
      (f.withRx (items.map byteOfItem ++ rest)).takeItem it, by simp [hp], hr, ?_, ?_⟩
    · unfold rxByte
      simp only [Framer.withRx_phase, hp, parmByte]
      rw [if_neg (byteOfItem_ne_cr it), itemOfByte_byteOfItem]
    · exact ih _ (by simp [hp]) (by simp)

theorem Steps.pay (c : Config) (bs : List Byte) (f : Framer) (rest : List Byte) (hn : bs ≠ []) (hp : f.phase = .pay)
    (hm : f.reqRemain = bs.length) (hr : f.rx = bs ++ rest) :
    Steps c bs.length f (bs.foldl (fun g b => payByte b g) (f.withRx rest)) := by
  induction bs generalizing f with
  | nil => exact absurd rfl hn
  | cons b bs ih =>
    refine ⟨b, bs ++ rest, payByte b (f.withRx (bs ++ rest)), by simp [hp], hr, ?_, ?_⟩
    · unfold rxByte
      simp only [Framer.withRx_phase, hp]
    · by_cases hb : bs = []
      · subst hb; show _ = _; rfl
      · have := ih (payByte b (f.withRx (bs ++ rest))) hb ?_ ?_ rfl
        · exact this
        · have : bs.length ≠ 0 := by simpa using hb
          simp [payByte, hp, hm, this]
        · simp [payByte, hm]

/-- Request 0x08 from its code byte to its checksum byte. -/
theorem Steps.request (c : Config) (f : Framer) (hp : f.phase = .req) (payload : List Byte) (ck : Byte)
    (rest : List Byte) (hl : payload.length ≤ 255) (hr : f.rx = encodeEnter payload ck ++ rest) :
    Steps c (encodeEnter payload ck).length f (runRequest payload ck (f.withRx rest)) := by
  have e : (BitVec.ofNat 8 payload.length).toNat = payload.length := by simp only [BitVec.toNat_ofNat]; omega
  have s1 : Steps c 1 f (takeCode (f.withRx (BitVec.ofNat 8 payload.length :: (payload ++ ck :: rest)))) := by
    apply Steps.one (b := reqEnterFdc) (by simp [hp]) (by simpa [encodeEnter] using hr)
    unfold rxByte
    simp only [Framer.withRx_phase, hp, reqByte, if_true]
  have s2 : Steps c 1 (takeCode (f.withRx (BitVec.ofNat 8 payload.length :: (payload ++ ck :: rest))))
      (lenByte (BitVec.ofNat 8 payload.length) (takeCode (f.withRx (payload ++ ck :: rest)))) := by
    apply Steps.one (by simp [takeCode]) rfl
    rfl
  have s3 : Steps c payload.length
      (lenByte (BitVec.ofNat 8 payload.length) (takeCode (f.withRx (payload ++ ck :: rest))))
      (payload.foldl (fun g b => payByte b g)
        (lenByte (BitVec.ofNat 8 payload.length) (takeCode (f.withRx (ck :: rest))))) := by
    by_cases hb : payload = []
    · subst hb; rfl
    · apply Steps.pay c payload _ (ck :: rest) hb
      · have h0 : payload.length ≠ 0 := by simpa using hb
        have : ¬ BitVec.ofNat 8 payload.length = 0#8 := by
          intro h; rw [h] at e; simp at e; exact h0 e.symm
        simp [lenByte, this]
      · simp [lenByte]; omega
      · rfl
  have ph : (payload.foldl (fun g b => payByte b g)
      (lenByte (BitVec.ofNat 8 payload.length) (takeCode (f.withRx (ck :: rest))))).phase = .cks := by
    rw [payFold_eq]
    by_cases hb : payload = []
    · simp [hb, lenByte]
    · simp only [lenByte, e]; simp [hb]
  have s4 : Steps c 1 (payload.foldl (fun g b => payByte b g)
      (lenByte (BitVec.ofNat 8 payload.length) (takeCode (f.withRx (ck :: rest)))))
      (runRequest payload ck (f.withRx rest)) := by
    apply Steps.one (b := ck) (rest := rest) (by rw [ph]; simp) (by rw [payFold_eq]; rfl)
    unfold rxByte
    rw [Framer.withRx_phase, ph]
    simp only [runRequest]
    rw [payFold_eq, payFold_eq]
    rfl
  have := ((s1.trans s2).trans s3).trans s4
  rw [show (encodeEnter payload ck).length = 1 + 1 + payload.length + 1 by simp [encodeEnter]; omega]
  exact this

/-- Payload bytes that do not yet fill the buffer. -/
theorem Steps.receiveId (c : Config) (bs : List Byte) (f : Framer) (rest : List Byte) (hp : f.phase = .idin)
    (hl : f.bufCount + bs.length < 12) (hr : f.rx = bs ++ rest) :
    Steps c bs.length f ((f.withRx rest).receive bs) := by
  induction bs generalizing f with
  | nil => show _ = _; cases f; simp at hr; subst hr; simp [Framer.receive, Framer.withRx]
  | cons b bs ih =>
    simp at hl
    refine ⟨b, bs ++ rest, (f.withRx (bs ++ rest)).receive [b], by simp [hp], hr, ?_, ?_⟩
    · unfold rxByte
      simp only [Framer.withRx_phase, hp, idinByte]
      rw [if_neg (by simp [Framer.receive]; omega)]
    · have := ih ((f.withRx (bs ++ rest)).receive [b]) (by simp [hp]) (by simp; omega) rfl
      convert this using 1
      simp [Framer.receive, Framer.withRx]
      omega

theorem Steps.receiveData (c : Config) (bs : List Byte) (f : Framer) (rest : List Byte) (hp : f.phase = .datin)
    (hl : f.bufCount + bs.length < 1024) (hr : f.rx = bs ++ rest) :
    Steps c bs.length f ((f.withRx rest).receive bs) := by
  induction bs generalizing f with
  | nil => show _ = _; cases f; simp at hr; subst hr; simp [Framer.receive, Framer.withRx]
  | cons b bs ih =>
    rw [List.length_cons] at hl
    refine ⟨b, bs ++ rest, (f.withRx (bs ++ rest)).receive [b], by simp [hp], hr, ?_, ?_⟩
    · unfold rxByte
      simp only [Framer.withRx_phase, hp, datinByte]
      rw [if_neg]
      rw [Framer.receive_bufCount, List.length_singleton, Framer.withRx_bufCount]
      omega
    · have := ih ((f.withRx (bs ++ rest)).receive [b]) (by simp [hp])
        (by rw [Framer.receive_bufCount, List.length_singleton, Framer.withRx_bufCount]; omega) rfl
      convert this using 1
      simp [Framer.receive, Framer.withRx]
      omega

/-- The 12 ID bytes of a frame and their command's completion. -/
theorem Steps.idPhase (c : Config) (v : Bytes 12) (f : Framer) (rest : List Byte) (hp : f.phase = .idin)
    (h0 : f.bufCount = 0) (hb : f.buf = []) (hr : f.rx = v.val ++ rest) (done : Bytes 12 → Framer → Framer)
    (hd : ∀ g : Framer, g.cmd = f.cmd →
      (if g.cmd = chS then srchidDone v g else if g.cmd = chB then wridBDone v g else wridCDone v g) = done v g) :
    Steps c 12 f (done v ((f.withRx rest).receive v.val)) := by
  obtain ⟨bs, hl⟩ := v
  obtain ⟨l, x, rfl⟩ : ∃ l x, bs = l ++ [x] := by
    rcases List.eq_nil_or_concat bs with h | ⟨l, x, h⟩
    · subst h; simp at hl
    · exact ⟨l, x, by simpa using h⟩
  simp at hl
  have s1 := Steps.receiveId c l f (x :: rest) hp (by omega) (by simpa using hr)
  rw [hl] at s1
  have s2 : Steps c 1 ((f.withRx (x :: rest)).receive l)
      (done ⟨l ++ [x], by simp [hl]⟩ ((f.withRx rest).receive (l ++ [x]))) := by
    apply Steps.one (b := x) (rest := rest) (by simp [hp]) rfl
    unfold rxByte
    simp only [Framer.withRx_phase, Framer.receive_phase, hp, idinByte]
    rw [if_pos (by simp [hl, h0])]
    have e : (((f.withRx (x :: rest)).receive l).withRx rest).receive [x] = (f.withRx rest).receive (l ++ [x]) := by
      simp [Framer.receive, Framer.withRx]; omega
    simp only [e]
    rw [dif_pos (by simp [hl, hb])]
    congr 1
    have := hd ((f.withRx rest).receive (l ++ [x])) rfl
    have eb : ((f.withRx rest).receive (l ++ [x])).buf = l ++ [x] := by simp [hb]
    simp only [eb]
    exact this
  exact s1.trans s2

/-- The 1024 data bytes of a frame and their command's completion. -/
theorem Steps.dataPhase (c : Config) (v : Bytes 1024) (f : Framer) (rest : List Byte) (hp : f.phase = .datin)
    (h0 : f.bufCount = 0) (hb : f.buf = []) (hr : f.rx = v.val ++ rest) (done : Bytes 1024 → Framer → Framer)
    (hd : ∀ g : Framer, g.cmd = f.cmd → (if g.cmd = chW then wrsecWDone v g else wrsecXDone v g) = done v g) :
    Steps c 1024 f (done v ((f.withRx rest).receive v.val)) := by
  obtain ⟨bs, hl⟩ := v
  obtain ⟨l, x, rfl⟩ : ∃ l x, bs = l ++ [x] := by
    rcases List.eq_nil_or_concat bs with h | ⟨l, x, h⟩
    · subst h; cases hl
    · exact ⟨l, x, by simpa using h⟩
  have hl' : l.length = 1023 := by rw [List.length_append, List.length_singleton] at hl; omega
  have s1 := Steps.receiveData c l f (x :: rest) hp (by omega) (by simpa using hr)
  rw [hl'] at s1
  have s2 : Steps c 1 ((f.withRx (x :: rest)).receive l)
      (done ⟨l ++ [x], hl⟩ ((f.withRx rest).receive (l ++ [x]))) := by
    apply Steps.one (b := x) (rest := rest) (by simp [hp]) rfl
    unfold rxByte
    simp only [Framer.withRx_phase, Framer.receive_phase, hp, datinByte]
    have e : (((f.withRx (x :: rest)).receive l).withRx rest).receive [x] = (f.withRx rest).receive (l ++ [x]) := by
      simp [Framer.receive, Framer.withRx]; omega
    simp only [e]
    rw [if_pos (by rw [Framer.receive_bufCount, Framer.withRx_bufCount, hl, h0])]
    rw [dif_pos (by rw [Framer.receive_buf, Framer.withRx_buf, hb, List.nil_append]; exact hl)]
    congr 1
    have := hd ((f.withRx rest).receive (l ++ [x])) rfl
    have eb : ((f.withRx rest).receive (l ++ [x])).buf = l ++ [x] := by simp [hb]
    simp only [eb]
    exact this
  exact s1.trans s2

/-- A command byte of the nine commands with a field. -/
theorem Steps.commandByte (c : Config) (ch : Byte) (f : Framer) (rest : List Byte) (hp : f.phase = .cmd)
    (hc : ch ∈ fdcpCommands) (hr : f.rx = ch :: rest) : Steps c 1 f ((f.withRx rest).startCommand ch) := by
  apply Steps.one (by simp [hp]) hr
  unfold rxByte
  simp only [Framer.withRx_phase, hp, cmdByte]
  have : ∀ ch ∈ fdcpCommands, ¬ ch = chCR ∧ ¬ ch = chZ ∧
      [chF, chG, chA, chR, chS, chB, chC, chW, chX].contains ch = true := by decide
  obtain ⟨h1, h2, h3⟩ := this ch hc
  rw [if_neg h1, if_neg h2, if_pos h3]

/-- A command byte, its field, and the field's completion. -/
theorem Steps.field (c : Config) (ch : Byte) (fld : ParmField) (f : Framer) (rest : List Byte) (hp : f.phase = .cmd)
    (hc : ch ∈ fdcpCommands) (hw : fieldWellFormed fld = true) (hr : f.rx = ch :: (encodeField fld ++ rest))
    (close : Framer → Framer) (hcl : ∀ g : Framer, g.cmd = ch → closeField c g = .ok (close g)) :
    Steps c (1 + (encodeField fld).length) f (((f.withRx rest).startCommand ch).runField close fld) := by
  have s1 := Steps.commandByte c ch f _ hp hc hr
  have s2 : Steps c (encodeField fld).length ((f.withRx (encodeField fld ++ rest)).startCommand ch)
      (((f.withRx rest).startCommand ch).runField close fld) := by
    cases fld with
    | closed items =>
      have a := Steps.items c items ((f.withRx (encodeField (.closed items) ++ rest)).startCommand ch) (chCR :: rest)
        rfl (by simp [encodeField])
      have b : Steps c 1 ((((f.withRx (encodeField (.closed items) ++ rest)).startCommand ch).withRx
          (chCR :: rest)).takeItems items) (((f.withRx rest).startCommand ch).runField close (.closed items)) := by
        rw [Framer.takeItems_eq]
        apply Steps.one (b := chCR) (rest := rest) (by simp) rfl
        unfold rxByte
        simp only [Framer.withRx_phase, Framer.startCommand_phase, parmByte, if_true]
        rw [hcl _ rfl, Framer.runField, Framer.takeItems_eq]
        rfl
      simpa [encodeField] using a.trans b
    | broken items bad =>
      simp [fieldWellFormed] at hw
      have a := Steps.items c items ((f.withRx (encodeField (.broken items bad) ++ rest)).startCommand ch)
        (bad :: rest) rfl (by simp [encodeField])
      have b : Steps c 1 ((((f.withRx (encodeField (.broken items bad) ++ rest)).startCommand ch).withRx
          (bad :: rest)).takeItems items) (((f.withRx rest).startCommand ch).runField close (.broken items bad)) := by
        rw [Framer.takeItems_eq]
        apply Steps.one (b := bad) (rest := rest) (by simp) rfl
        unfold rxByte
        simp only [Framer.withRx_phase, Framer.startCommand_phase, parmByte]
        rw [if_neg hw.1, hw.2, Framer.runField, Framer.takeItems_eq]
        rfl
      simpa [encodeField] using a.trans b
  exact s1.trans s2

end Machine

end Sys2Proof
end

