-- ==== Sys2Proof/Laws/Bytes.lean ====
section
/-!
SUPPORT. Everything one byte can do to the framer, said once: `ByteEffect` and `rxByte_effect`. Whole-machine rules about
single bytes follow from it by cases.
-/

namespace Sys2Proof.Machine

/-- The effects of consuming byte b in framer f. -/
inductive ByteEffect (b : Byte) (f : Framer) : Framer → Prop
  /-- Nothing is sent, stored or ended. -/
  | quiet (g : Framer) (ho : g.out = f.out) (hd : g.data = f.data) (hi : g.ids = f.ids) (hm : g.mode = f.mode)
      (hc : g.chain = f.chain) (hfo : g.forceOp = f.forceOp) : ByteEffect b f g
  /-- An accepted request. -/
  | accept (h : f.phase = .cks) (hb : b = ckExpected f.ckAcc) : ByteEffect b f ({ f with mode := .fdc } : Framer).endCommand
  /-- A command ends with a log record. -/
  | noted (l : List LogRecord) : ByteEffect b f ({ f with log := l } : Framer).endCommand
  /-- The second `'Z'` of a resync. -/
  | resync (h : f.phase = .fz2) (hb : b = chZ) : ByteEffect b f { f with mode := .op, phase := .req }
  /-- The heartbeat. -/
  | beat : ByteEffect b f (f.send wordOk).endCommand
  /-- A format. -/
  | format (h : f.phase = .parm) (hb : b = chCR) (hc : f.cmd = chF ∨ f.cmd = chG) (w : List Byte)
      (hw : w = wordOk ∨ w = wordFormat) (n : Nat) :
      ByteEffect b f (({ f with bps := n }.formatAll.send w).chainNext true)
  /-- A field opens a data phase. -/
  | opened (g : Framer) (h : f.phase = .parm) (hb : b = chCR) (v : Nat) (hv : v ≤ 255)
      (ho : g.out = f.out ++ (statusPsn v).map .tx) (hd : g.data = f.data) (hi : g.ids = f.ids) (hm : g.mode = f.mode)
      (hc : g.chain = f.chain) (hfo : g.forceOp = f.forceOp) : ByteEffect b f g
  /-- The gate of `A`. -/
  | readId (h : f.phase = .gate) (hp : f.psn < 80) : ByteEffect b f (f.send (f.sectorId f.psn).val).endCommand
  /-- The gate of `R`. -/
  | readSector (h : f.phase = .gate) (hp : f.psn < 80) : ByteEffect b f (f.send (f.sector f.psn).val).endCommand
  /-- A storage error. -/
  | storageError (x : List Byte) (y : Nat) : ByteEffect b f ({ f with buf := x, bufCount := y } : Framer).storageFail
  /-- A search that found sector k. -/
  | found (h : f.phase = .idin) (k : Nat) (hk : k < 80) (x : List Byte) (y : Nat) :
      ByteEffect b f (({ f with buf := x, bufCount := y } : Framer).send (statusPsn k)).endCommand
  /-- A search that found none. -/
  | missed (h : f.phase = .idin) (x : List Byte) (y : Nat) :
      ByteEffect b f (({ f with buf := x, bufCount := y } : Framer).send wordMiss).endCommand
  /-- An ID write. -/
  | wroteId (h : f.phase = .idin) (h11 : f.bufCount = 11) (hc : f.cmd ≠ chS) (hp : f.psn < 80) (v : Bytes 12)
      (x : List Byte) (y : Nat) :
      ByteEffect b f ((({ f with
        buf := x
        bufCount := y
        ids := memWriteRange f.ids (12 * f.psn) v.val } : Framer).send (statusPsn f.psn)).chainNext false)
  /-- A write of an even sector. -/
  | wroteEven (h : f.phase = .datin) (h23 : f.bufCount = 1023) (hp : f.psn < 80) (he : f.psn % 2 = 0)
      (d : Bytes 1024) (hd : d.val = f.buf ++ [b]) (y : Nat) :
      ByteEffect b f (({ f with
        buf := d.val
        bufCount := y
        data := memWriteRange f.data (1024 * f.psn) d.val } : Framer).send (statusPsn f.psn)).endCommand
  /-- A write of an odd sector. -/
  | wroteOdd (h : f.phase = .datin) (h23 : f.bufCount = 1023) (hp : f.psn < 80) (he : f.psn % 2 = 1)
      (d : Bytes 1024) (hd : d.val = f.buf ++ [b]) (y : Nat) :
      ByteEffect b f (({ f with
        buf := d.val
        bufCount := y
        lastTrack := f.psn / 2 + 1
        out := f.out ++ [.event (.trackWritten (f.psn / 2 + 1)
          ((List.range 1024).map (fun j => memRead f.data (1024 * (f.psn - 1) + j)) ++ d.val))]
        data := memWriteRange f.data (1024 * f.psn) d.val } : Framer).send (statusPsn f.psn)).endCommand

theorem closePsn_effect {b : Byte} {f : Framer} (hf : f.phase = .parm) (hb : b = chCR) (h : Framer → Framer)
    (hh : ∀ g : Framer, (h g).out = g.out ++ (statusPsn g.psn).map .tx ∧ (h g).data = g.data ∧ (h g).ids = g.ids ∧
      (h g).mode = g.mode ∧ (h g).chain = g.chain ∧ (h g).forceOp = g.forceOp) :
    ByteEffect b f (f.closePsn h) := by
  rcases Framer.closePsn_cases h f with ⟨_, e⟩ | ⟨h255, e⟩
  · rw [e]; exact .quiet _ rfl rfl rfl rfl rfl rfl
  · rw [e]
    obtain ⟨h1, h2, h3, h4, h5, h6⟩ := hh { f with psn := psnOf f.field, lsn := lsnOf f.field }
    exact .opened _ hf hb _ h255 h1 h2 h3 h4 h5 h6

theorem closeField_effect {c : Config} {b : Byte} {f g : Framer} (hp : f.phase = .parm) (hb : b = chCR)
    (h : closeField c f = .ok g) : ByteEffect b f g := by
  have AW : ∀ (ph : Phase) (g : Framer), (g.awaitPayload ph).out = g.out ++ (statusPsn g.psn).map .tx ∧
      (g.awaitPayload ph).data = g.data ∧ (g.awaitPayload ph).ids = g.ids ∧ (g.awaitPayload ph).mode = g.mode ∧
      (g.awaitPayload ph).chain = g.chain ∧ (g.awaitPayload ph).forceOp = g.forceOp :=
    fun ph g => ⟨rfl, rfl, rfl, rfl, rfl, rfl⟩
  have AG : ∀ g : Framer, g.awaitGate.out = g.out ++ (statusPsn g.psn).map .tx ∧ g.awaitGate.data = g.data ∧
      g.awaitGate.ids = g.ids ∧ g.awaitGate.mode = g.mode ∧ g.awaitGate.chain = g.chain ∧
      g.awaitGate.forceOp = g.forceOp := fun g => ⟨rfl, rfl, rfl, rfl, rfl, rfl⟩
  unfold closeField at h
  split at h
  · rename_i hc
    cases h
    exact .format hp hb (.inl hc) wordFormat (.inr rfl) _
  split at h
  · rename_i hc
    cases h
    exact .format hp hb (.inr hc) wordOk (.inl rfl) _
  split at h
  · cases h; exact closePsn_effect hp hb _ AG
  split at h
  · cases h; exact closePsn_effect hp hb _ AG
  split at h
  · cases h; exact closePsn_effect hp hb _ (AW _)
  split at h
  · cases h; exact closePsn_effect hp hb _ (AW _)
  split at h
  · cases h; exact closePsn_effect hp hb _ (AW _)
  split at h
  · cases h; exact closePsn_effect hp hb _ (AW _)
  split at h
  · cases h; exact closePsn_effect hp hb _ (AW _)
  · cases h

theorem gateByte_effect {b : Byte} {f : Framer} (hp : f.phase = .gate) : ByteEffect b f (gateByte b f) := by
  unfold gateByte rdidGate rdsecGate Framer.idRead Framer.sectRead Framer.gateDrop
  split
  · split
    · by_cases h8 : f.psn < nSect
      · rw [if_pos h8]; exact .readId hp h8
      · rw [if_neg h8]; exact .storageError f.buf f.bufCount
    · exact .noted _
  · split
    · by_cases h8 : f.psn < nSect
      · rw [if_pos h8]; exact .readSector hp h8
      · rw [if_neg h8]; exact .storageError f.buf f.bufCount
    · exact .noted _

theorem idinByte_effect {b : Byte} {f g : Framer} (hp : f.phase = .idin) (h : idinByte b f = .ok g) :
    ByteEffect b f g := by
  unfold idinByte at h
  simp only at h
  split at h
  · rename_i h12
    have h11 : f.bufCount = 11 := by simpa [Framer.receive] using h12
    split at h
    · rename_i hl
      cases h
      have W : f.cmd ≠ chS → ByteEffect b f ((f.receive [b]).finishIdWrite ⟨(f.receive [b]).buf, hl⟩) := by
        intro hs
        unfold Framer.finishIdWrite
        by_cases h8 : (f.receive [b]).psn < 80
        · rw [Framer.idWrite_ok _ _ _ h8]
          exact .wroteId hp h11 hs h8 ⟨(f.receive [b]).buf, hl⟩ (f.buf ++ [b]) (f.bufCount + 1)
        · rw [Framer.idWrite_error _ _ _ h8]
          exact .storageError _ _
      split
      · unfold srchidDone
        split
        · rename_i k hk
          exact .found hp _ (Framer.idFind_some _ _ _ _ hk).2.1 _ _
        · exact .missed hp _ _
      · rename_i hs
        split
        · exact W hs
        · exact W hs
    · cases h
  · cases h; exact .quiet _ rfl rfl rfl rfl rfl rfl

theorem datinByte_effect {b : Byte} {f g : Framer} (hp : f.phase = .datin) (h : datinByte b f = .ok g) :
    ByteEffect b f g := by
  unfold datinByte at h
  simp only at h
  split at h
  · rename_i h12
    have h11 : f.bufCount = 1023 := by
      have h : f.bufCount + [b].length = 1024 := h12
      rw [List.length_singleton] at h
      omega
    split at h
    · rename_i hl
      cases h
      have W : ByteEffect b f ((f.receive [b]).finishSectorWrite ⟨(f.receive [b]).buf, hl⟩) := by
        unfold Framer.finishSectorWrite
        by_cases h8 : (f.receive [b]).psn < 80
        · by_cases ho : (f.receive [b]).psn % 2 = 1
          · rw [Framer.sectWrite_odd _ _ _ h8 ho]
            exact .wroteOdd hp h11 h8 ho ⟨(f.receive [b]).buf, hl⟩ rfl _
          · have he : (f.receive [b]).psn % 2 = 0 := by
              have : (f.receive [b]).psn % 2 < 2 := Nat.mod_lt _ (by decide)
              omega
            rw [Framer.sectWrite_even _ _ _ h8 ho]
            exact .wroteEven hp h11 h8 he ⟨(f.receive [b]).buf, hl⟩ rfl _
        · rw [Framer.sectWrite_error _ _ _ h8]
          exact .storageError _ _
      split
      · exact W
      · exact W
    · cases h
  · cases h; exact .quiet _ rfl rfl rfl rfl rfl rfl

/-- Everything the rule for (phase, byte) can do. -/
theorem rxByte_effect {c : Config} {b : Byte} {f g : Framer} (h : rxByte c b f = .ok g) : ByteEffect b f g := by
  unfold rxByte at h
  split at h
  · cases h; unfold huntByte; split <;> exact .quiet _ rfl rfl rfl rfl rfl rfl
  · cases h; unfold sync2Byte; split <;> exact .quiet _ rfl rfl rfl rfl rfl rfl
  · cases h; unfold reqByte; split
    · exact .quiet _ rfl rfl rfl rfl rfl rfl
    · exact .noted _
  · cases h; exact .quiet _ rfl rfl rfl rfl rfl rfl
  · cases h; exact .quiet _ rfl rfl rfl rfl rfl rfl
  · rename_i hp
    cases h
    unfold cksByte
    split
    · rename_i hb; exact .accept hp hb
    · exact .noted _
  · cases h
    unfold cmdByte
    split
    · exact .beat
    split
    · exact .quiet _ rfl rfl rfl rfl rfl rfl
    split
    · exact .quiet _ rfl rfl rfl rfl rfl rfl
    split
    · exact .quiet _ rfl rfl rfl rfl rfl rfl
    split
    · exact .quiet _ rfl rfl rfl rfl rfl rfl
    · exact .noted _
  · rename_i hp
    cases h
    unfold fz2Byte
    split
    · rename_i hb; exact .resync hp hb
    · exact .noted _
  · rename_i hp
    unfold parmByte at h
    split at h
    · rename_i hb; exact closeField_effect hp hb h
    · split at h
      · cases h; exact .quiet _ rfl rfl rfl rfl rfl rfl
      · cases h; exact .quiet _ rfl rfl rfl rfl rfl rfl
  · rename_i hp; cases h; exact gateByte_effect hp
  · rename_i hp; exact idinByte_effect hp h
  · rename_i hp; exact datinByte_effect hp h
  · cases h; exact .quiet _ rfl rfl rfl rfl rfl rfl

end Sys2Proof.Machine
end

