-- ==== Sys2Proof/Laws/Codec.lean ====
section
/-!
SUPPORT. The laws of the codec: nibbles and bits of the blob, the table scan slot by slot, grids and their encoding, and
the span a replacement writes.
-/

namespace Sys2Proof.Machine

/-! ### Nibbles and bits -/

theorem hiNibble_toNat (v : Byte) : (hiNibble v).toNat = v.toNat / 16 := by
  simp [hiNibble, BitVec.extractLsb'_toNat, Nat.shiftRight_eq_div_pow]; omega

theorem loNibble_toNat (v : Byte) : (loNibble v).toNat = v.toNat % 16 := by
  simp [loNibble, BitVec.extractLsb'_toNat]

theorem nibbleOf_getLsbD (v : Byte) (k i : Nat) (h : i < 4) :
    (nibbleOf v k).getLsbD i = v.getLsbD (4 * (k % 2) + i) := by
  unfold nibbleOf
  rcases Nat.mod_two_eq_zero_or_one k with e | e
  · simp [e, loNibble, h]
  · simp [e, hiNibble, h]

/-- A bit of the blob in range. -/
theorem bitAt_ok (n : Nat) (m : Memory) (base : Int) (k i : Nat) (hi : i < 4) (h0 : ((k / 2 : Nat) : Int) ≤ base)
    (h1 : base - (k / 2 : Nat) < (n : Int)) :
    bitAt n m base k i = .ok ((memRead m (base - (k / 2 : Nat)).toNat).getLsbD (4 * (k % 2) + i)) := by
  unfold bitAt nibbleAt nibbleOffset
  rcases blobRead_cases n m (base - (k / 2 : Nat)) with ⟨_, _, h⟩ | ⟨h, _⟩
  · rw [h]; simp only [Except.map, nibbleOf_getLsbD _ _ _ hi]
  · omega

/-- A bit of the blob out of range. -/
theorem bitAt_error (n : Nat) (m : Memory) (base : Int) (k i : Nat)
    (h : base < ((k / 2 : Nat) : Int) ∨ (n : Int) ≤ base - (k / 2 : Nat)) :
    bitAt n m base k i = .error .codecRange := by
  unfold bitAt nibbleAt nibbleOffset
  rcases blobRead_cases n m (base - (k / 2 : Nat)) with ⟨_, _, h'⟩ | ⟨_, h'⟩
  · omega
  · rw [h']; rfl

/-- Position x of row r lies below the end of R rows of n positions. -/
theorem rowIndex_lt (R n r x : Nat) (hr : r < R) (hx : x < n) : r * n + x < R * n := by
  have : (r + 1) * n ≤ R * n := Nat.mul_le_mul_right n hr
  rw [Nat.add_mul, Nat.one_mul] at this
  omega

/-! ### The table scan -/

theorem blobRead_ok (n : Nat) (m : Memory) (a : Nat) (h : a < n) : blobRead n m (a : Int) = .ok (memRead m a) := by
  rcases blobRead_cases n m a with ⟨_, _, h'⟩ | ⟨h', _⟩
  · simpa using h'
  · omega

theorem blobRead_beyond (n : Nat) (m : Memory) (a : Nat) (h : n ≤ a) : blobRead n m (a : Int) = .error .codecRange := by
  rcases blobRead_cases n m a with ⟨_, h0, h'⟩ | ⟨_, h'⟩
  · omega
  · exact h'

/-- The record of slot i + 1 of a blob, whatever its flag. -/
def slotAt (c : Config) (blob : Memory) (i : Nat) : SlotRecord :=
  slotOf c.blobLen c.numLayout (i + 1) (memRead blob (7 * i)) (memRead blob (7 * i + 1)) (memRead blob (7 * i + 2))
    (memRead blob (7 * i + 3)) (memRead blob (7 * i + 4)) (memRead blob (7 * i + 5)) (memRead blob (7 * i + 6))

/-- The offset of slot i + 1. -/
theorem slotBase (i : Nat) : ((slotBytes * (i + 1 - 1) : Nat) : Int) = ((7 * i : Nat) : Int) := by simp [slotBytes]

theorem readSlot_ok (c : Config) (blob : Memory) (i : Nat) (h : 7 * i + 7 ≤ c.blobLen) :
    readSlot c blob (i + 1) (memRead blob (7 * i)) = .ok (slotAt c blob i) := by
  unfold readSlot
  simp only [slotBase]
  have h1 := blobRead_ok c.blobLen blob (7 * i + 1) (by omega)
  have h2 := blobRead_ok c.blobLen blob (7 * i + 2) (by omega)
  have h3 := blobRead_ok c.blobLen blob (7 * i + 3) (by omega)
  have h4 := blobRead_ok c.blobLen blob (7 * i + 4) (by omega)
  have h5 := blobRead_ok c.blobLen blob (7 * i + 5) (by omega)
  have h6 := blobRead_ok c.blobLen blob (7 * i + 6) (by omega)
  push_cast at h1 h2 h3 h4 h5 h6 ⊢
  simp only [h1, h2, h3, h4, h5, h6]
  rfl

theorem readSlot_beyond (c : Config) (blob : Memory) (i : Nat) (flag : Byte) (h : c.blobLen < 7 * i + 7) :
    readSlot c blob (i + 1) flag = .error .codecRange := by
  rcases hh : readSlot c blob (i + 1) flag with e | v
  · rw [readSlot_error hh]
  · exfalso
    unfold readSlot at hh
    simp only [slotBase] at hh
    obtain ⟨_, _, hh⟩ := except_bind_ok hh
    obtain ⟨_, _, hh⟩ := except_bind_ok hh
    obtain ⟨_, _, hh⟩ := except_bind_ok hh
    obtain ⟨_, _, hh⟩ := except_bind_ok hh
    obtain ⟨_, _, hh⟩ := except_bind_ok hh
    obtain ⟨_, h6, hh⟩ := except_bind_ok hh
    have h6' := blobRead_beyond c.blobLen blob (7 * i + 6) (by omega)
    push_cast at h6 h6'
    rw [h6'] at h6
    cases h6

/-- A scan whose first m slots have nonzero flags and lie in the blob is their records and the scan of the rest. -/
theorem scanTable_append (c : Config) (blob : Memory) (k m i : Nat) (hl : 7 * (i + m) ≤ c.blobLen)
    (hf : ∀ j, j < m → memRead blob (7 * (i + j)) ≠ 0#8) :
    scanTable c blob (m + k) (i + 1) =
      (scanTable c blob k (i + m + 1)).map fun l => (List.range m).map (fun j => slotAt c blob (i + j)) ++ l := by
  induction m generalizing i with
  | zero => simp; cases scanTable c blob k (i + 1) <;> simp [Except.map]
  | succ m ih =>
    rw [show m + 1 + k = (m + k) + 1 by omega, scanTable, slotBase, blobRead_ok c.blobLen blob (7 * i) (by omega)]
    show (if memRead blob (7 * i) = 0#8 then _ else _) = _
    rw [if_neg (by simpa using hf 0 (by omega)), readSlot_ok c blob i (by omega)]
    show (scanTable c blob (m + k) (i + 1 + 1) >>= fun more => _) = _
    rw [ih (i + 1) (by omega) (fun j hj => by
      have := hf (j + 1) (by omega)
      rwa [show i + (j + 1) = i + 1 + j by omega] at this)]
    rw [show i + 1 + m + 1 = i + (m + 1) + 1 by omega]
    cases scanTable c blob k (i + (m + 1) + 1) with
    | error e => rfl
    | ok l =>
      show Except.ok _ = Except.ok _
      congr 1
      rw [List.range_succ_eq_map]
      simp [Function.comp_def, Nat.add_assoc, Nat.add_comm 1]

/-- How the offsets of a record of the table relate. -/
def SlotRecord.Consistent (n : Nat) (slot : SlotRecord) : Prop :=
  slot.patternOffset = slot.memoOffset - (bytesForMemo slot.rows : Nat) ∧
    slot.patternEndOffset = slot.patternOffset - (bytesPerPattern slot.stitches slot.rows : Nat) ∧
    slot.memoOffset < n

theorem scanTable_consistent (c : Config) (blob : Memory) (k i : Nat) (l : List SlotRecord)
    (h : scanTable c blob k i = .ok l) : ∀ slot ∈ l, SlotRecord.Consistent c.blobLen slot := by
  induction k generalizing i l with
  | zero => cases h; simp
  | succ k ih =>
    unfold scanTable at h
    obtain ⟨fl, _, h⟩ := except_bind_ok h
    split at h
    · cases h; simp
    · obtain ⟨r0, hr, h⟩ := except_bind_ok h
      obtain ⟨more, hm, h⟩ := except_bind_ok h
      cases h
      intro slot hs
      rcases List.mem_cons.1 hs with rfl | hs
      · unfold readSlot at hr
        obtain ⟨_, _, hr⟩ := except_bind_ok hr
        obtain ⟨_, _, hr⟩ := except_bind_ok hr
        obtain ⟨_, _, hr⟩ := except_bind_ok hr
        obtain ⟨_, _, hr⟩ := except_bind_ok hr
        obtain ⟨_, _, hr⟩ := except_bind_ok hr
        obtain ⟨_, _, hr⟩ := except_bind_ok hr
        cases hr
        refine ⟨rfl, rfl, ?_⟩
        simp only [slotOf]
        omega
      · exact ih _ _ hm slot hs

/-- The offsets of a record a lookup finds. -/
theorem lookupSlot_consistent (c : Config) (blob : Memory) (n : Nat) (slot : SlotRecord)
    (h : lookupSlot c blob n = .ok (some slot)) : SlotRecord.Consistent c.blobLen slot := by
  unfold lookupSlot at h
  rcases hd : decodeTable c blob with e | l
  · rw [hd] at h; cases h
  · rw [hd] at h
    simp [Except.map] at h
    exact scanTable_consistent _ _ _ _ _ hd slot (List.mem_of_find?_eq_some h)

/-! ### Grids -/

theorem gridBit_gridOf (R S : Nat) (f : Nat → Nat → Bool) (r c : Nat) (hr : r < R) (hc : c < S) :
    gridBit (gridOf R S f) r c = f r c := by
  simp [gridBit, gridOf, tabulate, hr, hc]

theorem tabulate_all (R S : Nat) (f : Nat → Nat → Bool) :
    ((tabulate R S f).all fun row => row.all id) = true ↔ ∀ r < R, ∀ c < S, f r c = true := by
  simp [tabulate]

/-- A padding column reads as 0. -/
theorem gridBit_pad (g : Grid) (r c : Nat) (hc : g.stitches ≤ c) : gridBit g r c = false := by
  unfold gridBit
  rcases h : g.bits[r]? with _ | row
  · simp
  · have : row.length = g.stitches := g.shape.2 row (List.mem_of_getElem? h)
    simp only [Option.getD_some]
    rw [List.getElem?_eq_none (by omega)]
    rfl

/-- Grids of one size with the same bits are equal. -/
theorem grid_ext (g h : Grid) (hr : g.rows = h.rows) (hs : g.stitches = h.stitches)
    (hb : ∀ r < g.rows, ∀ c < g.stitches, gridBit g r c = gridBit h r c) : g = h := by
  obtain ⟨R, S, b, sh⟩ := g
  obtain ⟨R', S', b', sh'⟩ := h
  simp at hr hs
  subst hr
  subst hs
  have : b = b' := by
    apply List.ext_getElem (by rw [sh.1, sh'.1])
    intro r h1 h2
    apply List.ext_getElem (by rw [sh.2 _ (List.getElem_mem h1), sh'.2 _ (List.getElem_mem h2)])
    intro c h3 h4
    have := hb r (by rw [sh.1] at h1; exact h1) c (by rw [sh.2 _ (List.getElem_mem h1)] at h3; exact h3)
    simp [gridBit] at this
    simpa [h1, h2, h3, h4] using this
  subst this
  rfl

/-- A bitmap decode whose every read answers the bit of a grid of its size is that grid. -/
theorem decodeBitmap_eq (n : Nat) (m : Memory) (slot : SlotRecord) (g : Grid) (hr : slot.rows = g.rows)
    (hs : slot.stitches = g.stitches)
    (h : ∀ r < g.rows, ∀ c < g.stitches, bitmapBit n m slot r c = .ok (gridBit g r c)) :
    decodeBitmap n m slot = .ok g := by
  unfold decodeBitmap
  rw [if_pos ((tabulate_all _ _ _).2 (fun r hr' c hc => by rw [h r (by omega) c (by omega)]; rfl))]
  congr 1
  apply grid_ext
  · exact hr
  · exact hs
  · intro r hr' c hc
    have hr'' : r < slot.rows := hr'
    have hc'' : c < slot.stitches := hc
    rw [gridBit_gridOf _ _ _ _ _ hr'' hc'', h r (by omega) c (by omega)]
    rfl

/-! ### Encoding -/

theorem packNibbles_length (l : List (BitVec 4)) : (packNibbles l).length = (l.length + 1) / 2 := by
  match l with
  | [] => rfl
  | [a] => simp [packNibbles]
  | a :: b :: l => simp [packNibbles, packNibbles_length l]; omega

/-- Bit i of nibble k of the packed bytes. -/
theorem packNibbles_getLsbD (l : List (BitVec 4)) (k i : Nat) (hk : k < 2 * ((l.length + 1) / 2)) (hi : i < 4) :
    ((packNibbles l).getD (k / 2) 0#8).getLsbD (4 * (k % 2) + i) = (l.getD k 0#4).getLsbD i := by
  match l, k with
  | [], _ => simp at hk
  | [a], 0 => simp [packNibbles]; rw [BitVec.getLsbD_append]; simp [hi]
  | [a], 1 => simp [packNibbles]; rw [BitVec.getLsbD_append]; simp [hi]
  | [a], k + 2 => simp at hk
  | a :: b :: l, 0 => simp [packNibbles]; rw [BitVec.getLsbD_append]; simp [hi]
  | a :: b :: l, 1 => simp [packNibbles]; rw [BitVec.getLsbD_append]; simp [hi]
  | a :: b :: l, k + 2 =>
    have := packNibbles_getLsbD l k i (by simp at hk; omega) hi
    rw [show (k + 2) / 2 = k / 2 + 1 by omega, show (k + 2) % 2 = k % 2 by omega]
    simpa [packNibbles] using this

/-- R rows of n nibbles laid end to end. -/
theorem flatRows (R n : Nat) (f : Nat → Nat → BitVec 4) :
    ((List.range R).flatMap fun r => (List.range n).map (f r)).length = R * n ∧
      ∀ r x, r < R → x < n → ((List.range R).flatMap fun r => (List.range n).map (f r)).getD (r * n + x) 0#4 = f r x := by
  induction R with
  | zero => simp
  | succ R ih =>
    obtain ⟨h1, h2⟩ := ih
    rw [List.range_succ, List.flatMap_append]
    constructor
    · simp [Nat.add_mul]
    · intro r x hr hx
      rcases Nat.lt_or_ge r R with h | h
      · have := rowIndex_lt R n r x h hx
        rw [List.getD_append _ _ _ _ (by rw [h1]; exact this)]
        exact h2 r x h hx
      · have e : r = R := by omega
        subst e
        rw [List.getD_append_right _ _ _ _ (by rw [h1]; omega), h1]
        simp [show r * n + x - r * n = x by omega, hx]

theorem gridNibble_getLsbD (g : Grid) (r k i : Nat) (hi : i < 4) :
    (gridNibble g r k).getLsbD i = gridBit g r (4 * k + i) := by
  unfold gridNibble
  generalize e0 : gridBit g r (4 * k) = b0
  generalize e1 : gridBit g r (4 * k + 1) = b1
  generalize e2 : gridBit g r (4 * k + 2) = b2
  generalize e3 : gridBit g r (4 * k + 3) = b3
  match i, hi with
  | 0, _ => rw [show 4 * k + 0 = 4 * k from rfl, e0]; clear e0 e1 e2 e3; cases b0 <;> cases b1 <;> cases b2 <;> cases b3 <;> rfl
  | 1, _ => rw [e1]; clear e0 e1 e2 e3; cases b0 <;> cases b1 <;> cases b2 <;> cases b3 <;> rfl
  | 2, _ => rw [e2]; clear e0 e1 e2 e3; cases b0 <;> cases b1 <;> cases b2 <;> cases b3 <;> rfl
  | 3, _ => rw [e3]; clear e0 e1 e2 e3; cases b0 <;> cases b1 <;> cases b2 <;> cases b3 <;> rfl

theorem gridNibbles_length (g : Grid) : (gridNibbles g).length = g.rows * nibblesPerRow g.stitches :=
  (flatRows g.rows (nibblesPerRow g.stitches) (gridNibble g)).1

theorem encodeGrid_length (g : Grid) : (encodeGrid g).length = (g.rows * nibblesPerRow g.stitches + 1) / 2 := by
  unfold encodeGrid
  rw [packNibbles_length, gridNibbles_length]

/-- The bit of the encoding that holds row r, column c. -/
theorem encodeGrid_getLsbD (g : Grid) (r c : Nat) (hr : r < g.rows) (hc : c < 4 * nibblesPerRow g.stitches) :
    ((encodeGrid g).getD ((r * nibblesPerRow g.stitches + c / 4) / 2) 0#8).getLsbD
      (4 * ((r * nibblesPerRow g.stitches + c / 4) % 2) + c % 4) = gridBit g r c := by
  have hl := gridNibbles_length g
  have hg := (flatRows g.rows (nibblesPerRow g.stitches) (gridNibble g)).2 r (c / 4) hr (by omega)
  have := rowIndex_lt g.rows (nibblesPerRow g.stitches) r (c / 4) hr (by omega)
  unfold encodeGrid
  rw [packNibbles_getLsbD _ _ _ (by rw [hl]; omega) (by omega), gridNibbles, hg, gridNibble_getLsbD _ _ _ _ (by omega)]
  congr 1
  omega

/-! ### Replacement -/

theorem spanInBlob_iff (n : Nat) (a b : Int) : spanInBlob n (a + 1) b = true ↔ (b ≤ a ∨ (0 ≤ a + 1 ∧ b < n)) := by
  simp [spanInBlob]

/-- What the blob reads as after a slot's span was written. -/
theorem writeSpan_reads (m : Memory) (slot : SlotRecord) (g : Grid) (n : Nat) (hw : Memory.wf m = true)
    (ho : SlotRecord.Consistent n slot) (hr : g.rows = slot.rows) (hs : g.stitches = slot.stitches)
    (hspan : slot.memoOffset ≤ slot.patternEndOffset ∨ (0 ≤ slot.patternEndOffset + 1 ∧ slot.memoOffset < n)) :
    (∀ a : Nat, ((a : Int) ≤ slot.patternEndOffset ∨ slot.memoOffset < a) →
      memRead (writeSpan m slot g) a = memRead m a) ∧
    (∀ j, j < (encodeGrid g).length →
      memRead (writeSpan m slot g) (slot.patternOffset - (j : Nat)).toNat = (encodeGrid g).getD j 0#8) ∧
    (∀ a : Nat, slot.patternOffset < a → (a : Int) ≤ slot.memoOffset → memRead (writeSpan m slot g) a = 0#8) := by
  have hl : (encodeGrid g).length = bytesPerPattern slot.stitches slot.rows := by
    rw [encodeGrid_length, hr, hs]; rfl
  obtain ⟨h1, h2, h3⟩ := ho
  have hm : (List.replicate (bytesForMemo slot.rows) (0#8 : Byte)).length = bytesForMemo slot.rows :=
    List.length_replicate
  have z : (encodeGrid g).length ≠ 0 ∨ bytesForMemo slot.rows ≠ 0 → 0 ≤ slot.patternEndOffset + 1 := by
    rintro (h | h) <;> omega
  have hw1 := Memory.wf_storeDown m hw slot.patternOffset (encodeGrid g)
  have ne : ∀ {α} (l : List α), l ≠ [] → l.length ≠ 0 := by intro α l h; simpa using h
  have c1 : encodeGrid g ≠ [] → ((encodeGrid g).length : Int) ≤ slot.patternOffset + 1 := by
    intro h; have := z (.inl (ne _ h)); omega
  have c2 : List.replicate (bytesForMemo slot.rows) (0#8 : Byte) ≠ [] →
      ((List.replicate (bytesForMemo slot.rows) (0#8 : Byte)).length : Int) ≤ slot.memoOffset + 1 := by
    intro h; have := ne _ h; rw [hm] at this ⊢; have := z (.inr this); omega
  unfold writeSpan
  refine ⟨?_, ?_, ?_⟩
  · intro a ha
    rw [memRead_storeDown_other _ _ _ _ c2 (by rw [hm]; omega), memRead_storeDown_other _ _ _ _ c1 (by omega)]
  · intro j hj
    have hz := z (.inl (by omega))
    rw [memRead_storeDown_other _ _ _ _ c2 (by rw [hm]; omega)]
    rw [memRead_storeDown _ hw _ _ j (c1 (by intro h; simp [h] at hj)) hj, List.getD_eq_getElem _ _ hj]
  · intro a ha hb
    obtain ⟨j, hj⟩ : ∃ j : Nat, (a : Int) = slot.memoOffset - (j : Nat) := ⟨(slot.memoOffset - a).toNat, by omega⟩
    have hj2 : j < bytesForMemo slot.rows := by omega
    have := memRead_storeDown _ hw1 slot.memoOffset (List.replicate (bytesForMemo slot.rows) 0#8) j
      (c2 (by intro h; rw [h] at hm; simp at hm; omega)) (by rw [hm]; exact hj2)
    rw [← hj] at this
    simpa using this

end Sys2Proof.Machine
end

