-- ==== Sys2Proof/Laws/PerInstr.lean ====
section
/-!
SUPPORT. The family of statements made per instruction: the encoding of a well-formed instruction begins with the bits
that its row of spec/opcode_table.json fixes.
-/

namespace Sys2Proof.Laws.EncodeMatchesTable

/-- The first bytes of a code; a request gives its operation code as one byte. -/
def headBytes : Code → List Byte
  | .frame _ bytes => bytes
  | .request q => [BitVec.ofNat 8 q.op.toNat]

/-- The match and mask of an instruction's row in spec/opcode_table.json, byte by byte. -/
def rowBits : Instr → List (Byte × Byte)
  | .enterFdc _ _ => [(0x5A#8, 0xFF#8), (0x5A#8, 0xFF#8), (0x08#8, 0xFF#8)]
  | .reqIgn _ => [(0x5A#8, 0xFF#8), (0x5A#8, 0xFF#8), (0x00#8, 0x00#8)]
  | .hb => [(0x0D#8, 0xFF#8)]
  | .resync (.drop _) => [(0x5A#8, 0xFF#8)]
  | .resync _ => [(0x5A#8, 0xFF#8), (0x5A#8, 0xFF#8)]
  | .fmtF _ => [(0x46#8, 0xFF#8)]
  | .fmtG _ => [(0x47#8, 0xFF#8)]
  | .rdid _ _ => [(0x41#8, 0xFF#8)]
  | .rdsec _ _ => [(0x52#8, 0xFF#8)]
  | .srchid _ _ => [(0x53#8, 0xFF#8)]
  | .wridB _ _ => [(0x42#8, 0xFF#8)]
  | .wridC _ _ => [(0x43#8, 0xFF#8)]
  | .wrsecW _ _ => [(0x57#8, 0xFF#8)]
  | .wrsecX _ _ => [(0x58#8, 0xFF#8)]
  | .unsupM => [(0x4D#8, 0xFF#8)]
  | .unsupD => [(0x44#8, 0xFF#8)]
  | .ign _ => [(0x00#8, 0x00#8)]
  | .bfm _ => [(0x00#8, 0x0F#8)]
  | .npr _ => [(0x01#8, 0x0F#8)]
  | .bpp _ _ => [(0x02#8, 0x0F#8)]
  | .tdec => [(0x03#8, 0x0F#8)]
  | .lookup _ => [(0x04#8, 0x0F#8)]
  | .bdec _ => [(0x05#8, 0x0F#8)]
  | .mdec _ => [(0x06#8, 0x0F#8)]
  | .benc _ => [(0x07#8, 0x0F#8)]
  | .repl _ _ => [(0x08#8, 0x0F#8)]
  | .codecReserved _ => [(0x08#8, 0x08#8)]

/-- The encoding is at least as long as the row and agrees with it under its mask. -/
def Statement (i : Instr) : Prop :=
  i.wellFormed = true →
    (rowBits i).length ≤ (headBytes (encode i)).length ∧
      ∀ x ∈ (headBytes (encode i)).zip (rowBits i), x.1 &&& x.2.2 = x.2.1

theorem enterFdc (payload : List Byte) (ck : Byte) : Statement (.enterFdc payload ck) := by
  simp [Statement, rowBits, headBytes, encode, encodeEnter, chZ, reqEnterFdc]

theorem reqIgn (code : Byte) : Statement (.reqIgn code) := by
  simp [Statement, rowBits, headBytes, encode, chZ]

theorem hb : Statement .hb := by
  simp [Statement, rowBits, headBytes, encode, chCR]

theorem resync (tail : ResyncTail) : Statement (.resync tail) := by
  cases tail <;> simp [Statement, rowBits, headBytes, encode, encodeTail, encodeEnter, chZ]

theorem fmtF (fld : ParmField) : Statement (.fmtF fld) := by
  simp [Statement, rowBits, headBytes, encode, encodeFdcp, encodeField, chF]

theorem fmtG (fld : ParmField) : Statement (.fmtG fld) := by
  simp [Statement, rowBits, headBytes, encode, encodeFdcp, encodeField, chG]

theorem rdid (fld : ParmField) (gate : Option Byte) : Statement (.rdid fld gate) := by
  simp [Statement, rowBits, headBytes, encode, encodeFdcp, encodeField, chA]

theorem rdsec (fld : ParmField) (gate : Option Byte) : Statement (.rdsec fld gate) := by
  simp [Statement, rowBits, headBytes, encode, encodeFdcp, encodeField, chR]

theorem srchid (fld : ParmField) (id : Option (Bytes 12)) : Statement (.srchid fld id) := by
  simp [Statement, rowBits, headBytes, encode, encodeFdcp, encodeField, chS]

theorem wridB (fld : ParmField) (id : Option (Bytes 12)) : Statement (.wridB fld id) := by
  simp [Statement, rowBits, headBytes, encode, encodeFdcp, encodeField, chB]

theorem wridC (fld : ParmField) (id : Option (Bytes 12)) : Statement (.wridC fld id) := by
  simp [Statement, rowBits, headBytes, encode, encodeFdcp, encodeField, chC]

theorem wrsecW (fld : ParmField) (data : Option (Bytes 1024)) : Statement (.wrsecW fld data) := by
  simp [Statement, rowBits, headBytes, encode, encodeFdcp, encodeField, chW]

theorem wrsecX (fld : ParmField) (data : Option (Bytes 1024)) : Statement (.wrsecX fld data) := by
  simp [Statement, rowBits, headBytes, encode, encodeFdcp, encodeField, chX]

theorem unsupM : Statement .unsupM := by
  simp [Statement, rowBits, headBytes, encode, chM]

theorem unsupD : Statement .unsupD := by
  simp [Statement, rowBits, headBytes, encode, chD]

theorem ign (b : Byte) : Statement (.ign b) := by
  simp [Statement, rowBits, headBytes, encode]

theorem bfm (r : Nat) : Statement (.bfm r) := by
  simp [Statement, rowBits, headBytes, encode, requestOp]

theorem npr (s : Nat) : Statement (.npr s) := by
  simp [Statement, rowBits, headBytes, encode, requestOp]

theorem bpp (s : Nat) (r : Nat) : Statement (.bpp s r) := by
  simp [Statement, rowBits, headBytes, encode, requestOp]

theorem tdec : Statement .tdec := by
  simp [Statement, rowBits, headBytes, encode, requestOp]

theorem lookup (n : Nat) : Statement (.lookup n) := by
  simp [Statement, rowBits, headBytes, encode, requestOp]

theorem bdec (slot : SlotRecord) : Statement (.bdec slot) := by
  simp [Statement, rowBits, headBytes, encode, requestOp]

theorem mdec (slot : SlotRecord) : Statement (.mdec slot) := by
  simp [Statement, rowBits, headBytes, encode, requestOp]

theorem benc (grid : Grid) : Statement (.benc grid) := by
  simp [Statement, rowBits, headBytes, encode, requestOp]

theorem repl (n : Nat) (grid : Grid) : Statement (.repl n grid) := by
  simp [Statement, rowBits, headBytes, encode, requestOp]

theorem codecReserved (op : BitVec 4) : Statement (.codecReserved op) := by
  intro h
  have hn : 9 ≤ op.toNat := by simpa [Instr.wellFormed] using h
  have hl := op.isLt
  simp only [rowBits, headBytes, encode, requestOp]
  generalize op.toNat = n at hn hl
  interval_cases n <;> simp

end Sys2Proof.Laws.EncodeMatchesTable
end

