-- ==== Sys2Proof/Tests/Slice0.lean ====
section
/-!
SUPPORT. The model's own tests: the checks of WellFormed, one decoding per instruction from a word written out from
30_encoding.md, one or two steps per instruction from spec/95_test_vectors.md, and for each statement with hypotheses a
witness that meets them.
-/

open Sys2Proof Sys2Proof.Machine Sys2Proof.Claims

namespace Sys2Proof.Tests

/-! ### States and observations -/

/-- The reset state in mode FDC, phase CMD: the state after `ENTER`. -/
def fdc : State := { State.reset with fr := { State.reset.fr with mode := .fdc, phase := .cmd } }

/-- The same inside a chain that holds a format. -/
def chained : State := { fdc with fr := { fdc.fr with chain := true, forceOp := true } }

/-- The codec's blob is `blob`. -/
def withBlob (blob : Memory) : State := { State.reset with co := { State.reset.co with blob := blob } }

/-- A framer in phase `ph` of mode `m` with `rx` to read. -/
def at_ (m : Mode) (ph : Phase) (rx : List Byte) : State :=
  { fdc with fr := { fdc.fr with mode := m, phase := ph, rx := rx } }

/-- The state an outcome answers. -/
def after (o : Host.Outcome State Fault Refusal) : Option State :=
  match o with
  | .next t => some t
  | .fault _ => none
  | .refused _ => none

/-- Mode, phase, cause and the bytes sent. -/
def wire (o : Host.Outcome State Fault Refusal) : Option (Mode × Phase × Cause × List Byte) :=
  (after o).map fun t => (t.fr.mode, t.fr.phase, t.fr.fault, txStream t.fr.out)

/-- Status, result and warning. -/
def codecSays (o : Host.Outcome State Fault Refusal) : Option (Status × Result × Bool) :=
  (after o).map fun t => (t.co.status, t.co.result, t.co.warn)

/-- Bytes `lo` to `lo + n - 1` of the blob. -/
def blobBytes (lo n : Nat) (o : Host.Outcome State Fault Refusal) : Option (List Byte) :=
  (after o).map fun t => memReadRange t.co.blob lo n

/-- A field of decimal digits. -/
def num (ds : List (Fin 10)) : ParmField := .closed (ds.map .digit)

/-- Twelve zero bytes, and 1024 zero bytes. -/
def zeros12 : Bytes 12 := ⟨List.replicate 12 0#8, rfl⟩
def zeros1024 : Bytes 1024 := ⟨List.replicate 1024 0#8, List.length_replicate⟩

/-- The ID "u" of spec/95_test_vectors.md: `01 02 .. 0C`. -/
def idU : Bytes 12 := ⟨[1#8, 2#8, 3#8, 4#8, 5#8, 6#8, 7#8, 8#8, 9#8, 10#8, 11#8, 12#8], rfl⟩

/-- The table `T2` of spec/95_test_vectors.md 3.2. -/
def tableT2 : Memory :=
  [(0, 1#8), (3, 0x40#8), (4, 5#8), (5, 9#8), (6, 1#8), (7, 1#8), (8, 6#8), (10, 0x30#8), (11, 1#8), (12, 9#8), (13, 2#8)]

/-- Its two slots. -/
def slot1 : SlotRecord := ⟨1, 901, 5, 4, 1791, 1789, 1785⟩
def slot2 : SlotRecord := ⟨2, 902, 1, 3, 1785, 1783, 1781⟩

/-- The grid of 44_pattern_codec.md R251, example 1. -/
def gridG : Grid :=
  ⟨4, 5, [[true, false, true, true, true], [false, false, false, false, true], [true, true, true, true, false],
    [false, true, false, false, false]], by decide⟩

/-- The table of K-REPL6 (memo 699, end 696) or, with 0x43, of K-REPL7 (memo 700, end 697). -/
def tableGuard (aux : Byte) : Memory := [(0, 5#8), (1, aux), (3, 0x20#8), (4, 8#8), (6, 1#8)]

/-- The grid of K-REPL5 to K-REPL7. -/
def grid28 : Grid :=
  ⟨2, 8, [[true, true, true, true, true, true, true, true], [false, true, false, true, false, true, false, true]],
    by decide⟩

/-- The table of K-REPL8: a slot whose span leaves the blob. -/
def tableOut : Memory := [(0, 7#8), (1, 0xFF#8), (3, 0x20#8), (4, 4#8), (6, 5#8)]

/-- The grid of K-REPL8. -/
def grid24 : Grid := ⟨2, 4, [[true, false, false, true], [false, true, true, false]], by decide⟩

/-! ### WellFormed: an ill-formed term for each check -/

theorem test_wf_enter_payload_too_long : (Instr.enterFdc (List.replicate 256 0#8) 0#8).wellFormed = false := by
  decide +kernel
theorem test_wf_request_code_is_enter : (Instr.reqIgn 0x08#8).wellFormed = false := by decide
theorem test_wf_resync_drops_z : (Instr.resync (.drop 0x5A#8)).wellFormed = false := by decide
theorem test_wf_resync_payload_too_long :
    (Instr.resync (.enter (List.replicate 256 0#8) 0#8)).wellFormed = false := by decide +kernel
theorem test_wf_resync_ignores_enter : (Instr.resync (.ignore 0x08#8)).wellFormed = false := by decide
theorem test_wf_field_broken_by_cr : (Instr.fmtF (.broken [] 0x0D#8)).wellFormed = false := by decide
theorem test_wf_field_broken_by_digit : (Instr.fmtG (.broken [] 0x35#8)).wellFormed = false := by decide
theorem test_wf_gate_missing : (Instr.rdid (num [5]) none).wellFormed = false := by decide
theorem test_wf_gate_after_halt : (Instr.rdsec (num [2, 5, 6]) (some 0x0D#8)).wellFormed = false := by decide
theorem test_wf_id_missing : (Instr.srchid (num [5]) none).wellFormed = false := by decide
theorem test_wf_id_after_broken_field : (Instr.wridB (.broken [] 0x78#8) (some zeros12)).wellFormed = false := by decide
theorem test_wf_id_missing_c : (Instr.wridC (num [5]) none).wellFormed = false := by decide
theorem test_wf_data_missing_w : (Instr.wrsecW (num [5]) none).wellFormed = false := by decide
theorem test_wf_data_after_halt : (Instr.wrsecX (num [3, 0, 0]) (some zeros1024)).wellFormed = false := by decide
theorem test_wf_ignored_byte_is_a_command : (Instr.ign 0x52#8).wellFormed = false := by decide
theorem test_wf_reserved_op_is_repl : (Instr.codecReserved 0x8#4).wellFormed = false := by decide

/-! ### Decoding, from words written out from 30_encoding.md R101 to R107, R121, R123 -/

theorem test_decode_enterFdc :
    decode (.frame .opmode [0x5A#8, 0x5A#8, 0x08#8, 0x02#8, 0x01#8, 0x02#8, 0xF2#8, 0x0D#8]) =
      .ok (.enterFdc [0x01#8, 0x02#8] 0xF2#8, [0x0D#8]) := by decide
theorem test_decode_reqIgn : decode (.frame .opmode [0x5A#8, 0x5A#8, 0x5A#8]) = .ok (.reqIgn 0x5A#8, []) := by decide
theorem test_decode_hb : decode (.frame .fdc [0x0D#8]) = .ok (.hb, []) := by decide
theorem test_decode_resync :
    decode (.frame .fdc [0x5A#8, 0x5A#8, 0x08#8, 0x00#8, 0xF7#8]) = .ok (.resync (.enter [] 0xF7#8), []) := by decide
theorem test_decode_resync_ignore :
    decode (.frame .fdc [0x5A#8, 0x5A#8, 0x09#8]) = .ok (.resync (.ignore 0x09#8), []) := by decide
theorem test_decode_fmtF :
    decode (.frame .fdc [0x46#8, 0x20#8, 0x36#8, 0x20#8, 0x0D#8]) =
      .ok (.fmtF (.closed [.space, .digit 6, .space]), []) := by decide
theorem test_decode_fmtG : decode (.frame .fdc [0x47#8, 0x2C#8, 0x0D#8]) = .ok (.fmtG (.closed [.comma]), []) := by decide
theorem test_decode_rdid :
    decode (.frame .fdc [0x41#8, 0x35#8, 0x0D#8, 0x58#8]) = .ok (.rdid (num [5]) (some 0x58#8), []) := by decide
theorem test_decode_rdsec_halts :
    decode (.frame .fdc [0x52#8, 0x32#8, 0x35#8, 0x36#8, 0x0D#8, 0x0D#8]) =
      .ok (.rdsec (num [2, 5, 6]) none, [0x0D#8]) := by decide
theorem test_decode_srchid :
    decode (.frame .fdc ([0x53#8, 0x30#8, 0x0D#8] ++ idU.val)) = .ok (.srchid (num [0]) (some idU), []) := by decide
theorem test_decode_wridB :
    decode (.frame .fdc ([0x42#8, 0x37#8, 0x0D#8] ++ idU.val)) = .ok (.wridB (num [7]) (some idU), []) := by decide
theorem test_decode_wridC :
    decode (.frame .fdc ([0x43#8, 0x37#8, 0x0D#8] ++ idU.val)) = .ok (.wridC (num [7]) (some idU), []) := by decide
theorem test_decode_wrsecW_incomplete :
    decode (.frame .fdc [0x57#8, 0x33#8, 0x0D#8, 0x00#8]) = .error .incomplete := by decide
theorem test_decode_wrsecW (d : Bytes 1024) :
    decode (.frame .fdc ([0x57#8, 0x33#8, 0x0D#8] ++ d.val)) = .ok (.wrsecW (num [3]) (some d), []) := by
  have := decodeData_encode (mk := .wrsecW) (num [3]) (some d) [] rfl
  rw [List.append_nil] at this
  exact this
theorem test_decode_wrsecX_broken :
    decode (.frame .fdc [0x58#8, 0x33#8, 0x78#8]) = .ok (.wrsecX (.broken [.digit 3] 0x78#8) none, []) := by decide
theorem test_decode_unsupM : decode (.frame .fdc [0x4D#8, 0x52#8]) = .ok (.unsupM, [0x52#8]) := by decide
theorem test_decode_unsupD : decode (.frame .fdc [0x44#8]) = .ok (.unsupD, []) := by decide
theorem test_decode_ign : decode (.frame .fdc [0x72#8, 0x35#8]) = .ok (.ign 0x72#8, [0x35#8]) := by decide
theorem test_decode_requests :
    [0x0#4, 0x1#4, 0x2#4, 0x3#4, 0x4#4].map (fun op => decodeRequest ⟨op, 7, 5, 3, slot1, gridG⟩) =
      [.bfm 7, .npr 5, .bpp 5 7, .tdec, .lookup 3] := by decide
theorem test_decode_requests_with_slot_or_grid :
    [0x5#4, 0x6#4, 0x7#4, 0x8#4].map (fun op => decodeRequest ⟨op, 7, 5, 3, slot1, gridG⟩) =
      [.bdec slot1, .mdec slot1, .benc gridG, .repl 3 gridG] := by decide
theorem test_decode_requests_reserved :
    [0x9#4, 0xF#4].map (fun op => decodeRequest ⟨op, 7, 5, 3, slot1, gridG⟩) =
      [.codecReserved 0x9#4, .codecReserved 0xF#4] := by decide
theorem test_decode_needs_sync : decode (.frame .opmode [0x52#8, 0x35#8]) = .error .noSync := by decide

theorem test_table_words :
    decodeTableWord 24 0x085A5A = some (.enterFdc [] 0#8) ∧ decodeTableWord 24 0x005A5A = some (.reqIgn 0#8) ∧
      decodeTableWord 8 0x0D = some .hb ∧ decodeTableWord 8 0x72 = some (.ign 0x72#8) ∧
      decodeTableWord 8 0x08 = some (.repl 0 .empty) := by decide

/-! ### One step each, from spec/95_test_vectors.md -/

/-- O-3 and O-4. -/
theorem test_enterFdc_accepts :
    wire (exec (.enterFdc [0xF7#8] 0xFF#8) State.reset) = some (.fdc, .cmd, .none, []) ∧
      wire (exec (.enterFdc [0x41#8, 0x42#8, 0x43#8] 0x2E#8) State.reset) = some (.fdc, .cmd, .none, []) := by decide
/-- O-5. -/
theorem test_enterFdc_rejects :
    wire (exec (.enterFdc [0x01#8, 0x02#8] 0xF3#8) State.reset) = some (.op, .hunt, .none, []) := by decide
/-- O-7's first byte, 'x', and O-10's, 'R': each is discarded in HUNT, and the byte after it stays at RX. -/
theorem test_hunt_discards :
    (after (step (at_ .op .hunt [0x78#8, 0x79#8]))).map (fun t => (t.fr.phase, t.fr.rx)) = some (.hunt, [0x79#8]) ∧
      (after (step (at_ .op .hunt [0x52#8, 0x35#8]))).map (fun t => (t.fr.phase, t.fr.rx)) = some (.hunt, [0x35#8]) := by
  decide
/-- O-8: the 'Q' after a first 'Z' is discarded with it, and O-7's second 'Z' is the pair's. -/
theorem test_sync2 :
    (after (step (at_ .op .sync2 [0x51#8, 0x5A#8]))).map (fun t => (t.fr.phase, t.fr.rx)) = some (.hunt, [0x5A#8]) ∧
      (after (step (at_ .op .sync2 [0x5A#8, 0x5A#8]))).map (fun t => (t.fr.phase, t.fr.rx)) = some (.req, [0x5A#8]) := by
  decide
/-- O-9. -/
theorem test_reqIgn : wire (exec (.reqIgn 0x5A#8) State.reset) = some (.op, .hunt, .none, []) := by decide
/-- H-1, and F-FMT1's second word: a heartbeat as the leaf of a format's chain. -/
theorem test_hb :
    wire (exec .hb fdc) = some (.fdc, .cmd, .none, ascii ['0', '0', '0', '0', '0', '0', '0', '0']) ∧
      wire (exec .hb chained) = some (.op, .hunt, .none, ascii ['0', '0', '0', '0', '0', '0', '0', '0']) := by decide
/-- Z-1, Z-2, Z-3, Z-4. -/
theorem test_resync :
    [.enter [] 0xF7#8, .enter [] 0xF6#8, .drop 0x51#8, .ignore 0x09#8].map (fun x => wire (exec (.resync x) fdc)) =
      [some (.fdc, .cmd, .none, []), some (.op, .hunt, .none, []), some (.fdc, .cmd, .none, []),
        some (.op, .hunt, .none, [])] := by decide
/-- Z-5: the accepted request, then the forced OpMode. -/
theorem test_resync_in_format_chain :
    wire (exec (.resync (.enter [] 0xF7#8)) chained) = some (.op, .hunt, .none, []) := by decide
/-- PF-12, F-FMT13. -/
theorem test_fmtF :
    (after (exec (.fmtF (.closed [.space, .digit 6, .space])) fdc)).map
        (fun t => ((t.fr.bps, t.fr.chain, t.fr.forceOp), t.fr.mode, txStream t.fr.out)) =
      some ((1280, true, true), .fdc, ascii ['0', '0', '0', '0', '0', '0', 'F', 'F']) := by decide
/-- F-FMT2, and F-FMT6's bytes per sector. -/
theorem test_fmtG :
    (after (exec (.fmtG (.closed [.digit 0, .comma, .digit 1])) fdc)).map (fun t => (t.fr.bps, txStream t.fr.out)) =
      some (1024, ascii ['0', '0', '0', '0', '0', '0', '0', '0']) := by decide
/-- R-4, and R-3's dropped gate byte. -/
theorem test_rdid :
    wire (exec (.rdid (num [5]) (some 0x0D#8)) fdc) =
        some (.fdc, .cmd, .none, ascii ['0', '0', '0', '5', '0', '0', '0', '0'] ++ List.replicate 12 0#8) ∧
      wire (exec (.rdid (num [5]) (some 0x58#8)) fdc) =
        some (.fdc, .cmd, .none, ascii ['0', '0', '0', '5', '0', '0', '0', '0']) := by decide
/-- R-5: "00500000" "80000000". -/
theorem test_rdsec_beyond :
    wire (exec (.rdsec (num [8, 0]) (some 0x0D#8)) fdc) =
      some (.fdc, .halt, .storageRange, ascii ['0', '0', '5', '0', '0', '0', '0', '0', '8', '0', '0', '0', '0', '0', '0', '0']) := by
  decide
/-- PF-8 and PF-10. -/
theorem test_rdsec_field_halts :
    wire (exec (.rdsec (num [2, 5, 6]) none) fdc) = some (.fdc, .halt, .psnUnrenderable, []) ∧
      wire (exec (.rdsec (.broken [.digit 5] 0x78#8) none) fdc) = some (.fdc, .halt, .paramSyntax, []) := by decide
/-- I-4: the search from 80 is empty. -/
theorem test_srchid_beyond :
    wire (exec (.srchid (num [8, 0]) (some zeros12)) fdc) =
      some (.fdc, .cmd, .none, ascii ['0', '0', '5', '0', '0', '0', '0', '0', '4', '0', '0', '0', '0', '0', '0', '0']) := by
  decide
/-- I-3: sector 79, the last. -/
theorem test_srchid_last :
    wire (exec (.srchid (num [7, 9]) (some zeros12)) fdc) =
      some (.fdc, .cmd, .none, ascii ['0', '0', '4', 'F', '0', '0', '0', '0', '0', '0', '4', 'F', '0', '0', '0', '0']) := by
  decide
/-- I-1's write: the ID stands in sector 7, the chain is open, no forced return. -/
theorem test_wridB :
    (after (exec (.wridB (num [7]) (some idU)) fdc)).map
        (fun t => (memReadRange t.fr.ids 83 14, t.fr.chain, t.fr.forceOp, txStream t.fr.out)) =
      some ([0#8] ++ idU.val ++ [0#8], true, false,
        ascii ['0', '0', '0', '7', '0', '0', '0', '0', '0', '0', '0', '7', '0', '0', '0', '0']) := by decide
/-- I-7's shape for `C`. -/
theorem test_wridC_beyond :
    wire (exec (.wridC (num [8, 0]) (some zeros12)) fdc) =
      some (.fdc, .halt, .storageRange, ascii ['0', '0', '5', '0', '0', '0', '0', '0', '8', '0', '0', '0', '0', '0', '0', '0']) := by
  decide
/-- W-2's track number and words; the payload is zeros here. -/
theorem test_wrsecW_odd :
    (after (exec (.wrsecW (num [3]) (some zeros1024)) fdc)).map (fun t => (t.fr.lastTrack, t.fr.mode, t.fr.phase)) =
      some (2, .fdc, .cmd) := by decide +kernel
/-- W-1: an even sector has no event. -/
theorem test_wrsecX_even :
    (after (exec (.wrsecX (num [2]) (some zeros1024)) fdc)).map (fun t => (t.fr.lastTrack, t.fr.out.length)) =
      some (0, 16) := by decide +kernel
/-- H-4, and F-FMT11: in a chain, chain and forceOp stay true. -/
theorem test_unsupM :
    wire (exec .unsupM fdc) = some (.fdc, .halt, .unsupportedCmd, []) ∧
      (after (exec .unsupM chained)).map (fun t => (t.fr.mode, t.fr.chain, t.fr.forceOp)) = some (.fdc, true, true) := by
  decide
/-- H-5. -/
theorem test_unsupD : wire (exec .unsupD fdc) = some (.fdc, .halt, .unsupportedCmd, []) := by decide
/-- H-2. -/
theorem test_ign : wire (exec (.ign 0x51#8) fdc) = some (.fdc, .cmd, .none, []) := by decide

/-- 3.1, row `BFM`. -/
theorem test_bfm :
    [0, 1, 2, 3, 4, 17].map (fun r => codecSays (exec (.bfm r) State.reset)) =
      [0, 1, 1, 2, 2, 9].map (fun n => some (.ok, .number n, false)) := by decide
/-- 3.1, row `NPR`. -/
theorem test_npr :
    [0, 1, 4, 5, 8, 17].map (fun s => codecSays (exec (.npr s) State.reset)) =
      [0, 1, 1, 2, 2, 5].map (fun n => some (.ok, .number n, false)) := by decide
/-- 3.1, row `BPP`. -/
theorem test_bpp :
    [(16, 16), (17, 17), (1, 1), (5, 3), (5, 4), (0, 5), (3, 0), (200, 150)].map
        (fun x => codecSays (exec (.bpp x.1 x.2) State.reset)) =
      [32, 43, 1, 3, 4, 0, 0, 3750].map (fun n => some (.ok, .number n, false)) := by decide
/-- K-T1. -/
theorem test_tdec :
    codecSays (exec .tdec (withBlob tableT2)) = some (.ok, .slots [slot1, slot2], false) := by decide +kernel
/-- K-T2: nibbles above 9, negative offsets. -/
theorem test_tdec_nibbles :
    codecSays (exec .tdec (withBlob [(0, 2#8), (1, 0xFF#8), (2, 0xAB#8), (3, 0xCD#8), (4, 0xEF#8), (5, 0xF9#8), (6, 0x99#8)])) =
      some (.ok, .slots [⟨1, 999, 1455, 1122, 1280, 719, -203485⟩], false) := by
  decide +kernel
/-- K-L1, K-L2. -/
theorem test_lookup :
    codecSays (exec (.lookup 902) (withBlob tableT2)) = some (.ok, .slot slot2, false) ∧
      codecSays (exec (.lookup 903) (withBlob tableT2)) = some (.ok, .notFound, false) := by decide
/-- K-B1. -/
theorem test_bdec :
    codecSays (exec (.bdec slot1) (withBlob [(1786, 2#8), (1787, 0x0F#8), (1788, 0x10#8), (1789, 0x1D#8)])) =
      some (.ok, .grid gridG, false) := by decide
/-- K-M2: `MDEC` reads byte 0, `BDEC` of the same record byte -1. -/
theorem test_mdec :
    codecSays (exec (.mdec ⟨1, 5, 4, 2, 0, -1, -2⟩) (withBlob [(0, 7#8)])) = some (.ok, .bits [true, false], false) ∧
      codecSays (exec (.bdec ⟨1, 5, 4, 2, 0, -1, -2⟩) (withBlob [(0, 7#8)])) = some (.codecRange, .none, false) := by
  decide
/-- K-M1. -/
theorem test_mdec_flags :
    codecSays (exec (.mdec slot1) (withBlob [(1790, 0x0A#8), (1791, 0x31#8)])) =
      some (.ok, .bits [true, true, false, false], false) := by decide
/-- K-E3, K-E1. -/
theorem test_benc :
    codecSays (exec (.benc gridG) State.reset) = some (.ok, .bytes [0x1D#8, 0x10#8, 0x0F#8, 0x02#8], false) ∧
      codecSays (exec (.benc ⟨3, 1, [[true], [false], [true]], by decide⟩) State.reset) =
        some (.ok, .bytes [1#8, 1#8], false) := by decide
/-- K-REPL1. -/
theorem test_repl :
    codecSays (exec (.repl 901 gridG) (withBlob tableT2)) = some (.ok, .none, false) ∧
      blobBytes 1785 8 (exec (.repl 901 gridG) (withBlob tableT2)) =
        some [0#8, 0x02#8, 0x0F#8, 0x10#8, 0x1D#8, 0#8, 0#8, 0#8] := by decide
/-- K-REPL6 and K-REPL7: the guard at 696 and at 697. -/
theorem test_repl_guard :
    codecSays (exec (.repl 1 grid28) (withBlob (tableGuard 0x44#8))) = some (.ok, .none, true) ∧
      codecSays (exec (.repl 1 grid28) (withBlob (tableGuard 0x43#8))) = some (.ok, .none, false) ∧
      blobBytes 696 5 (exec (.repl 1 grid28) (withBlob (tableGuard 0x44#8))) =
        some [0#8, 0xAA#8, 0xFF#8, 0#8, 0#8] := by decide
/-- K-OP1. -/
theorem test_codecReserved : codecSays (exec (.codecReserved 0x9#4) State.reset) = some (.badOp, .none, false) := by decide

/-- X-1's reset: the halt is left, the cause cleared. -/
theorem test_reset_leaves_halt :
    wire (step { (at_ .fdc .halt []) with sched := [.reset] }) = some (.op, .hunt, .none, []) := by decide
/-- A host load keeps what lies above it. -/
theorem test_loadBlob :
    blobBytes 0 4 (step { (withBlob [(1, 7#8), (3, 9#8)]) with sched := [.loadBlob [5#8, 0#8]] }) =
      some [5#8, 0#8, 0#8, 9#8] := by decide

/-! ### Witnesses: for each statement with hypotheses, an input that meets them -/

/-- StepKeepsLegalStates: a legal state in mode FDC, with a byte to read. -/
theorem witness_inv : (at_ .fdc .cmd [0x46#8]).Inv := by
  refine ⟨?_, ?_⟩ <;> constructor <;> decide

/-- DecodeOfEncodeIsTheInstruction: a payload of 255 bytes, the longest; and a request. -/
theorem witness_wellFormed :
    (Instr.enterFdc (List.replicate 255 0#8) 0#8).wellFormed = true ∧ (Instr.repl 901 gridG).wellFormed = true ∧
      (Instr.codecReserved 0x9#4).wellFormed = true ∧ (Instr.rdsec (num [2, 5, 5]) (some 0x0D#8)).wellFormed = true ∧
      (Instr.rdsec (num [2, 5, 6]) none).wellFormed = true := by decide +kernel

/-- DecodedFrameReencodesToItsBytes, FrameNeedsNoLookahead: a frame with a byte after it. -/
theorem witness_decodeFrame :
    decodeFrame .fdc [0x52#8, 0x35#8, 0x0D#8, 0x0D#8, 0x4D#8] = .ok (.rdsec (num [5]) (some 0x0D#8), [0x4D#8]) ∧
      decodeFrame .opmode [0x5A#8, 0x5A#8, 0x08#8, 0x00#8, 0xF7#8] = .ok (.enterFdc [] 0xF7#8, []) := by decide

/-- StepRunsTheDecodedFrame, in both languages. -/
theorem witness_frame_turn :
    (let s : State := { (at_ .fdc .cmd [0x4D#8, 0x52#8]) with sched := [.framerFrame, .codec] }
     s.sched = .framerFrame :: [.codec] ∧ frameLang s.fr.phase = some .fdc ∧
       decode (.frame .fdc s.fr.rx) = .ok (.unsupM, [0x52#8])) ∧
    (let s : State := { (at_ .op .hunt [0x5A#8, 0x5A#8, 0x07#8]) with sched := [.framerFrame] }
     s.sched = .framerFrame :: [] ∧ frameLang s.fr.phase = some .opmode ∧
       decode (.frame .opmode s.fr.rx) = .ok (.reqIgn 0x07#8, [])) := by decide

/-- A state with one request pending. -/
def requesting (op : BitVec 4) (turns : List Turn) : State :=
  { State.reset with sched := turns, co := { State.reset.co with req := [requestOp op] } }

/-- StepServesTheNextRequest: both clauses. -/
theorem witness_request :
    (requesting 0x3#4 []).co.req = requestOp 0x3#4 :: [] ∧ (requesting 0x3#4 []).sched = [] ∧
      (requesting 0x3#4 []).fr.rx = [] ∧ (requesting 0xF#4 [.codec]).co.req = requestOp 0xF#4 :: [] ∧
      (requesting 0xF#4 [.codec]).sched = .codec :: [] := by decide

/-- StepConsumesOneByte: by the default turn, and by a scheduled one with a codec turn behind it. -/
theorem witness_byte :
    framerByteNext (at_ .fdc .cmd [0x4D#8]) [] ∧
      framerByteNext { at_ .fdc .cmd [0x4D#8] with sched := [.framerByte, .codec] } [.codec] ∧
      (at_ .fdc .cmd [0x4D#8]).fr.phase ≠ .halt ∧ (at_ .fdc .cmd [0x4D#8]).fr.rx = 0x4D#8 :: [] ∧
      rxByte fdc.cfg 0x4D#8 ((at_ .fdc .cmd [0x4D#8]).fr.withRx []) = .ok (unsupportedM fdc.fr) :=
  ⟨.inl ⟨rfl, rfl⟩, .inr rfl, by decide, rfl, rfl⟩

/-- HuntTakesOnlyTheSyncPair: each clause, with the codes next to 'Z' as other bytes. -/
theorem witness_hunt :
    framerByteNext (at_ .op .hunt [0x5A#8]) [] ∧ (at_ .op .hunt [0x5A#8]).fr.rx = 0x5A#8 :: [] ∧
      framerByteNext (at_ .op .hunt [0x59#8]) [] ∧ (at_ .op .hunt [0x59#8]).fr.rx = 0x59#8 :: [] ∧
      framerByteNext (at_ .op .sync2 [0x5A#8]) [] ∧ (at_ .op .sync2 [0x5A#8]).fr.rx = 0x5A#8 :: [] ∧
      framerByteNext { at_ .op .sync2 [0x5B#8] with sched := [.framerByte] } [] ∧
      (at_ .op .sync2 [0x5B#8]).fr.rx = 0x5B#8 :: [] ∧ (0x59#8 : Byte) ≠ 0x5A#8 ∧ (0x5B#8 : Byte) ≠ 0x5A#8 :=
  ⟨.inl ⟨rfl, rfl⟩, rfl, .inl ⟨rfl, rfl⟩, rfl, .inl ⟨rfl, rfl⟩, rfl, .inr rfl, rfl, by decide, by decide⟩

/-- WaitingBlockIdles: an empty stream, and a halt with a byte left. -/
theorem witness_idle :
    (State.reset.sched = [] ∧ State.reset.fr.rx = [] ∧ State.reset.co.req = []) ∧
      ((at_ .fdc .halt [0x52#8]).sched = [] ∧ (at_ .fdc .halt [0x52#8]).fr.phase = .halt ∧
        (at_ .fdc .halt [0x52#8]).co.req = []) := by decide

/-- FrameEqualsItsBytes: a read with a byte after its frame. -/
theorem witness_frame_bytes :
    (Instr.rdsec (num [5]) (some 0x0D#8)).wellFormed = true ∧
      (at_ .fdc .cmd [0x52#8, 0x35#8, 0x0D#8, 0x0D#8, 0x4D#8]).sched = [] ∧
      frameLang (at_ .fdc .cmd [0x52#8, 0x35#8, 0x0D#8, 0x0D#8, 0x4D#8]).fr.phase = some .fdc ∧
      encode (.rdsec (num [5]) (some 0x0D#8)) = .frame .fdc [0x52#8, 0x35#8, 0x0D#8, 0x0D#8] ∧
      (at_ .fdc .cmd [0x52#8, 0x35#8, 0x0D#8, 0x0D#8, 0x4D#8]).fr.rx =
        [0x52#8, 0x35#8, 0x0D#8, 0x0D#8] ++ [0x4D#8] := by decide

/-- ParametersNeverChange, OutputIsOnlyAppended: a step that sends. -/
theorem witness_step : ∃ t, step (at_ .fdc .cmd [0x0D#8]) = .next t ∧ txStream t.fr.out = wordOk := ⟨_, rfl, rfl⟩

/-- AgentsShareNoState, AgentStepsCommute: a framer step, a frame step, a codec step and a load. -/
theorem witness_agents :
    let s : State := { (at_ .fdc .cmd [0x0D#8]) with co := { State.reset.co with req := [requestOp 0x3#4] } }
    (∃ t, framerByteStep s = .next t) ∧ (∃ t, framerFrameStep s = .next t) ∧ (∃ t, codecStep s = .next t) ∧
      ∃ t, takeTurn (.loadBlob [1#8]) s = .next t := ⟨⟨_, rfl⟩, ⟨_, rfl⟩, ⟨_, rfl⟩, ⟨_, rfl⟩⟩

/-- OnlyResetLeavesHalt. -/
theorem witness_halt :
    let s := at_ .fdc .halt [0x52#8]
    s.fr.phase = .halt ∧ s.sched.head? ≠ some .reset ∧ ∃ t, step s = .next t := ⟨rfl, by decide, _, rfl⟩

/-- ModeChangesInThreePlaces: an accepted request, a resync, the end of a format's chain. -/
theorem witness_mode_changes :
    (∃ t, framerByteStep { (at_ .op .cks [0xFF#8]) with sched := [] } = .next t ∧ t.fr.mode ≠ .op) ∧
      (∃ t, framerByteStep (at_ .fdc .fz2 [0x5A#8]) = .next t ∧ t.fr.mode ≠ .fdc) ∧
      (∃ t, framerByteStep { chained with fr := { chained.fr with rx := [0x0D#8] } } = .next t ∧ t.fr.mode ≠ .fdc) :=
  ⟨⟨_, rfl, by decide⟩, ⟨_, rfl, by decide⟩, ⟨_, rfl, by decide⟩⟩

/-- A framer that has taken the data bytes `buf` of a write to sector p and has the byte b to read. -/
def writing (p : Nat) (buf : List Byte) (b : Byte) : State :=
  { fdc with
    fr := { fdc.fr with phase := .datin, cmd := chW, psn := p, buf := buf, bufCount := buf.length, rx := [b] } }

theorem writing_inv (p : Nat) (h : p ≤ 255) (buf : List Byte) (hl : buf.length = 1023) (b : Byte) :
    (writing p buf b).Inv := by
  obtain ⟨⟨a1, a2, a3, a4, _⟩, c⟩ := witness_inv
  refine ⟨⟨a1, a2, a3, a4, ?_, ?_, ?_, ?_, ?_, ?_, ?_, ?_, fun _ => .inl rfl, .inl rfl, fun _ => h, ?_, ?_, rfl, ?_, ?_,
    fun _ => ?_, ?_, ?_⟩, c⟩
  all_goals first
    | (show buf.length ≤ 1024; omega)
    | (show buf.length < 1024; omega)
    | simp [writing, fdc, State.reset, State.powerUp, Framer.powerUp, Phase.inOp, Phase.inFdc, fdcpCommands]

/-- The 1024th byte of a write to an odd sector. -/
theorem writing_step (p : Nat) (h : p < 80) (ho : p % 2 = 1) (buf : List Byte) (hl : buf.length = 1023) (b : Byte) :
    ∃ t, framerByteStep (writing p buf b) = .next t ∧
      t.fr.out = [.event (.trackWritten (p / 2 + 1)
        ((List.range 1024).map (fun j => memRead [] (1024 * (p - 1) + j)) ++ (buf ++ [b])))] ++
        (statusPsn p).map Output.tx ∧
      t.fr.data = memWriteRange [] (1024 * p) (buf ++ [b]) := by
  have hl' : (buf ++ [b]).length = 1024 := by rw [List.length_append, hl, List.length_singleton]
  have e := Framer.sectWrite_odd p ⟨buf ++ [b], hl'⟩ (((writing p buf b).fr.withRx []).receive [b]) h ho
  have hr : rxByte fdc.cfg b ((writing p buf b).fr.withRx []) =
      .ok (wrsecWDone ⟨buf ++ [b], hl'⟩ (((writing p buf b).fr.withRx []).receive [b])) := by
    have hc : (((writing p buf b).fr.withRx []).receive [b]).bufCount = 1024 := by
      show buf.length + 1 = 1024
      omega
    show datinByte b _ = _
    unfold datinByte
    exact (if_pos hc).trans ((dif_pos hl').trans rfl)
  rw [framerByteStep_byte (writing p buf b) b [] (by simp [writing]) rfl,
    show (writing p buf b).cfg = fdc.cfg from rfl, hr]
  refine ⟨_, rfl, ?_, ?_⟩ <;>
    · simp only [wrsecWDone, Framer.finishSectorWrite]
      rw [show (((writing p buf b).fr.withRx []).receive [b]).psn = p from rfl, e]
      simp only [Framer.endCommand_eq]
      rfl

/-- 1023 data bytes. -/
def data1023 : List Byte := List.replicate 1023 0#8
theorem data1023_length : data1023.length = 1023 := List.length_replicate

/-- StoreChangesOnlyAtCommit: the CR of a format, the 12th ID byte, the 1024th data byte of sector 79. -/
theorem witness_commit :
    (∃ t, framerByteStep { (at_ .fdc .parm [0x0D#8]) with
        fr := { (at_ .fdc .parm [0x0D#8]).fr with cmd := chF, data := [(5, 1#8)], ids := [(5, 1#8)] } } = .next t ∧
      t.fr.data = [] ∧ t.fr.ids = []) ∧
    (∃ t, framerByteStep { (at_ .fdc .idin [1#8]) with
        fr := { (at_ .fdc .idin [1#8]).fr with
          cmd := chB, psn := 79, buf := List.replicate 11 0#8, bufCount := 11 } } = .next t ∧
      t.fr.ids = [(959, 1#8)]) ∧
    (∃ t, framerByteStep (writing 79 data1023 1#8) = .next t ∧ (writing 79 data1023 1#8).Inv ∧
      t.fr.data = memWriteRange [] (1024 * 79) (data1023 ++ [1#8])) := by
  refine ⟨⟨_, rfl, rfl, rfl⟩, ⟨_, rfl, rfl⟩, ?_⟩
  obtain ⟨t, h1, _, h3⟩ := writing_step 79 (by decide) (by decide) data1023 data1023_length 1#8
  exact ⟨t, h1, writing_inv 79 (by decide) _ data1023_length _, h3⟩

/-- EventsComeFromOddSectorWrites, EveryResponseIsAStatusWordOrPayload: a legal state whose byte emits an event. -/
theorem witness_event :
    (writing 79 data1023 1#8).Inv ∧ (writing 79 data1023 1#8).fr.rx = 1#8 :: [] ∧
      ∃ t more, framerByteStep (writing 79 data1023 1#8) = .next t ∧ t.fr.out = (writing 79 data1023 1#8).fr.out ++ more ∧
        eventStream more ≠ [] := by
  obtain ⟨t, h1, h2, _⟩ := writing_step 79 (by decide) (by decide) data1023 data1023_length 1#8
  refine ⟨writing_inv 79 (by decide) _ data1023_length _, rfl, t, t.fr.out, h1, rfl, ?_⟩
  rw [h2, eventStream_append]
  intro h
  cases h

/-- OpModeSendsNothing: a byte in each mode's phases. -/
theorem witness_opmode :
    (at_ .op .pay [1#8]).fr.phase.inOp = true ∧ ∃ t, framerByteStep (at_ .op .pay [1#8]) = .next t := ⟨rfl, _, rfl⟩

/-- ForcedReturnEndsTheChainInOpMode: a chain that goes on, and one that ends. -/
theorem witness_forced :
    chained.fr.chain = true ∧ chained.fr.forceOp = true ∧
      (∃ t, framerByteStep { chained with fr := { chained.fr with rx := [0x42#8] } } = .next t ∧ t.fr.chain = true) ∧
      (∃ t, framerByteStep { chained with fr := { chained.fr with rx := [0x51#8] } } = .next t ∧ t.fr.chain = false) :=
  ⟨rfl, rfl, ⟨_, rfl, rfl⟩, ⟨_, rfl, rfl⟩⟩

/-- ResetInputSetsRegistersAndKeepsStorage. -/
theorem witness_reset_turn :
    ({ (at_ .fdc .halt [0x52#8]) with sched := [.reset] } : State).sched = .reset :: [] := rfl

/-- HostLoadFillsTheBlobFromItsStart: a load into a blob of the default length, and what it leaves at its ends. -/
theorem witness_load :
    ({ State.reset with sched := [.loadBlob [5#8, 6#8]] } : State).sched = .loadBlob [5#8, 6#8] :: [] ∧
      blobBytes 0 3 (step { State.reset with sched := [.loadBlob [5#8, 6#8]] }) = some [5#8, 6#8, 0#8] :=
  ⟨rfl, by decide⟩

/-- RequestAcceptedExactlyOnItsChecksum and ResyncTakesTheFollowingRequest: 255 payload bytes of zero and the checksum
of 30_encoding.md R102, (8 + 255) mod 256 = 7, xor FF = F8; and another byte. -/
theorem witness_checksum :
    (List.replicate 255 (0#8 : Byte)).length ≤ 255 ∧
      (0xF8#8 : Byte) = BitVec.ofNat 8 ((8 + (List.replicate 255 (0#8 : Byte)).length +
        ((List.replicate 255 (0#8 : Byte)).map BitVec.toNat).sum) % 256) ^^^ 0xFF#8 ∧
      (0xF7#8 : Byte) ≠ BitVec.ofNat 8 ((8 + (List.replicate 255 (0#8 : Byte)).length +
        ((List.replicate 255 (0#8 : Byte)).map BitVec.toNat).sum) % 256) ^^^ 0xFF#8 ∧ (0x51#8 : Byte) ≠ 0x5A#8 := by
  decide +kernel

/-- FieldTokensGivePsnAndLsn: digits, and a part before a comma. -/
theorem witness_field :
    ([0, 0, 7] : List (Fin 10)) ≠ [] ∧ fieldOfItems ([0, 0, 7].map .digit) = [some 7] ∧
      ([.digit 1, .space, .digit 2] : List ParmItem).all (· ≠ .comma) = true ∧
      fieldOfItems [.digit 1, .space, .digit 2, .comma, .digit 9] = [some 12, some 9] := by decide

/-- BrokenFieldHalts: the bytes 0x2F and 0x3A beside the digits, and a lowercase letter. -/
theorem witness_bad_bytes :
    [0x2F#8, 0x3A#8, 0x78#8].all (fun b => decide (itemOfByte b = none) && decide (b ≠ 0x0D#8)) = true := by decide

/-- The PSN hypotheses at their bounds: 0, 78, 79, 80, 255, 256. -/
theorem witness_psn :
    [num [], num [7, 8], num [7, 9], num [8, 0], num [2, 5, 5], num [2, 5, 6]].map (fun f =>
      match f with
      | .closed items => psnOf (fieldOfItems items)
      | .broken _ _ => 0) = [0, 78, 79, 80, 255, 256] := by decide

/-- StatusWordIsUppercaseHex at 255, and FormatCodeSelectsBytesPerSector at 7 and at an empty field. -/
theorem witness_codes :
    statusPsn 255 = ascii ['0', '0', 'F', 'F', '0', '0', '0', '0'] ∧ 6 < 7 ∧
      bpsOf Config.default.bpsTable [some 7] = 1024 ∧ (∀ k, ([] : List (Option Nat)) ≠ [some k]) := by
  refine ⟨by decide, by decide, rfl, ?_⟩
  intro k h
  cases h

/-- OtherGateByteSendsNoPayload. -/
theorem witness_gate : (0x58#8 : Byte) ≠ 0x0D#8 ∧ psnOf (fieldOfItems [.digit 2, .digit 5, .digit 5]) ≤ 255 := by decide

/-- SearchAnswersTheFirstMatch: sector 79 is the first hit from 79; the ID `u` is found nowhere after reset. -/
theorem witness_search :
    (79 ≤ 79 ∧ zeros12.val = (List.range 12).map (fun j => memRead fdc.fr.ids (12 * 79 + j))) ∧
      ∀ k, idU.val ≠ (List.range 12).map fun j => memRead fdc.fr.ids (12 * k + j) := by
  refine ⟨⟨by decide, by decide⟩, ?_⟩
  intro k h
  have : idU.val = List.replicate 12 0#8 := h
  revert this
  decide

/-- A payload of zeros for the write statements. -/
theorem witness_payloads : zeros12.val.length = 12 ∧ zeros1024.val.length = 1024 := ⟨rfl, zeros1024.2⟩

/-- A blob whose every slot flag is 1. -/
def fullTable : Memory := (List.range 99).map fun i => (7 * i, 1#8)

/-- A parameter record with a blob of n bytes. -/
def cfgN (n : Nat) : Config := { Config.default with blobLen := n }

/-- TableDecodeReadsTheSlots: an empty table, a full one in a blob of 693 bytes, K-T4 (N = 7) and K-T5 (N = 10). -/
theorem witness_table :
    (0 < State.reset.cfg.blobLen ∧ memRead State.reset.co.blob 0 = 0#8) ∧
      (7 * 99 ≤ (cfgN 693).blobLen ∧ (List.range 99).all (fun i => memRead fullTable (7 * i) ≠ 0#8) = true) ∧
      (1 < 99 ∧ memRead [(0, 1#8)] (7 * 0) ≠ 0#8 ∧ 7 * 1 = (cfgN 7).blobLen) ∧
      (1 < 99 ∧ memRead [(0, 1#8), (7, 1#8)] 7 ≠ 0#8 ∧ (cfgN 10).blobLen < 7 * 1 + 7 ∧ 7 * 1 < (cfgN 10).blobLen) := by
  decide +kernel

/-- LookupAnswersTheFirstRecord and ReplaceFailsInTheOrderOfItsChecks: found, absent, and a table that runs off the
blob. -/
theorem witness_lookup :
    decodeTable Config.default tableT2 = .ok ([slot1] ++ slot2 :: []) ∧ slot2.number = 902 ∧
      (∀ x ∈ [slot1], x.number ≠ 902) ∧ (∀ x ∈ [slot1, slot2], x.number ≠ 903) ∧
      decodeTable (cfgN 7) [(0, 1#8)] = .error .codecRange := by decide +kernel

/-- BitmapDecodeReadsTheBits: an empty grid, a region that ends at byte 0, and one that ends at byte -1; the same for
MemoDecodeReadsTheFlags. -/
theorem witness_regions :
    (⟨1, 5, 0, 2, 0, -1, -1⟩ : SlotRecord).rows * nprOf 0 = 0 ∧
      ((((2 * nprOf 4 - 1) / 2 : Nat) : Int) ≤ 0 ∧ (0 : Int) < State.reset.cfg.blobLen) ∧
      (2 * nprOf 4 ≠ 0 ∧ (-1 : Int) < (((2 * nprOf 4 - 1) / 2 : Nat) : Int)) ∧
      (State.reset.cfg.blobLen : Int) ≤ 2048 := by decide

/-- EncodedGridHoldsTheBits: an odd number of nibbles. -/
theorem witness_odd_nibbles : (3 : Nat) * nprOf 1 % 2 = 1 := by decide

/-- DecodeOfStoredEncodingIsTheGrid: the region of slot 1. -/
theorem witness_stored :
    Memory.wf tableT2 = true ∧ slot1.rows = gridG.rows ∧ slot1.stitches = gridG.stitches ∧
      ((((gridG.rows * nprOf gridG.stitches + 1) / 2 : Nat) : Int) ≤ slot1.patternOffset + 1 ∧
        slot1.patternOffset < (2048 : Nat)) := by decide +kernel

/-- ReplaceWritesExactlyItsSpan, DecodeAfterReplaceIsTheNewPattern: K-REPL1, and the guard at 696. -/
theorem witness_replace :
    (Memory.wf tableT2 = true ∧ lookupSlot Config.default tableT2 901 = .ok (some slot1) ∧ gridG.rows = slot1.rows ∧
      gridG.stitches = slot1.stitches ∧ 0 ≤ slot1.patternEndOffset + 1 ∧ slot1.memoOffset < (2048 : Nat)) ∧
    (Memory.wf (tableGuard 0x44#8) = true ∧
      lookupSlot Config.default (tableGuard 0x44#8) 1 = .ok (some ⟨1, 1, 8, 2, 699, 698, 696⟩)) := by decide +kernel

/-- DecodeAfterReplaceIsTheNewPattern: the REPL succeeds. -/
theorem witness_replaced :
    ∃ t, exec (.repl 901 gridG) (withBlob tableT2) = .next t ∧ t.co.status = .ok := ⟨_, rfl, by decide +kernel⟩

/-- ReplaceFailsInTheOrderOfItsChecks: a size mismatch (K-REPL3) and a span that leaves the blob (K-REPL8). -/
theorem witness_replace_failures :
    (lookupSlot Config.default tableT2 902 = .ok (some slot2) ∧ gridG.rows ≠ slot2.rows) ∧
      (lookupSlot Config.default tableOut 5 = .ok (some ⟨1, 5, 4, 2, 0, -1, -2⟩) ∧ grid24.rows = 2 ∧
        grid24.stitches = 4 ∧ (-2 : Int) < 0 ∧ (-2 : Int) + 1 < 0) := by decide +kernel

/-- OnlyReplaceWritesTheBlob: a REPL that changes the blob, and an operation that fails. -/
theorem witness_codec_steps :
    (∃ t, codecStep { (withBlob tableT2) with
        co := { (withBlob tableT2).co with req := [{ requestOp 0x8#4 with n := 901, grid := gridG }] } } = .next t ∧
      t.co.blob ≠ tableT2) ∧
    (∃ t, codecStep (requesting 0x9#4 []) = .next t ∧ t.co.status ≠ .ok) :=
  ⟨⟨_, rfl, by decide +kernel⟩, ⟨_, rfl, by decide⟩⟩

end Sys2Proof.Tests
end

section
/-!
PROOFS. The family of 10_state.md: a frame as its bytes (R43), what one step of the block can do, and the legal states
that every step keeps.
-/

namespace Sys2Proof.Machine

/-! ### A frame is its bytes (10_state.md R43) -/

/-- The only field that lets a data phase follow: closed, with a PSN the status word renders. -/
theorem fieldProceeds_true {fld : ParmField} (h : fieldProceeds fld = true) :
    ∃ items, fld = .closed items ∧ psnOf (fieldOfItems items) ≤ 255 := by
  cases fld with
  | closed items => exact ⟨items, rfl, of_decide_eq_true h⟩
  | broken items bad => cases h

/-- A frame of `A R S B C W X` has a command byte `ch`, a field whose CR leads to `opn`, and a data operand with bytes
`bytes` that `run` takes in. It is its byte steps when its data phase is. -/
theorem Steps.fieldAndData {α : Type} {c : Config} {ch : Byte} {opn : Framer → Framer}
    {run : Option α → Framer → Framer} (bytes : α → List Byte) (hc : ch ∈ fdcpCommands)
    (hclose : ∀ g : Framer, g.cmd = ch → closeField c g = .ok (g.closePsn opn)) (hnone : ∀ g, run none g = g)
    (hsome : ∀ (x : α) (g : Framer) (rest : List Byte), g.cmd = ch →
      Steps c (bytes x).length (opn (g.withRx (bytes x ++ rest))) (run (some x) (opn (g.withRx rest))))
    {fld : ParmField} {d : Option α} (hw : dataWellFormed fld d.isSome = true) {f : Framer} {rest : List Byte}
    (hp : f.phase = .cmd) (hr : f.rx = encodeFdcp ch fld (d.elim [] bytes) ++ rest) :
    Steps c (encodeFdcp ch fld (d.elim [] bytes)).length f
      (run d (((f.withRx rest).startCommand ch).runField (Framer.closePsn opn) fld)) := by
  simp only [dataWellFormed, Bool.and_eq_true, beq_iff_eq] at hw
  obtain ⟨hfld, hd⟩ := hw
  have hfield := Steps.field c ch fld f (d.elim [] bytes ++ rest) hp hc hfld (by simpa [encodeFdcp] using hr) _ hclose
  rw [show (encodeFdcp ch fld (d.elim [] bytes)).length = 1 + (encodeField fld).length + (d.elim [] bytes).length by
    simp [encodeFdcp]; omega]
  refine hfield.trans ?_
  cases d with
  | none => exact hnone _
  | some x =>
    obtain ⟨items, rfl, hpsn⟩ := fieldProceeds_true hd.symm
    simp only [Framer.runField, Framer.closePsn_ok opn ch items _ hpsn]
    exact hsome x { f with
      cmd := ch
      toks := (scanItems items ([], none)).1
      cur := (scanItems items ([], none)).2
      psn := psnOf (fieldOfItems items)
      lsn := lsnOf (fieldOfItems items)
      phase := .parm } rest rfl

/-- A frame of `A` or `R` is its byte steps. -/
theorem Steps.gatedFrame {c : Config} {ch : Byte} {take : Byte → Framer → Framer} (hc : ch ∈ fdcpCommands)
    (hclose : ∀ g : Framer, g.cmd = ch → closeField c g = .ok (g.closePsn Framer.awaitGate))
    (htake : ∀ (b : Byte) (g : Framer), g.cmd = ch → gateByte b g = take b g) {fld : ParmField} {gate : Option Byte}
    (hw : dataWellFormed fld gate.isSome = true) {f : Framer} {rest : List Byte} (hp : f.phase = .cmd)
    (hr : f.rx = encodeFdcp ch fld gate.toList ++ rest) :
    Steps c (encodeFdcp ch fld gate.toList).length f
      ((((f.withRx rest).startCommand ch).runField (Framer.closePsn Framer.awaitGate) fld).runGate take gate) := by
  have hbytes : gate.toList = gate.elim [] fun b => [b] := by cases gate <;> rfl
  rw [hbytes] at hr ⊢
  refine Steps.fieldAndData _ hc hclose (fun g => rfl) (fun b g r hg => ?_) hw hp hr
  exact Steps.one (by simp) rfl (congrArg Except.ok (htake b (g.withRx r).awaitGate hg))

theorem optBytes_eq_elim {n : Nat} (d : Option (Bytes n)) : optBytes d = d.elim [] Subtype.val := by cases d <;> rfl

/-- A frame of `S`, `B` or `C` is its byte steps. -/
theorem Steps.idFrame {c : Config} {ch : Byte} {done : Bytes 12 → Framer → Framer} (hc : ch ∈ fdcpCommands)
    (hclose : ∀ g : Framer, g.cmd = ch → closeField c g = .ok (g.closePsn (Framer.awaitPayload .idin)))
    (hdone : ∀ (v : Bytes 12) (g : Framer), g.cmd = ch →
      (if g.cmd = chS then srchidDone v g else if g.cmd = chB then wridBDone v g else wridCDone v g) = done v g)
    {fld : ParmField} {id : Option (Bytes 12)} (hw : dataWellFormed fld id.isSome = true) {f : Framer}
    {rest : List Byte} (hp : f.phase = .cmd) (hr : f.rx = encodeFdcp ch fld (optBytes id) ++ rest) :
    Steps c (encodeFdcp ch fld (optBytes id)).length f
      ((((f.withRx rest).startCommand ch).runField (Framer.closePsn (Framer.awaitPayload .idin)) fld).runId
        done id) := by
  rw [optBytes_eq_elim] at hr ⊢
  refine Steps.fieldAndData _ hc hclose (fun g => rfl) (fun v g r hg => ?_) hw hp hr
  rw [v.2]
  exact Steps.idPhase c v ((g.withRx (v.val ++ r)).awaitPayload .idin) r rfl rfl rfl rfl done
    (fun h hh => hdone v h (hh.trans hg))

/-- A frame of `W` or `X` is its byte steps. -/
theorem Steps.dataFrame {c : Config} {ch : Byte} {done : Bytes 1024 → Framer → Framer} (hc : ch ∈ fdcpCommands)
    (hclose : ∀ g : Framer, g.cmd = ch → closeField c g = .ok (g.closePsn (Framer.awaitPayload .datin)))
    (hdone : ∀ (v : Bytes 1024) (g : Framer), g.cmd = ch →
      (if g.cmd = chW then wrsecWDone v g else wrsecXDone v g) = done v g)
    {fld : ParmField} {data : Option (Bytes 1024)} (hw : dataWellFormed fld data.isSome = true) {f : Framer}
    {rest : List Byte} (hp : f.phase = .cmd) (hr : f.rx = encodeFdcp ch fld (optBytes data) ++ rest) :
    Steps c (encodeFdcp ch fld (optBytes data)).length f
      ((((f.withRx rest).startCommand ch).runField (Framer.closePsn (Framer.awaitPayload .datin)) fld).runData
        done data) := by
  rw [optBytes_eq_elim] at hr ⊢
  refine Steps.fieldAndData _ hc hclose (fun g => rfl) (fun v g r hg => ?_) hw hp hr
  rw [v.2]
  exact Steps.dataPhase c v ((g.withRx (v.val ++ r)).awaitPayload .datin) r rfl rfl rfl rfl done
    (fun h hh => hdone v h (hh.trans hg))

/-- The sync pair of a request. -/
theorem Steps.syncPair {c : Config} {f : Framer} {rest : List Byte} (hp : f.phase = .hunt)
    (hr : f.rx = chZ :: chZ :: rest) : Steps c 2 f { f.withRx rest with phase := .req } := by
  have h1 : Steps c 1 f { f.withRx (chZ :: rest) with phase := .sync2 } :=
    Steps.one (by simp [hp]) hr (by simp [rxByte, hp, huntByte])
  exact h1.trans (Steps.one (by simp) rfl (by simp [rxByte, sync2Byte]))

/-- A code other than 0x08 after the sync pair. -/
theorem Steps.otherCode {c : Config} {f : Framer} {code : Byte} {rest : List Byte} (hp : f.phase = .req)
    (hcode : code ≠ reqEnterFdc) (hr : f.rx = code :: rest) :
    Steps c 1 f (ignoreRequest code (f.withRx rest)) :=
  Steps.one (by simp [hp]) hr (by simp only [rxByte, Framer.withRx_phase, hp, reqByte, if_neg hcode])

/-- A frame of one command byte. -/
theorem Steps.plainCommand {c : Config} {f : Framer} {b : Byte} {rest : List Byte} (hp : f.phase = .cmd)
    (hr : f.rx = b :: rest) : Steps c 1 f (cmdByte b (f.withRx rest)) :=
  Steps.one (by simp [hp]) hr (by simp only [rxByte, Framer.withRx_phase, hp])

theorem cmdByte_Z (f : Framer) : cmdByte chZ f = { f with phase := .fz2 } := rfl

/-- The command byte `Z` and the byte after it. -/
theorem Steps.secondZ {c : Config} {f : Framer} {b : Byte} {rest : List Byte} (hp : f.phase = .cmd)
    (hr : f.rx = chZ :: b :: rest) : Steps c 2 f (fz2Byte b { f.withRx rest with phase := .fz2 }) :=
  (Steps.plainCommand hp hr).trans (Steps.one (by simp [cmdByte_Z]) rfl rfl)

/-- An unimplemented request ends alike in every phase. -/
theorem ignoreRequest_withPhase (code : Byte) (f : Framer) (p : Phase) :
    ignoreRequest code { f with phase := p } = ignoreRequest code f := by
  simp only [ignoreRequest, Framer.endCommand_eq]
  rfl

/-- A resync is its byte steps. -/
theorem Steps.resync {c : Config} {tail : ResyncTail} (hw : tailWellFormed tail = true) {f : Framer}
    {rest : List Byte} (hp : f.phase = .cmd) (hr : f.rx = (chZ :: encodeTail tail) ++ rest) :
    Steps c (chZ :: encodeTail tail).length f (runResync tail (f.withRx rest)) := by
  have hsecond (r : List Byte) (h : f.rx = chZ :: chZ :: r) :
      Steps c 2 f { f.withRx r with mode := .op, phase := .req } := Steps.secondZ hp h
  cases tail with
  | drop b =>
    have hb : b ≠ chZ := by simpa [tailWellFormed] using hw
    have := Steps.secondZ (c := c) hp hr
    simp only [fz2Byte, if_neg hb, Framer.endCommand_eq] at this
    simp only [runResync, fz2Byte, if_neg hb, Framer.endCommand_eq]
    exact this
  | enter payload ck =>
    have hl : payload.length ≤ 255 := by simpa [tailWellFormed] using hw
    have := (hsecond _ hr).trans (Steps.request c _ rfl payload ck rest hl rfl)
    rwa [Nat.add_comm] at this
  | ignore code =>
    have hcode : code ≠ reqEnterFdc := by simpa [tailWellFormed] using hw
    exact (hsecond _ hr).trans (Steps.otherCode rfl hcode rfl)

/-- An OpMode request is its byte steps. -/
theorem Steps.enterFdc {c : Config} {payload : List Byte} (ck : Byte) (hl : payload.length ≤ 255) {f : Framer}
    {rest : List Byte} (hp : f.phase = .hunt) (hr : f.rx = ([chZ, chZ] ++ encodeEnter payload ck) ++ rest) :
    Steps c ([chZ, chZ] ++ encodeEnter payload ck).length f (runRequest payload ck (f.withRx rest)) := by
  have := (Steps.syncPair hp hr).trans (Steps.request c _ rfl payload ck rest hl rfl)
  rwa [List.length_append]

theorem Steps.reqIgn {c : Config} {code : Byte} (hcode : code ≠ reqEnterFdc) {f : Framer} {rest : List Byte}
    (hp : f.phase = .hunt) (hr : f.rx = [chZ, chZ, code] ++ rest) :
    Steps c 3 f (ignoreRequest code (f.withRx rest)) := by
  rw [← ignoreRequest_withPhase code _ .req]
  exact (Steps.syncPair hp hr).trans (Steps.otherCode rfl hcode rfl)

theorem listedCommand_eq_false_iff (b : Byte) :
    listedCommand b = false ↔ b ≠ chCR ∧ b ≠ chZ ∧ b ≠ chF ∧ b ≠ chG ∧ b ≠ chA ∧ b ≠ chR ∧ b ≠ chS ∧
      b ≠ chB ∧ b ≠ chC ∧ b ≠ chW ∧ b ≠ chX ∧ b ≠ chM ∧ b ≠ chD := by
  simp only [listedCommand, List.contains_cons, List.contains_nil, Bool.or_false, Bool.or_eq_false_iff,
    beq_eq_false_iff_ne]

/-- A byte that is no listed command byte is ignored. -/
theorem cmdByte_unlisted {b : Byte} (h : listedCommand b = false) (f : Framer) : cmdByte b f = ignoreCommand b f := by
  obtain ⟨hCR, hZ, hF, hG, hA, hR, hS, hB, hC, hW, hX, hM, hD⟩ := (listedCommand_eq_false_iff b).1 h
  simp [cmdByte, *]

/-- A format frame is its byte steps. -/
theorem Steps.format {c : Config} {ch : Byte} {close : Framer → Framer} (hc : ch ∈ fdcpCommands)
    (hclose : ∀ g : Framer, g.cmd = ch → closeField c g = .ok (close g)) {fld : ParmField}
    (hw : fieldWellFormed fld = true) {f : Framer} {rest : List Byte} (hp : f.phase = .cmd)
    (hr : f.rx = encodeFdcp ch fld [] ++ rest) :
    Steps c (encodeFdcp ch fld []).length f (((f.withRx rest).startCommand ch).runField close fld) := by
  have := Steps.field c ch fld f rest hp hc hw (by simpa [encodeFdcp] using hr) close hclose
  rwa [show (encodeFdcp ch fld []).length = 1 + (encodeField fld).length by simp [encodeFdcp]; omega]

theorem phase_of_frameLang_opmode {p : Phase} (h : frameLang p = some .opmode) : p = .hunt := by
  cases p <;> cases h
  rfl

theorem phase_of_frameLang_fdc {p : Phase} (h : frameLang p = some .fdc) : p = .cmd := by
  cases p <;> cases h
  rfl

/-- For a well-formed frame at the head of RX exec changes only the framer, and the frame's byte steps reach the same
framer. -/
theorem exec_frame_steps {s : State} {i : Instr} {lang : Lang} {frame rest : List Byte} (hw : i.wellFormed = true)
    (hl : frameLang s.fr.phase = some lang) (he : encode i = .frame lang frame) (hr : s.fr.rx = frame ++ rest) :
    ∃ g, exec i { s with fr := s.fr.withRx rest } = .next { s with fr := g } ∧ Steps s.cfg frame.length s.fr g := by
  cases i <;> cases he <;> refine ⟨_, rfl, ?_⟩
  case enterFdc payload ck => exact Steps.enterFdc ck (of_decide_eq_true hw) (phase_of_frameLang_opmode hl) hr
  case reqIgn code => exact Steps.reqIgn (of_decide_eq_true hw) (phase_of_frameLang_opmode hl) hr
  all_goals have hp := phase_of_frameLang_fdc hl
  case hb => exact Steps.plainCommand hp hr
  case resync tail => exact Steps.resync hw hp hr
  case unsupM => exact Steps.plainCommand hp hr
  case unsupD => exact Steps.plainCommand hp hr
  case ign b =>
    have := Steps.plainCommand (c := s.cfg) hp hr
    rwa [cmdByte_unlisted (by simpa [Instr.wellFormed] using hw)] at this
  case fmtF fld => exact Steps.format (by decide) (fun g hg => by rw [closeField, hg]; rfl) hw hp hr
  case fmtG fld => exact Steps.format (by decide) (fun g hg => by rw [closeField, hg]; rfl) hw hp hr
  case rdid fld gate =>
    exact Steps.gatedFrame (by decide) (fun g hg => by rw [closeField, hg]; rfl)
      (fun b g hg => by rw [gateByte, hg]; rfl) hw hp hr
  case rdsec fld gate =>
    exact Steps.gatedFrame (by decide) (fun g hg => by rw [closeField, hg]; rfl)
      (fun b g hg => by rw [gateByte, hg]; rfl) hw hp hr
  case srchid fld id =>
    exact Steps.idFrame (by decide) (fun g hg => by rw [closeField, hg]; rfl) (fun v g hg => by rw [hg]; rfl) hw hp hr
  case wridB fld id =>
    exact Steps.idFrame (by decide) (fun g hg => by rw [closeField, hg]; rfl) (fun v g hg => by rw [hg]; rfl) hw hp hr
  case wridC fld id =>
    exact Steps.idFrame (by decide) (fun g hg => by rw [closeField, hg]; rfl) (fun v g hg => by rw [hg]; rfl) hw hp hr
  case wrsecW fld data =>
    exact Steps.dataFrame (by decide) (fun g hg => by rw [closeField, hg]; rfl) (fun v g hg => by rw [hg]; rfl) hw hp hr
  case wrsecX fld data =>
    exact Steps.dataFrame (by decide) (fun g hg => by rw [closeField, hg]; rfl) (fun v g hg => by rw [hg]; rfl) hw hp hr

/-- Settles O10: the chain of the frame's byte steps is the run of the block, since nothing is scheduled. -/
theorem frameEqualsItsBytes : Obligations.FrameEqualsItsBytes := by
  unfold Obligations.FrameEqualsItsBytes
  intro s i lang frame rest hw hs hl he hr
  obtain ⟨g, hexec, hsteps⟩ := exec_frame_steps hw hl he hr
  rw [hexec]
  exact hsteps.run hs

end Sys2Proof.Machine

namespace Sys2Proof

/-! ### What the frame decoder reads -/

theorem decodeOpmode_ok {bs rest : List Byte} {i : Instr} (h : decodeOpmode bs = .ok (i, rest)) :
    i.wellFormed = true ∧ ∃ frame, encode i = .frame .opmode frame ∧ bs = frame ++ rest := by
  unfold decodeOpmode at h
  split at h
  · cases h
  next b0 bs =>
    split_ifs at h with h0
    split at h
    · cases h
    next b1 bs =>
      split_ifs at h with h1
      obtain rfl : b0 = chZ := not_not.1 h0
      obtain rfl : b1 = chZ := not_not.1 h1
      rcases ht : decodeTail bs with e | ⟨tail, more⟩
      · rw [ht] at h; cases h
      · obtain ⟨hw, hbs, hdrop⟩ := decodeTail_ok ht
        rw [ht] at h
        cases tail with
        | drop b => exact absurd rfl (hdrop b)
        | enter payload ck => cases h; exact ⟨hw, _, rfl, congrArg (chZ :: ·) hbs⟩
        | ignore code => cases h; exact ⟨hw, _, rfl, congrArg (chZ :: ·) hbs⟩

theorem decodeResync_ok {bs rest : List Byte} {i : Instr} (h : decodeResync bs = .ok (i, rest)) :
    ∃ tail, i = .resync tail ∧ tailWellFormed tail = true ∧ bs = encodeTail tail ++ rest := by
  unfold decodeResync at h
  split at h
  · cases h
  next b bs =>
    split_ifs at h with hb
    · cases h
      exact ⟨.drop b, rfl, decide_eq_true hb, rfl⟩
    · obtain rfl : b = chZ := not_not.1 hb
      rcases ht : decodeTail bs with e | ⟨tail, more⟩
      · rw [ht] at h; cases h
      · obtain ⟨hw, hbs, _⟩ := decodeTail_ok ht
        rw [ht] at h
        cases h
        exact ⟨tail, rfl, hw, hbs⟩

theorem decodeFdc_ok {bs rest : List Byte} {i : Instr} (h : decodeFdc bs = .ok (i, rest)) :
    i.wellFormed = true ∧ ∃ frame, encode i = .frame .fdc frame ∧ bs = frame ++ rest := by
  unfold decodeFdc at h
  split at h
  · cases h
  next c bs =>
    have hformat {mk : ParmField → Instr} {ch : Byte} (h : decodeFormat mk bs = .ok (i, rest)) :
        ∃ fld, i = mk fld ∧ fieldWellFormed fld = true ∧ ch :: bs = encodeFdcp ch fld [] ++ rest := by
      obtain ⟨fld, rfl, hw, rfl⟩ := decodeFormat_ok h
      exact ⟨fld, rfl, hw, by simp [encodeFdcp]⟩
    have hgated {mk : ParmField → Option Byte → Instr} {ch : Byte} (h : decodeGated mk bs = .ok (i, rest)) :
        ∃ fld g, i = mk fld g ∧ dataWellFormed fld g.isSome = true ∧
          ch :: bs = encodeFdcp ch fld g.toList ++ rest := by
      obtain ⟨fld, g, rfl, hw, rfl⟩ := decodeGated_ok h
      exact ⟨fld, g, rfl, hw, rfl⟩
    have hdata {n : Nat} {mk : ParmField → Option (Bytes n) → Instr} {ch : Byte}
        (h : decodeData n mk bs = .ok (i, rest)) :
        ∃ fld d, i = mk fld d ∧ dataWellFormed fld d.isSome = true ∧
          ch :: bs = encodeFdcp ch fld (optBytes d) ++ rest := by
      obtain ⟨fld, d, rfl, hw, rfl⟩ := decodeData_ok h
      exact ⟨fld, d, rfl, hw, rfl⟩
    by_cases hCR : c = chCR
    · subst hCR; rw [if_pos rfl] at h; cases h; exact ⟨rfl, _, rfl, rfl⟩
    rw [if_neg hCR] at h
    by_cases hZ : c = chZ
    · subst hZ; rw [if_pos rfl] at h; obtain ⟨tail, rfl, hw, rfl⟩ := decodeResync_ok h; exact ⟨hw, _, rfl, rfl⟩
    rw [if_neg hZ] at h
    by_cases hF : c = chF
    · subst hF; rw [if_pos rfl] at h; obtain ⟨fld, rfl, hw, hbs⟩ := hformat h; exact ⟨hw, _, rfl, hbs⟩
    rw [if_neg hF] at h
    by_cases hG : c = chG
    · subst hG; rw [if_pos rfl] at h; obtain ⟨fld, rfl, hw, hbs⟩ := hformat h; exact ⟨hw, _, rfl, hbs⟩
    rw [if_neg hG] at h
    by_cases hA : c = chA
    · subst hA; rw [if_pos rfl] at h; obtain ⟨fld, g, rfl, hw, hbs⟩ := hgated h; exact ⟨hw, _, rfl, hbs⟩
    rw [if_neg hA] at h
    by_cases hR : c = chR
    · subst hR; rw [if_pos rfl] at h; obtain ⟨fld, g, rfl, hw, hbs⟩ := hgated h; exact ⟨hw, _, rfl, hbs⟩
    rw [if_neg hR] at h
    by_cases hS : c = chS
    · subst hS; rw [if_pos rfl] at h; obtain ⟨fld, d, rfl, hw, hbs⟩ := hdata h; exact ⟨hw, _, rfl, hbs⟩
    rw [if_neg hS] at h
    by_cases hB : c = chB
    · subst hB; rw [if_pos rfl] at h; obtain ⟨fld, d, rfl, hw, hbs⟩ := hdata h; exact ⟨hw, _, rfl, hbs⟩
    rw [if_neg hB] at h
    by_cases hC : c = chC
    · subst hC; rw [if_pos rfl] at h; obtain ⟨fld, d, rfl, hw, hbs⟩ := hdata h; exact ⟨hw, _, rfl, hbs⟩
    rw [if_neg hC] at h
    by_cases hW : c = chW
    · subst hW; rw [if_pos rfl] at h; obtain ⟨fld, d, rfl, hw, hbs⟩ := hdata h; exact ⟨hw, _, rfl, hbs⟩
    rw [if_neg hW] at h
    by_cases hX : c = chX
    · subst hX; rw [if_pos rfl] at h; obtain ⟨fld, d, rfl, hw, hbs⟩ := hdata h; exact ⟨hw, _, rfl, hbs⟩
    rw [if_neg hX] at h
    by_cases hM : c = chM
    · subst hM; rw [if_pos rfl] at h; cases h; exact ⟨rfl, _, rfl, rfl⟩
    rw [if_neg hM] at h
    by_cases hD : c = chD
    · subst hD; rw [if_pos rfl] at h; cases h; exact ⟨rfl, _, rfl, rfl⟩
    rw [if_neg hD] at h
    cases h
    have hlisted := (Machine.listedCommand_eq_false_iff c).2
      ⟨hCR, hZ, hF, hG, hA, hR, hS, hB, hC, hW, hX, hM, hD⟩
    exact ⟨congrArg Bool.not hlisted, _, rfl, rfl⟩

/-- What is read from a stream is a well-formed instruction, and its encoding is exactly the bytes read. -/
theorem decodeFrame_ok {lang : Lang} {bs rest : List Byte} {i : Instr} (h : decodeFrame lang bs = .ok (i, rest)) :
    i.wellFormed = true ∧ ∃ frame, encode i = .frame lang frame ∧ bs = frame ++ rest := by
  cases lang with
  | opmode => exact decodeOpmode_ok h
  | fdc => exact decodeFdc_ok h

end Sys2Proof

namespace Sys2Proof.Machine

/-! ### What one step of the block can do -/

/-- A property that every byte keeps holds after a chain of byte steps. -/
theorem Steps.keeps {c : Config} {P : Framer → Prop}
    (hbyte : ∀ (f g : Framer) (b : Byte) (rest : List Byte), P f → rxByte c b (f.withRx rest) = .ok g → P g)
    {n : Nat} {f g : Framer} (h : Steps c n f g) (hf : P f) : P g := by
  induction n generalizing f with
  | zero => cases h; exact hf
  | succ n ih =>
    obtain ⟨b, rest, f', _, _, hx, h⟩ := h
    exact ih h (hbyte f f' b rest hf hx)

/-- What a codec request can do to the codec: it succeeds with a result, fails with a status, or is a `REPL` that
writes the span of the slot it found. -/
inductive CodecEffect (c : Config) (i : Instr) (k : Codec) : Codec → Prop
  | succeeded (r : Result) : CodecEffect c i k (k.succeed r)
  | failed (st : Status) : CodecEffect c i k (k.fail st)
  | replaced (n : Nat) (grid : Grid) (slot : SlotRecord) (hi : i = .repl n grid)
      (hslot : lookupSlot c k.blob n = .ok (some slot)) (hrows : grid.rows = slot.rows)
      (hstitches : grid.stitches = slot.stitches)
      (hspan : spanInBlob c.blobLen (slot.patternEndOffset + 1) slot.memoOffset = true) :
      CodecEffect c i k (k.commitSpan c.guard n slot grid)

theorem CodecEffect.finish {c : Config} {i : Instr} (k : Codec) (r : Except Status Result) :
    CodecEffect c i k (k.finish r) := by
  cases r with
  | ok v => exact .succeeded v
  | error st => exact .failed st

theorem CodecEffect.repl {c : Config} (k : Codec) (n : Nat) (grid : Grid) :
    CodecEffect c (.repl n grid) k (replacePattern c n grid k) := by
  rcases replacePattern_cases c n grid k with ⟨st, _, e⟩ | ⟨slot, hslot, hrows, hstitches, hspan, e⟩
  · rw [e]; exact .failed st
  · rw [e]; exact .replaced n grid slot rfl hslot hrows hstitches hspan

/-- A request's instruction is a codec operation. -/
theorem encode_decodeRequest (q : CodecReq) : ∃ q', encode (decodeRequest q) = .request q' := by
  unfold decodeRequest
  split_ifs <;> exact ⟨_, rfl⟩

/-- A codec operation always answers, and acts on the codec alone. -/
theorem exec_request_effect {i : Instr} {q : CodecReq} (he : encode i = .request q) (s : State) :
    ∃ k, exec i s = .next { s with co := k } ∧ CodecEffect s.cfg i s.co k := by
  cases i <;> cases he <;> refine ⟨_, rfl, ?_⟩
  case bfm => exact .succeeded _
  case npr => exact .succeeded _
  case bpp => exact .succeeded _
  case tdec => exact .finish _ _
  case lookup => exact .finish _ _
  case bdec => exact .finish _ _
  case mdec => exact .finish _ _
  case benc => exact .succeeded _
  case repl n grid => exact .repl _ _ _
  case codecReserved => exact .failed _

/-- The codec's step: an idle step without a request, else the next request's effect. -/
theorem codecStep_cases (s : State) :
    (s.co.req = [] ∧ codecStep s = .next s) ∨
      ∃ q rest k, s.co.req = q :: rest ∧ codecStep s = .next { s with co := k } ∧
        CodecEffect s.cfg (decodeRequest q) (s.co.withReq rest) k := by
  cases hq : s.co.req with
  | nil => exact .inl ⟨rfl, by simp only [codecStep, hq]⟩
  | cons q rest =>
    obtain ⟨q', he⟩ := encode_decodeRequest q
    obtain ⟨k, hexec, heffect⟩ := exec_request_effect he { s with co := s.co.withReq rest }
    exact .inr ⟨q, rest, k, rfl, by simp only [codecStep, hq, hexec], heffect⟩

/-- The frame step: that of one byte, or a chain of byte steps taken at once (log 1). -/
theorem framerFrameStep_cases (s : State) :
    framerFrameStep s = framerByteStep s ∨
      ∃ n g, framerFrameStep s = .next { s with fr := g } ∧ Steps s.cfg n s.fr g := by
  unfold framerFrameStep
  rcases hl : frameLang s.fr.phase with _ | lang
  · exact .inl rfl
  · rcases hd : decodeFrame lang s.fr.rx with e | ⟨i, rest⟩
    · exact .inl (by simp only [hd])
    · obtain ⟨hw, frame, he, hr⟩ := decodeFrame_ok hd
      obtain ⟨g, hexec, hsteps⟩ := exec_frame_steps hw hl he hr
      exact .inr ⟨_, g, by simp only [hd, hexec], hsteps⟩

/-- Everything a turn can do: byte steps of the framer, a codec request, the reset input, a load of the blob. An idle
turn is a chain of no byte steps. -/
inductive TurnEffect (s : State) : State → Prop
  | framer {n : Nat} {g : Framer} (h : Steps s.cfg n s.fr g) : TurnEffect s { s with fr := g }
  | codec {q : CodecReq} {rest : List CodecReq} {k : Codec} (hq : s.co.req = q :: rest)
      (h : CodecEffect s.cfg (decodeRequest q) (s.co.withReq rest) k) : TurnEffect s { s with co := k }
  | reset : TurnEffect s s.applyReset
  | load (bytes : List Byte) : TurnEffect s (s.onCodec (Codec.load s.cfg.blobLen bytes))

theorem TurnEffect.idle (s : State) : TurnEffect s s := .framer (n := 0) rfl

theorem framerByteStep_effect {s t : State} (h : framerByteStep s = .next t) : TurnEffect s t := by
  rcases framerByteStep_next h with ⟨_, rfl⟩ | ⟨b, rest, f, hp, hr, hx, rfl⟩
  · exact .idle _
  · exact .framer (.one hp hr hx)

theorem takeTurn_effect {turn : Turn} {s t : State} (h : takeTurn turn s = .next t) : TurnEffect s t := by
  cases turn with
  | framerByte => exact framerByteStep_effect h
  | framerFrame =>
    rcases framerFrameStep_cases s with e | ⟨n, g, e, hsteps⟩
    · exact framerByteStep_effect (e ▸ h)
    · rw [takeTurn, e] at h; cases h; exact .framer hsteps
  | codec =>
    rcases codecStep_cases s with ⟨_, e⟩ | ⟨q, rest, k, hq, e, heffect⟩
    · rw [takeTurn, e] at h; cases h; exact .idle _
    · rw [takeTurn, e] at h; cases h; exact .codec hq heffect
  | reset => cases h; exact .reset
  | loadBlob bytes => cases h; exact .load bytes

/-- A turn answers a next state when the framer's byte step does: no other turn faults, and none is refused. -/
theorem takeTurn_answers {s : State} (hbyte : ∃ t, framerByteStep s = .next t) (turn : Turn) :
    ∃ t, takeTurn turn s = .next t := by
  cases turn with
  | framerByte => exact hbyte
  | framerFrame =>
    rcases framerFrameStep_cases s with e | ⟨n, g, e, _⟩
    · obtain ⟨t, ht⟩ := hbyte
      exact ⟨t, e.trans ht⟩
    · exact ⟨_, e⟩
  | codec =>
    rcases codecStep_cases s with ⟨_, e⟩ | ⟨q, rest, k, _, e, _⟩
    · exact ⟨_, e⟩
    · exact ⟨_, e⟩
  | reset => exact ⟨_, rfl⟩
  | loadBlob bytes => exact ⟨_, rfl⟩

/-- A step is a turn, scheduled or default, with the schedule advanced. -/
theorem step_eq_takeTurn (s : State) : ∃ turn turns, step s = takeTurn turn { s with sched := turns } := by
  unfold step
  split
  · exact ⟨defaultTurn s, s.sched, rfl⟩
  · exact ⟨_, _, rfl⟩

/-- Everything a step can do. -/
theorem step_effect {s t : State} (h : step s = .next t) : ∃ turns, TurnEffect { s with sched := turns } t := by
  obtain ⟨turn, turns, e⟩ := step_eq_takeTurn s
  exact ⟨turns, takeTurn_effect (e ▸ h)⟩

/-- Settles O13: every effect of a turn keeps the parameters. -/
theorem parametersNeverChange : Obligations.ParametersNeverChange := by
  unfold Obligations.ParametersNeverChange
  intro s t h
  obtain ⟨turns, heffect⟩ := step_effect h
  cases heffect <;> rfl

/-! ### The output -/

@[simp] theorem Framer.endCommand_out (f : Framer) : f.endCommand.out = f.out := by rw [Framer.endCommand_eq]

/-- A byte only appends to the output. -/
theorem rxByte_appends {c : Config} {b : Byte} {f g : Framer} (h : rxByte c b f = .ok g) : f.out <+: g.out := by
  cases rxByte_effect h with
  | quiet _ ho => rw [ho]
  | opened _ _ _ _ _ ho => rw [ho]; exact List.prefix_append _ _
  | wroteOdd =>
    simp only [Framer.endCommand_out, Framer.send_out, List.append_assoc]
    exact List.prefix_append _ _
  | _ => simp

/-- Settles O14: a byte appends, and no other effect of a turn touches the output. -/
theorem outputIsOnlyAppended : Obligations.OutputIsOnlyAppended := by
  unfold Obligations.OutputIsOnlyAppended
  intro s t h
  obtain ⟨turns, heffect⟩ := step_effect h
  suffices s.fr.out <+: t.fr.out from this.imp fun _ e => e.symm
  cases heffect with
  | framer hsteps =>
    refine hsteps.keeps (P := fun g => s.fr.out <+: g.out) (fun f g b rest hf hx => ?_) List.prefix_rfl
    exact hf.trans (rxByte_appends (f := f.withRx rest) hx)
  | codec | reset | load => exact List.prefix_rfl

/-! ### The mode -/

/-- A command's end changes the mode only by the forced return of a format's chain. -/
theorem Framer.endCommand_mode_changed {f : Framer} (h : f.endCommand.mode ≠ f.mode) :
    f.chain = true ∧ f.forceOp = true ∧ f.endCommand.chain = false ∧ f.endCommand.mode = .op := by
  rw [Framer.endCommand_eq] at h ⊢
  cases hc : f.chain <;> cases hf : f.forceOp <;> simp_all

/-- Settles O18, by the effects of one byte. -/
theorem modeChangesInThreePlaces : Obligations.ModeChangesInThreePlaces := by
  unfold Obligations.ModeChangesInThreePlaces
  intro s t b rest h hr hmode
  rcases framerByteStep_next h with ⟨_, rfl⟩ | ⟨b', rest', f, _, hr', hx, rfl⟩
  · exact absurd rfl hmode
  obtain ⟨rfl, rfl⟩ : b = b' ∧ rest = rest' := List.cons_eq_cons.1 (hr.symm.trans hr')
  cases rxByte_effect hx with
  | quiet _ _ _ _ hm => exact absurd hm hmode
  | accept hp hb => exact .inl ⟨hp, hb⟩
  | resync hp hb => exact .inr (.inl ⟨hp, hb⟩)
  | format | storageError | wroteId => exact absurd rfl hmode
  | opened _ _ _ _ _ _ _ _ hm => exact absurd hm hmode
  | _ => exact .inr (.inr (Framer.endCommand_mode_changed hmode))

/-! ### The blob -/

/-- Settles O58, by the effects of one request. -/
theorem onlyReplaceWritesTheBlob : Obligations.OnlyReplaceWritesTheBlob := by
  unfold Obligations.OnlyReplaceWritesTheBlob
  intro s t h hreq
  rcases codecStep_cases s with ⟨hnone, _⟩ | ⟨q, rest, k, hq, e, heffect⟩
  · exact absurd hnone hreq
  rw [e] at h
  cases h
  cases heffect with
  | succeeded r => exact ⟨fun hblob => absurd rfl hblob, fun hst => absurd rfl hst⟩
  | failed st => exact ⟨fun hblob => absurd rfl hblob, fun _ => ⟨rfl, rfl⟩⟩
  | replaced n grid slot hi => exact ⟨fun _ => ⟨q, rest, n, grid, hq, hi, rfl⟩, fun hst => absurd rfl hst⟩

/-- Settles O59: a load is one range write of the bytes that fit. -/
theorem hostLoadFillsTheBlobFromItsStart : Obligations.HostLoadFillsTheBlobFromItsStart := by
  unfold Obligations.HostLoadFillsTheBlobFromItsStart
  intro s turns bytes hs
  refine ⟨memWriteRange s.co.blob 0 (bytes.take s.cfg.blobLen), by rw [step, hs]; rfl, fun a => ?_⟩
  rw [memRead_memWriteRange]
  by_cases ha : a < bytes.length ∧ a < s.cfg.blobLen
  · simp [ha]
  · rw [if_neg ha, dif_neg (by rw [List.length_take]; omega)]

/-! ### The turns -/

/-- Settles O6. -/
theorem stepRunsTheDecodedFrame : Obligations.StepRunsTheDecodedFrame := by
  unfold Obligations.StepRunsTheDecodedFrame
  intro s turns lang i rest hs hl hd
  have hd' : decodeFrame lang s.fr.rx = .ok (i, rest) := hd
  simp only [step, hs, takeTurn, framerFrameStep, hl, hd']

/-- With no framer step enabled the default turn is the codec's. -/
theorem defaultTurn_codec {s : State} (h : s.fr.phase = .halt ∨ s.fr.rx = []) : defaultTurn s = .codec := by
  rcases h with h | h <;> simp [defaultTurn, Framer.enabled, h]

/-- Settles O7: both kinds of codec turn take the next request. -/
theorem stepServesTheNextRequest : Obligations.StepServesTheNextRequest := by
  unfold Obligations.StepServesTheNextRequest
  intro s q rest turns hq
  constructor
  · intro hs hidle
    simp only [step, hs, defaultTurn_codec hidle, takeTurn, codecStep, hq]
  · intro hs
    simp only [step, hs, takeTurn, codecStep, hq]

/-- Settles O8: both kinds of byte turn take the framer's byte step. -/
theorem stepConsumesOneByte : Obligations.StepConsumesOneByte := by
  unfold Obligations.StepConsumesOneByte
  intro s turns b rest hnext hp hr f hx
  have hstep (ts : List Turn) : framerByteStep { s with sched := ts } = .next { s with sched := ts, fr := f } :=
    (framerByteStep_byte { s with sched := ts } b rest hp hr).trans (by simp only [hx])
  rcases hnext with ⟨hs, rfl⟩ | hs
  · have hturn : defaultTurn s = .framerByte := by simp [defaultTurn, Framer.enabled, hp, hr]
    have := hstep s.sched
    simp only [step, hs, hturn, takeTurn]
    rw [← hs]
    exact this
  · simp only [step, hs]
    exact hstep turns

/-- Settles O9: the default turn is the codec's, and the codec has no request. -/
theorem waitingBlockIdles : Obligations.WaitingBlockIdles := by
  unfold Obligations.WaitingBlockIdles
  intro s hs hidle hq
  simp only [step, hs, defaultTurn_codec hidle, takeTurn, codecStep, hq]

end Sys2Proof.Machine

namespace Sys2Proof.Machine

/-! ### The framer's legal states, phase by phase -/

/-- The part of `Framer.Inv` that holds whatever the phase. -/
structure Framer.RegistersLegal (c : Config) (f : Framer) : Prop where
  data_wf : Memory.wf f.data = true
  data_within : Memory.within (nSect * sectBytes) f.data = true
  ids_wf : Memory.wf f.ids = true
  ids_within : Memory.within (nSect * idBytes) f.ids = true
  force_chained : f.forceOp = true → f.chain = true
  cmd_legal : f.cmd = 0#8 ∨ f.cmd ∈ fdcpCommands
  bps_legal : f.bps = bpsDefault ∨ f.bps ∈ c.bpsTable
  remain_max : f.reqRemain ≤ 255
  buf_count : f.bufCount = f.buf.length
  buf_max : f.bufCount ≤ 1024
  track_max : f.lastTrack ≤ 40

/-- The part of `Framer.Inv` that depends on the phase (10_state.md R21). -/
def Framer.PhaseLegal (f : Framer) : Prop :=
  match f.phase with
  | .hunt | .sync2 => f.mode = .op ∧ f.chain = false ∧ f.fault = .none
  | .req | .len | .cks => f.mode = .op ∧ f.fault = .none
  | .pay => f.mode = .op ∧ 1 ≤ f.reqRemain ∧ f.fault = .none
  | .cmd | .fz2 => f.mode = .fdc ∧ f.fault = .none
  | .parm => f.mode = .fdc ∧ f.cmd ∈ fdcpCommands ∧ f.fault = .none
  | .gate => f.mode = .fdc ∧ (f.cmd = chA ∨ f.cmd = chR) ∧ f.psn ≤ psnMaxRender ∧ f.fault = .none
  | .idin => f.mode = .fdc ∧ (f.cmd = chS ∨ f.cmd = chB ∨ f.cmd = chC) ∧ f.psn ≤ psnMaxRender ∧
      f.bufCount < 12 ∧ f.fault = .none
  | .datin => f.mode = .fdc ∧ (f.cmd = chW ∨ f.cmd = chX) ∧ f.psn ≤ psnMaxRender ∧
      f.bufCount < 1024 ∧ f.fault = .none
  | .halt => f.fault ≠ .none

theorem Framer.Inv.phaseLegal {c : Config} {f : Framer} (h : f.Inv c) : f.PhaseLegal := by
  obtain ⟨_, _, _, _, hop, hfdc, hhunt, _, _, hparm, hgate, hidin, hdatin, _, hpsn, _, hpay, _, _, hid, hdata, _,
    hfault⟩ := h
  unfold Framer.PhaseLegal
  cases hp : f.phase <;> simp_all [Phase.inOp, Phase.inFdc]

/-- The legal states as the registers' ranges and what the phase asks. -/
theorem Framer.inv_iff (c : Config) (f : Framer) : f.Inv c ↔ f.RegistersLegal c ∧ f.PhaseLegal := by
  refine ⟨fun h => ⟨{ h with }, h.phaseLegal⟩, fun ⟨h, hp⟩ => ?_⟩
  unfold Framer.PhaseLegal at hp
  constructor
  case data_wf => exact h.data_wf
  case data_within => exact h.data_within
  case ids_wf => exact h.ids_wf
  case ids_within => exact h.ids_within
  case force_chained => exact h.force_chained
  case cmd_legal => exact h.cmd_legal
  case bps_legal => exact h.bps_legal
  case remain_max => exact h.remain_max
  case buf_count => exact h.buf_count
  case buf_max => exact h.buf_max
  case track_max => exact h.track_max
  all_goals cases hph : f.phase <;> simp_all [Phase.inOp, Phase.inFdc]

section Updates

variable {c : Config} {f : Framer}

/-! An update that writes none of the registers above keeps their ranges. -/

theorem Framer.RegistersLegal.send (h : f.RegistersLegal c) (bs : List Byte) : (f.send bs).RegistersLegal c :=
  { h with }

theorem Framer.RegistersLegal.note (h : f.RegistersLegal c) (r : LogRecord) : (f.note r).RegistersLegal c := { h with }

theorem Framer.RegistersLegal.receive (h : f.RegistersLegal c) {bs : List Byte} (hl : f.bufCount + bs.length ≤ 1024) :
    (f.receive bs).RegistersLegal c :=
  { h with
    buf_count := by simp [h.buf_count]
    buf_max := hl }

/-- A command's end leaves a legal framer, whatever the mode and the phase were. -/
theorem Framer.RegistersLegal.endCommand (h : f.RegistersLegal c) (hf : f.fault = .none) : f.endCommand.Inv c := by
  rw [Framer.endCommand_eq, Framer.inv_iff]
  constructor
  · refine { h with force_chained := ?_ }
    have := h.force_chained
    cases hfo : f.forceOp <;> cases hch : f.chain <;> simp_all
  · unfold Framer.PhaseLegal
    cases f.chain <;> cases f.forceOp <;> cases f.mode <;> simp [hf]

/-- A command that leaves a chain open leaves a legal framer. -/
theorem Framer.RegistersLegal.chainNext (h : f.RegistersLegal c) (hm : f.mode = .fdc) (hf : f.fault = .none)
    (isFormat : Bool) : (f.chainNext isFormat).Inv c :=
  (Framer.inv_iff ..).2 ⟨{ h with force_chained := fun _ => rfl }, hm, hf⟩

/-- A halt leaves a legal framer. -/
theorem Framer.RegistersLegal.halt (h : f.RegistersLegal c) {cause : Cause} (hc : cause ≠ .none) :
    (f.halt cause).Inv c :=
  (Framer.inv_iff ..).2 ⟨{ h with }, hc⟩

theorem Framer.RegistersLegal.storageFail (h : f.RegistersLegal c) : f.storageFail.Inv c :=
  (h.send wordStorageError).halt (by decide)

theorem Framer.RegistersLegal.formatAll (h : f.RegistersLegal c) : f.formatAll.RegistersLegal c :=
  { h with
    data_wf := Memory.wf_memZeroRange _ h.data_wf _ _
    data_within := Memory.within_memZeroRange _ _ h.data_within _ _
    ids_wf := Memory.wf_memZeroRange _ h.ids_wf _ _
    ids_within := Memory.within_memZeroRange _ _ h.ids_within _ _ }

/-- The bytes per sector a format selects are the default or an entry of the table. -/
theorem bpsOf_legal (table : List Nat) (fld : List (Option Nat)) :
    bpsOf table fld = bpsDefault ∨ bpsOf table fld ∈ table := by
  unfold bpsOf
  split
  · split_ifs
    · next v _ =>
      rcases lt_or_ge v table.length with hv | hv
      · exact .inr (by rw [List.getD_eq_getElem _ _ hv]; exact List.getElem_mem hv)
      · exact .inl (List.getD_eq_default _ _ hv)
    · exact .inl rfl
  · exact .inl rfl

/-- A payload bound for one sector stays within the 80 sectors. -/
theorem Framer.RegistersLegal.sectWrite {g : Framer} (h : f.RegistersLegal c) {p : Nat} {d : Bytes 1024}
    (hw : f.sectWrite p d = .ok g) : g.RegistersLegal c ∧ g.fault = f.fault := by
  have hdata (hp : p < nSect) : Memory.wf (memWriteRange f.data (p * sectBytes) d.val) = true ∧
      Memory.within (nSect * sectBytes) (memWriteRange f.data (p * sectBytes) d.val) = true :=
    ⟨Memory.wf_memWriteRange _ h.data_wf _ _, Memory.within_memWriteRange _ _ h.data_within _ _ (by
      simp only [d.2, nSect, sectBytes] at hp ⊢; omega)⟩
  rcases f.sectWrite_cases p d with ⟨_, e⟩ | ⟨hp, _, e⟩ | ⟨hp, _, g', rfl, e⟩ <;> rw [e] at hw <;> cases hw
  · exact ⟨{ h with data_wf := (hdata hp).1, data_within := (hdata hp).2 }, rfl⟩
  · refine ⟨{ h with data_wf := (hdata hp).1, data_within := (hdata hp).2, track_max := ?_ }, rfl⟩
    simp only [nSect] at hp ⊢
    omega

theorem Framer.RegistersLegal.idWrite {g : Framer} (h : f.RegistersLegal c) {p : Nat} {v : Bytes 12}
    (hw : f.idWrite p v = .ok g) : g.RegistersLegal c ∧ g.mode = f.mode ∧ g.fault = f.fault := by
  rcases f.idWrite_cases p v with ⟨_, e⟩ | ⟨hp, e⟩ <;> rw [e] at hw <;> cases hw
  refine ⟨{ h with ids_wf := Memory.wf_memWriteRange _ h.ids_wf _ _, ids_within := ?_ }, rfl, rfl⟩
  exact Memory.within_memWriteRange _ _ h.ids_within _ _ (by simp only [v.2, nSect, idBytes] at hp ⊢; omega)

end Updates

/-! ### The rule of each phase keeps the legal states -/

section Bytes

variable {c : Config} {f : Framer}

theorem huntByte_inv (b : Byte) (h : f.RegistersLegal c) (hm : f.mode = .op) (hc : f.chain = false)
    (hf : f.fault = .none) : (huntByte b f).Inv c := by
  unfold huntByte
  split_ifs
  · exact (Framer.inv_iff ..).2 ⟨{ h with }, hm, hc, hf⟩
  · exact (Framer.inv_iff ..).2 ⟨{ h with }, hm, hc, hf⟩

theorem sync2Byte_inv (b : Byte) (h : f.RegistersLegal c) (hm : f.mode = .op) (hc : f.chain = false)
    (hf : f.fault = .none) : (sync2Byte b f).Inv c := by
  unfold sync2Byte
  split_ifs
  · exact (Framer.inv_iff ..).2 ⟨{ h with }, hm, hf⟩
  · exact (Framer.inv_iff ..).2 ⟨{ h with }, hm, hc, hf⟩

theorem reqByte_inv (b : Byte) (h : f.RegistersLegal c) (hm : f.mode = .op) (hf : f.fault = .none) :
    (reqByte b f).Inv c := by
  unfold reqByte
  split_ifs
  · exact (Framer.inv_iff ..).2 ⟨{ h with }, hm, hf⟩
  · exact (h.note _).endCommand hf

theorem lenByte_inv (b : Byte) (h : f.RegistersLegal c) (hm : f.mode = .op) (hf : f.fault = .none) :
    (lenByte b f).Inv c := by
  refine (Framer.inv_iff ..).2 ⟨{ h with remain_max := ?_ }, ?_⟩
  · exact Nat.le_of_lt_succ b.isLt
  · by_cases hb : b = 0#8
    · simp [Framer.PhaseLegal, lenByte, hb, hm, hf]
    · have : b.toNat ≠ 0 := fun h0 => hb (BitVec.eq_of_toNat_eq h0)
      simp [Framer.PhaseLegal, lenByte, hb, hm, hf]
      omega

theorem payByte_inv (b : Byte) (h : f.RegistersLegal c) (hph : f.phase = .pay) (hm : f.mode = .op)
    (hf : f.fault = .none) : (payByte b f).Inv c := by
  refine (Framer.inv_iff ..).2 ⟨{ h with remain_max := (Nat.sub_le _ 1).trans h.remain_max }, ?_⟩
  by_cases hn : f.reqRemain - 1 = 0
  · simp [Framer.PhaseLegal, payByte, hn, hm, hf]
  · simp [Framer.PhaseLegal, payByte, hn, hm, hf, hph]
    omega

theorem cksByte_inv (b : Byte) (h : f.RegistersLegal c) (hf : f.fault = .none) : (cksByte b f).Inv c := by
  unfold cksByte
  split_ifs
  · exact Framer.RegistersLegal.endCommand { h with } hf
  · exact (h.note _).endCommand hf

theorem cmdByte_inv (b : Byte) (h : f.RegistersLegal c) (hm : f.mode = .fdc) (hf : f.fault = .none) :
    (cmdByte b f).Inv c := by
  unfold cmdByte
  split_ifs with _ _ hfdcp
  · exact (h.send _).endCommand hf
  · exact (Framer.inv_iff ..).2 ⟨{ h with }, hm, hf⟩
  · have hb : b ∈ fdcpCommands := List.contains_iff_mem.1 hfdcp
    exact (Framer.inv_iff ..).2 ⟨{ h with cmd_legal := .inr hb }, hm, hb, hf⟩
  · exact h.halt (by decide)
  · exact h.halt (by decide)
  · exact (h.note _).endCommand hf

theorem fz2Byte_inv (b : Byte) (h : f.RegistersLegal c) (hf : f.fault = .none) : (fz2Byte b f).Inv c := by
  unfold fz2Byte
  split_ifs
  · exact (Framer.inv_iff ..).2 ⟨{ h with }, rfl, hf⟩
  · exact (h.note _).endCommand hf

/-- A format command's field completion. -/
theorem closeFormat_inv (word : List Byte) (h : f.RegistersLegal c) (hm : f.mode = .fdc) (hf : f.fault = .none) :
    (f.closeFormat c word).Inv c :=
  have hbps : ({ f with bps := bpsOf c.bpsTable f.field } : Framer).RegistersLegal c :=
    { h with bps_legal := bpsOf_legal _ _ }
  (hbps.formatAll.send word).chainNext hm hf true

/-- The field completion of the other commands, when their handler keeps the legal states. -/
theorem closePsn_inv {opn : Framer → Framer} (h : f.RegistersLegal c)
    (hopn : ∀ g : Framer, g.RegistersLegal c → g.mode = f.mode → g.cmd = f.cmd → g.fault = f.fault →
      g.psn ≤ psnMaxRender → (opn g).Inv c) : (f.closePsn opn).Inv c := by
  rcases Framer.closePsn_cases opn f with ⟨_, e⟩ | ⟨hpsn, e⟩ <;> rw [e]
  · exact (Framer.inv_iff ..).2 ⟨{ h with }, by simp [Framer.PhaseLegal]⟩
  · exact hopn _ { h with } rfl rfl rfl hpsn

theorem awaitGate_inv (h : f.RegistersLegal c) (hm : f.mode = .fdc) (hc : f.cmd = chA ∨ f.cmd = chR)
    (hpsn : f.psn ≤ psnMaxRender) (hf : f.fault = .none) : f.awaitGate.Inv c :=
  (Framer.inv_iff ..).2 ⟨{ h with }, hm, hc, hpsn, hf⟩

theorem awaitId_inv (h : f.RegistersLegal c) (hm : f.mode = .fdc) (hc : f.cmd = chS ∨ f.cmd = chB ∨ f.cmd = chC)
    (hpsn : f.psn ≤ psnMaxRender) (hf : f.fault = .none) : (f.awaitPayload .idin).Inv c :=
  (Framer.inv_iff ..).2 ⟨{ h with buf_count := rfl, buf_max := Nat.zero_le _ }, hm, hc, hpsn, by simp, hf⟩

theorem awaitData_inv (h : f.RegistersLegal c) (hm : f.mode = .fdc) (hc : f.cmd = chW ∨ f.cmd = chX)
    (hpsn : f.psn ≤ psnMaxRender) (hf : f.fault = .none) : (f.awaitPayload .datin).Inv c :=
  (Framer.inv_iff ..).2 ⟨{ h with buf_count := rfl, buf_max := Nat.zero_le _ }, hm, hc, hpsn, by simp, hf⟩

/-- The CR of a field finds a handler, which keeps the legal states. -/
theorem closeField_inv (h : f.RegistersLegal c) (hm : f.mode = .fdc) (hc : f.cmd ∈ fdcpCommands)
    (hf : f.fault = .none) : ∃ g, closeField c f = .ok g ∧ g.Inv c := by
  have hgate (hcmd : f.cmd = chA ∨ f.cmd = chR) : (f.closePsn Framer.awaitGate).Inv c :=
    closePsn_inv h fun g hg gm gc gf hpsn => awaitGate_inv hg (gm.trans hm) (gc ▸ hcmd) hpsn (gf.trans hf)
  have hid (hcmd : f.cmd = chS ∨ f.cmd = chB ∨ f.cmd = chC) : (f.closePsn (Framer.awaitPayload .idin)).Inv c :=
    closePsn_inv h fun g hg gm gc gf hpsn => awaitId_inv hg (gm.trans hm) (gc ▸ hcmd) hpsn (gf.trans hf)
  have hdata (hcmd : f.cmd = chW ∨ f.cmd = chX) : (f.closePsn (Framer.awaitPayload .datin)).Inv c :=
    closePsn_inv h fun g hg gm gc gf hpsn => awaitData_inv hg (gm.trans hm) (gc ▸ hcmd) hpsn (gf.trans hf)
  simp only [fdcpCommands, List.mem_cons, List.not_mem_nil, or_false] at hc
  obtain hF | hG | hA | hR | hS | hB | hC | hW | hX := hc
  · exact ⟨_, by rw [closeField, hF]; rfl, closeFormat_inv wordFormat h hm hf⟩
  · exact ⟨_, by rw [closeField, hG]; rfl, closeFormat_inv wordOk h hm hf⟩
  · exact ⟨_, by rw [closeField, hA]; rfl, hgate (.inl hA)⟩
  · exact ⟨_, by rw [closeField, hR]; rfl, hgate (.inr hR)⟩
  · exact ⟨_, by rw [closeField, hS]; rfl, hid (.inl hS)⟩
  · exact ⟨_, by rw [closeField, hB]; rfl, hid (.inr (.inl hB))⟩
  · exact ⟨_, by rw [closeField, hC]; rfl, hid (.inr (.inr hC))⟩
  · exact ⟨_, by rw [closeField, hW]; rfl, hdata (.inl hW)⟩
  · exact ⟨_, by rw [closeField, hX]; rfl, hdata (.inr hX)⟩

theorem parmByte_inv (b : Byte) (h : f.RegistersLegal c) (hph : f.phase = .parm) (hm : f.mode = .fdc)
    (hc : f.cmd ∈ fdcpCommands) (hf : f.fault = .none) : ∃ g, parmByte c b f = .ok g ∧ g.Inv c := by
  unfold parmByte
  split
  · exact closeField_inv h hm hc hf
  · split
    · exact ⟨_, rfl, (Framer.inv_iff ..).2 ⟨{ h with }, by
        simpa [Framer.PhaseLegal, hph] using ⟨hm, hc, hf⟩⟩⟩
    · exact ⟨_, rfl, h.halt (by decide)⟩

/-- The end of a gate, with the payload or the storage error. -/
theorem gatePayload_inv (r : Except StoreError (List Byte)) (h : f.RegistersLegal c) (hf : f.fault = .none) :
    (f.gatePayload r).Inv c := by
  cases r with
  | ok bs => exact (h.send bs).endCommand hf
  | error e => exact h.storageFail

theorem gateByte_inv (b : Byte) (h : f.RegistersLegal c) (hf : f.fault = .none) : (gateByte b f).Inv c := by
  unfold gateByte rdidGate rdsecGate
  split_ifs
  · exact gatePayload_inv _ h hf
  · exact (h.note _).endCommand hf
  · exact gatePayload_inv _ h hf
  · exact (h.note _).endCommand hf

theorem srchidDone_inv (v : Bytes 12) (h : f.RegistersLegal c) (hf : f.fault = .none) : (srchidDone v f).Inv c := by
  unfold srchidDone
  split
  · exact (h.send _).endCommand hf
  · exact (h.send _).endCommand hf

theorem finishIdWrite_inv (v : Bytes 12) (h : f.RegistersLegal c) (hm : f.mode = .fdc) (hf : f.fault = .none) :
    (f.finishIdWrite v).Inv c := by
  unfold Framer.finishIdWrite
  split
  · next g hw =>
    obtain ⟨hg, gm, gf⟩ := h.idWrite hw
    exact (hg.send _).chainNext (gm.trans hm) (gf.trans hf) false
  · exact h.storageFail

theorem finishSectorWrite_inv (d : Bytes 1024) (h : f.RegistersLegal c) (hf : f.fault = .none) :
    (f.finishSectorWrite d).Inv c := by
  unfold Framer.finishSectorWrite
  split
  · next g hw =>
    obtain ⟨hg, gf⟩ := h.sectWrite hw
    exact (hg.send _).endCommand (gf.trans hf)
  · exact h.storageFail

theorem idinByte_inv (b : Byte) (h : f.RegistersLegal c) (hph : f.phase = .idin) (hm : f.mode = .fdc)
    (hc : f.cmd = chS ∨ f.cmd = chB ∨ f.cmd = chC) (hpsn : f.psn ≤ psnMaxRender) (hroom : f.bufCount < 12)
    (hf : f.fault = .none) :
    ∃ g, idinByte b f = .ok g ∧ g.Inv c := by
  have hg : (f.receive [b]).RegistersLegal c := h.receive (by simp; omega)
  unfold idinByte
  by_cases hfull : (f.receive [b]).bufCount = 12
  · simp only [hfull, if_true, dif_pos (hg.buf_count.symm.trans hfull)]
    refine ⟨_, rfl, ?_⟩
    split_ifs
    · exact srchidDone_inv _ hg hf
    · exact finishIdWrite_inv _ hg hm hf
    · exact finishIdWrite_inv _ hg hm hf
  · simp only [hfull, if_false]
    refine ⟨_, rfl, (Framer.inv_iff ..).2 ⟨hg, ?_⟩⟩
    have : (f.receive [b]).bufCount < 12 := by simp at hfull ⊢; omega
    simp only [Framer.PhaseLegal, Framer.receive_phase, hph]
    exact ⟨hm, hc, hpsn, this, hf⟩

theorem datinByte_inv (b : Byte) (h : f.RegistersLegal c) (hph : f.phase = .datin) (hm : f.mode = .fdc)
    (hc : f.cmd = chW ∨ f.cmd = chX) (hpsn : f.psn ≤ psnMaxRender) (hroom : f.bufCount < 1024)
    (hf : f.fault = .none) :
    ∃ g, datinByte b f = .ok g ∧ g.Inv c := by
  have hg : (f.receive [b]).RegistersLegal c := h.receive (by simp; omega)
  unfold datinByte
  by_cases hfull : (f.receive [b]).bufCount = 1024
  · simp only [hfull, if_true, dif_pos (hg.buf_count.symm.trans hfull)]
    refine ⟨_, rfl, ?_⟩
    split_ifs
    · exact finishSectorWrite_inv _ hg hf
    · exact finishSectorWrite_inv _ hg hf
  · simp only [hfull, if_false]
    refine ⟨_, rfl, (Framer.inv_iff ..).2 ⟨hg, ?_⟩⟩
    have : (f.receive [b]).bufCount < 1024 := by simp at hfull ⊢; omega
    simp only [Framer.PhaseLegal, Framer.receive_phase, hph]
    exact ⟨hm, hc, hpsn, this, hf⟩

/-- From a legal framer the rule for (phase, byte) answers a legal framer: no byte faults. -/
theorem rxByte_inv (b : Byte) (h : f.Inv c) : ∃ g, rxByte c b f = .ok g ∧ g.Inv c := by
  obtain ⟨hr, hp⟩ := (Framer.inv_iff c f).1 h
  unfold Framer.PhaseLegal at hp
  unfold rxByte
  cases hph : f.phase <;> simp only [hph] at hp ⊢
  case hunt => obtain ⟨hm, hc, hf⟩ := hp; exact ⟨_, rfl, huntByte_inv b hr hm hc hf⟩
  case sync2 => obtain ⟨hm, hc, hf⟩ := hp; exact ⟨_, rfl, sync2Byte_inv b hr hm hc hf⟩
  case req => obtain ⟨hm, hf⟩ := hp; exact ⟨_, rfl, reqByte_inv b hr hm hf⟩
  case len => obtain ⟨hm, hf⟩ := hp; exact ⟨_, rfl, lenByte_inv b hr hm hf⟩
  case pay => obtain ⟨hm, _, hf⟩ := hp; exact ⟨_, rfl, payByte_inv b hr hph hm hf⟩
  case cks => obtain ⟨_, hf⟩ := hp; exact ⟨_, rfl, cksByte_inv b hr hf⟩
  case cmd => obtain ⟨hm, hf⟩ := hp; exact ⟨_, rfl, cmdByte_inv b hr hm hf⟩
  case fz2 => obtain ⟨_, hf⟩ := hp; exact ⟨_, rfl, fz2Byte_inv b hr hf⟩
  case parm => obtain ⟨hm, hc, hf⟩ := hp; exact parmByte_inv b hr hph hm hc hf
  case gate => obtain ⟨_, _, _, hf⟩ := hp; exact ⟨_, rfl, gateByte_inv b hr hf⟩
  case idin => obtain ⟨hm, hc, hpsn, hroom, hf⟩ := hp; exact idinByte_inv b hr hph hm hc hpsn hroom hf
  case datin => obtain ⟨hm, hc, hpsn, hroom, hf⟩ := hp; exact datinByte_inv b hr hph hm hc hpsn hroom hf
  case halt => exact ⟨_, rfl, h⟩

theorem Framer.Inv.withRx (h : f.Inv c) (rest : List Byte) : (f.withRx rest).Inv c := { h with }

end Bytes

/-! ### Every step keeps the legal states -/

theorem Steps.inv {c : Config} {n : Nat} {f g : Framer} (hsteps : Steps c n f g) (h : f.Inv c) : g.Inv c := by
  refine hsteps.keeps (P := Framer.Inv c) (fun f g b rest hf hx => ?_) h
  obtain ⟨g', hx', hg⟩ := rxByte_inv b (hf.withRx rest)
  cases hx.symm.trans hx'
  exact hg

/-- A legal framer's byte step answers. -/
theorem framerByteStep_answers {s : State} (h : s.fr.Inv s.cfg) : ∃ t, framerByteStep s = .next t := by
  by_cases hp : s.fr.phase = .halt
  · exact ⟨s, framerByteStep_idle s (.inl hp)⟩
  · cases hr : s.fr.rx with
    | nil => exact ⟨s, framerByteStep_idle s (.inr hr)⟩
    | cons b rest =>
      obtain ⟨g, hx, _⟩ := rxByte_inv b (h.withRx rest)
      exact ⟨_, (framerByteStep_byte s b rest hp hr).trans (by rw [hx])⟩

/-- The span a `REPL` writes keeps the blob canonical and within its bounds. -/
theorem writeSpan_legal {n : Nat} {blob : Memory} {slot : SlotRecord} {grid : Grid} (hwf : Memory.wf blob = true)
    (hin : Memory.within n blob = true) (hslot : SlotRecord.Consistent n slot) (hrows : grid.rows = slot.rows)
    (hstitches : grid.stitches = slot.stitches)
    (hspan : spanInBlob n (slot.patternEndOffset + 1) slot.memoOffset = true) :
    Memory.wf (writeSpan blob slot grid) = true ∧ Memory.within n (writeSpan blob slot grid) = true := by
  obtain ⟨hpattern, hend, hmemo⟩ := hslot
  rw [spanInBlob_iff] at hspan
  have hlen : (encodeGrid grid).length = bytesPerPattern slot.stitches slot.rows := by
    rw [encodeGrid_length, hrows, hstitches]; rfl
  have hbitmap (h : encodeGrid grid ≠ []) :
      ((encodeGrid grid).length : Int) ≤ slot.patternOffset + 1 ∧ slot.patternOffset < n := by
    have := List.length_pos_iff.2 h
    omega
  have hmemos (h : List.replicate (bytesForMemo slot.rows) (0#8 : Byte) ≠ []) :
      ((List.replicate (bytesForMemo slot.rows) (0#8 : Byte)).length : Int) ≤ slot.memoOffset + 1 := by
    have := List.length_pos_iff.2 h
    rw [List.length_replicate] at this ⊢
    omega
  exact ⟨Memory.wf_storeDown _ (Memory.wf_storeDown _ hwf _ _) _ _,
    Memory.within_storeDown n _ (Memory.within_storeDown n _ hin _ _ (fun h => (hbitmap h).1) (fun h => (hbitmap h).2))
      _ _ hmemos (fun _ => hmemo)⟩

theorem CodecEffect.inv {c : Config} {i : Instr} {k k' : Codec} (heffect : CodecEffect c i k k') (h : k.Inv c) :
    k'.Inv c := by
  cases heffect with
  | succeeded r => exact { h with failed_result := fun hst => absurd rfl hst, warn_only_repl := by simp }
  | failed st => exact { h with failed_result := fun _ => rfl, warn_only_repl := by simp }
  | replaced n grid slot _ hslot hrows hstitches hspan =>
    obtain ⟨hwf, hin⟩ := writeSpan_legal (grid := grid) h.blob_wf h.blob_within
      (lookupSlot_consistent c k.blob n slot hslot) hrows hstitches hspan
    exact ⟨hwf, hin, fun hst => absurd rfl hst, fun _ => ⟨rfl, rfl⟩⟩

theorem Codec.Inv.load {c : Config} {k : Codec} (h : k.Inv c) (bytes : List Byte) :
    (k.load c.blobLen bytes).Inv c :=
  { h with
    blob_wf := Memory.wf_memWriteRange _ h.blob_wf _ _
    blob_within := Memory.within_memWriteRange _ _ h.blob_within _ _ (by simp) }

/-- The reset input keeps the store and the blob, and every register's reset value is legal. -/
theorem State.Inv.applyReset {s : State} (h : s.Inv) : s.applyReset.Inv where
  framer := by
    refine (Framer.inv_iff ..).2 ⟨{ h.framer with
      force_chained := by simp
      cmd_legal := .inl rfl
      bps_legal := .inl rfl
      remain_max := by simp
      buf_count := rfl
      buf_max := by simp
      track_max := by simp }, ?_⟩
    exact ⟨rfl, rfl, rfl⟩
  codec := { h.codec with failed_result := fun hst => absurd rfl hst, warn_only_repl := by simp }

theorem TurnEffect.inv {s t : State} (heffect : TurnEffect s t) (h : s.Inv) : t.Inv := by
  cases heffect with
  | framer hsteps => exact ⟨hsteps.inv h.framer, h.codec⟩
  | codec _ hk => exact ⟨h.framer, hk.inv { h.codec with }⟩
  | reset => exact h.applyReset
  | load bytes => exact ⟨h.framer, h.codec.load bytes⟩

/-- Settles O12: from a legal framer no byte faults, so every turn answers, and each of its effects keeps the legal
states. -/
theorem stepKeepsLegalStates : Obligations.StepKeepsLegalStates := by
  unfold Obligations.StepKeepsLegalStates
  intro s h
  obtain ⟨turn, turns, e⟩ := step_eq_takeTurn s
  have hs : State.Inv { s with sched := turns } := ⟨h.framer, h.codec⟩
  obtain ⟨t, ht⟩ := takeTurn_answers (framerByteStep_answers hs.framer) turn
  exact ⟨t, e.trans ht, (takeTurn_effect ht).inv hs⟩

end Sys2Proof.Machine
end

section
/-!
PROOFS. The family of 20_memory.md: two agents that share no state (R80), the commit points of the sector store (R72),
and the event of an odd-sector write (R63).
-/

namespace Sys2Proof.Machine

/-! ### The agents share no state (20_memory.md R80) -/

theorem framerByteStep_framer_only {s t : State} (h : framerByteStep s = .next t) : ∃ f, t = { s with fr := f } := by
  rcases framerByteStep_next h with ⟨_, rfl⟩ | ⟨b, rest, f, _, _, _, rfl⟩
  · exact ⟨_, rfl⟩
  · exact ⟨f, rfl⟩

theorem framerFrameStep_framer_only {s t : State} (h : framerFrameStep s = .next t) :
    ∃ f, t = { s with fr := f } := by
  rcases framerFrameStep_cases s with e | ⟨n, f, e, _⟩
  · exact framerByteStep_framer_only (e ▸ h)
  · rw [e] at h; cases h; exact ⟨f, rfl⟩

theorem codecStep_codec_only {s t : State} (h : codecStep s = .next t) : ∃ k, t = { s with co := k } := by
  rcases codecStep_cases s with ⟨_, e⟩ | ⟨q, rest, k, _, e, _⟩
  · rw [e] at h; cases h; exact ⟨_, rfl⟩
  · rw [e] at h; cases h; exact ⟨k, rfl⟩

/-- Settles O15: each agent's step is an update of that agent alone. -/
theorem agentsShareNoState : Obligations.AgentsShareNoState := by
  unfold Obligations.AgentsShareNoState
  refine fun s t => ⟨fun h => ?_, fun h => ?_, fun h => ?_, fun bytes h => ?_⟩
  · obtain ⟨f, rfl⟩ := framerByteStep_framer_only h; rfl
  · obtain ⟨f, rfl⟩ := framerFrameStep_framer_only h; rfl
  · obtain ⟨k, rfl⟩ := codecStep_codec_only h; rfl
  · cases h; rfl

/-- The framer's byte step reads nothing of the codec: with another codec it does the same. -/
theorem framerByteStep_withCodec {s t : State} (h : framerByteStep s = .next t) (k : Codec) :
    framerByteStep { s with co := k } = .next { t with co := k } := by
  rcases framerByteStep_next h with ⟨hidle, rfl⟩ | ⟨b, rest, f, hp, hr, hx, rfl⟩
  · exact framerByteStep_idle _ hidle
  · exact (framerByteStep_byte { s with co := k } b rest hp hr).trans (by simp only [hx])

/-- A codec operation reads nothing of the framer: with another framer it does the same. -/
theorem exec_request_withFramer {i : Instr} {q : CodecReq} (he : encode i = .request q) {s t : State}
    (h : exec i s = .next t) (f : Framer) : exec i { s with fr := f } = .next { t with fr := f } := by
  cases i <;> cases he
  -- the frames are gone; each codec operation is an update of the codec, by a function of the parameters
  all_goals (cases h; rfl)

theorem codecStep_withFramer {s t : State} (h : codecStep s = .next t) (f : Framer) :
    codecStep { s with fr := f } = .next { t with fr := f } := by
  unfold codecStep at h ⊢
  cases hq : s.co.req with
  | nil => simp only [hq] at h ⊢; cases h; rfl
  | cons q rest =>
    obtain ⟨q', he⟩ := encode_decodeRequest q
    simp only [hq] at h ⊢
    exact exec_request_withFramer he h f

/-- Settles O16: each agent's step, taken after the other's, does what it did before it. -/
theorem agentStepsCommute : Obligations.AgentStepsCommute := by
  unfold Obligations.AgentStepsCommute
  intro s t u ht hu
  obtain ⟨f, rfl⟩ := framerByteStep_framer_only ht
  obtain ⟨k, rfl⟩ := codecStep_codec_only hu
  exact ⟨{ s with fr := f, co := k }, codecStep_withFramer hu f, framerByteStep_withCodec ht k⟩

/-! ### The commit points of the store (20_memory.md R72) -/

@[simp] theorem Framer.endCommand_data (f : Framer) : f.endCommand.data = f.data := by rw [Framer.endCommand_eq]
@[simp] theorem Framer.endCommand_ids (f : Framer) : f.endCommand.ids = f.ids := by rw [Framer.endCommand_eq]
@[simp] theorem Framer.endCommand_lastTrack (f : Framer) : f.endCommand.lastTrack = f.lastTrack := by
  rw [Framer.endCommand_eq]

/-- A byte step with b at the head of RX: nothing in `HALT`, else one of the effects of b. -/
theorem framerByteStep_byteEffect {s t : State} {b : Byte} {rest : List Byte} (h : framerByteStep s = .next t)
    (hr : s.fr.rx = b :: rest) : t = s ∨ ∃ f, ByteEffect b (s.fr.withRx rest) f ∧ t = { s with fr := f } := by
  rcases framerByteStep_next h with ⟨_, rfl⟩ | ⟨b', rest', f, _, hr', hx, rfl⟩
  · exact .inl rfl
  · obtain ⟨rfl, rfl⟩ : b = b' ∧ rest = rest' := List.cons_eq_cons.1 (hr.symm.trans hr')
    exact .inr ⟨f, rxByte_effect hx, rfl⟩

/-- The sector data change at a format's CR and at the last data byte of a write to a sector of the store. -/
theorem ByteEffect.data_changed {b : Byte} {f g : Framer} (h : ByteEffect b f g) (hne : g.data ≠ f.data) :
    (f.phase = .parm ∧ b = chCR ∧ (f.cmd = chF ∨ f.cmd = chG)) ∨
      (f.phase = .datin ∧ f.bufCount = 1023 ∧ f.psn < nSect) := by
  cases h with
  | quiet _ _ hd => exact absurd hd hne
  | opened _ _ _ _ _ _ hd => exact absurd hd hne
  | format hp hb hc => exact .inl ⟨hp, hb, hc⟩
  | wroteEven hp hcount hpsn | wroteOdd hp hcount hpsn => exact .inr ⟨hp, hcount, hpsn⟩
  | storageError | resync | wroteId => exact absurd rfl hne
  | _ => exact absurd (Framer.endCommand_data _) hne

/-- The IDs change at a format's CR and at the last ID byte of a command that is not a search, for a sector of the
store. -/
theorem ByteEffect.ids_changed {b : Byte} {f g : Framer} (h : ByteEffect b f g) (hne : g.ids ≠ f.ids) :
    (f.phase = .parm ∧ b = chCR ∧ (f.cmd = chF ∨ f.cmd = chG)) ∨
      (f.phase = .idin ∧ f.bufCount = 11 ∧ f.cmd ≠ chS ∧ f.psn < nSect) := by
  cases h with
  | quiet _ _ _ hi => exact absurd hi hne
  | opened _ _ _ _ _ _ _ hi => exact absurd hi hne
  | format hp hb hc => exact .inl ⟨hp, hb, hc⟩
  | wroteId hp hcount hc hpsn => exact .inr ⟨hp, hcount, hc, hpsn⟩
  | storageError | resync => exact absurd rfl hne
  | _ => exact absurd (Framer.endCommand_ids _) hne

/-- Settles O19, by the effects of one byte; a legal framer that takes ID bytes and does not search runs `B` or `C`. -/
theorem storeChangesOnlyAtCommit : Obligations.StoreChangesOnlyAtCommit := by
  unfold Obligations.StoreChangesOnlyAtCommit
  intro s t b rest hinv h hr
  rcases framerByteStep_byteEffect h hr with rfl | ⟨f, heffect, rfl⟩
  · exact ⟨absurd rfl, absurd rfl⟩
  refine ⟨fun hne => ?_, fun hne => ?_⟩
  · exact (heffect.data_changed hne).imp id fun ⟨hp, hcount, hpsn⟩ => ⟨hp, hcount, Nat.le_of_lt_succ hpsn⟩
  · refine (heffect.ids_changed hne).imp id fun ⟨hp, hcount, hc, hpsn⟩ => ?_
    exact ⟨hp, hcount, (hinv.framer.idin_cmd hp).resolve_left hc, Nat.le_of_lt_succ hpsn⟩

/-! ### The event of an odd-sector write (20_memory.md R63) -/

/-- What one byte puts out: bytes on TX alone, or, at the last data byte of a write to an odd sector of the store, the
track's event and then the status word. -/
theorem ByteEffect.out_cases {b : Byte} {f g : Framer} (h : ByteEffect b f g) :
    (∃ bs : List Byte, g.out = f.out ++ bs.map .tx) ∨
      (f.phase = .datin ∧ f.bufCount = 1023 ∧ f.psn < nSect ∧ f.psn % 2 = 1 ∧ g.lastTrack = f.psn / 2 + 1 ∧
        g.out = f.out ++ ([.event (.trackWritten (f.psn / 2 + 1)
          ((List.range 1024).map (fun j => memRead f.data (1024 * (f.psn - 1) + j)) ++ (f.buf ++ [b])))] ++
          (statusPsn f.psn).map .tx)) := by
  cases h with
  | quiet _ ho => exact .inl ⟨[], by simp [ho]⟩
  | opened _ _ _ v _ ho => exact .inl ⟨statusPsn v, ho⟩
  | accept | noted | resync => exact .inl ⟨[], by simp⟩
  | format _ _ _ w => exact .inl ⟨w, rfl⟩
  | wroteId => exact .inl ⟨statusPsn f.psn, rfl⟩
  | storageError => exact .inl ⟨wordStorageError, rfl⟩
  | wroteOdd hp hcount hpsn hodd d hd =>
    refine .inr ⟨hp, hcount, hpsn, hodd, Framer.endCommand_lastTrack _, ?_⟩
    rw [Framer.endCommand_out, Framer.send_out, hd, List.append_assoc]
  | beat | readId | readSector | found | missed | wroteEven => exact .inl ⟨_, Framer.endCommand_out _⟩

/-- Settles O22: the odd-sector write is the one effect of a byte whose output is not on TX alone. -/
theorem eventsComeFromOddSectorWrites : Obligations.EventsComeFromOddSectorWrites := by
  unfold Obligations.EventsComeFromOddSectorWrites
  intro s t b rest more _ h hr hout hevent
  rcases framerByteStep_byteEffect h hr with rfl | ⟨f, heffect, rfl⟩
  · rw [List.self_eq_append_right.1 hout] at hevent
    exact absurd rfl hevent
  rcases heffect.out_cases with ⟨bs, ho⟩ | ⟨hp, hcount, hpsn, hodd, htrack, ho⟩
  · rw [List.append_cancel_left (hout.symm.trans ho), eventStream_tx] at hevent
    exact absurd rfl hevent
  · refine ⟨hp, hcount, Nat.le_of_lt_succ hpsn, hodd, htrack, ?_⟩
    rw [List.append_cancel_left (hout.symm.trans ho), eventStream_append, eventStream_tx]
    rfl

/-- `EndCommand` and the statements' form of it are one. -/
theorem Framer.endCommand_eq_ended (f : Framer) : f.endCommand = Claims.ended f.mode f := by
  rw [Framer.endCommand_eq]
  cases hc : f.chain <;> cases hf : f.forceOp <;> simp [Claims.ended, hc, hf]

/-- A whole frame of `W` or `X` with a renderable PSN comes to the end of its write with the first status word sent and
the payload in the buffer (41_fdc_commands.md R196, R197). -/
theorem dataFrame_eq_finishSectorWrite (c : Byte) (items : List ParmItem) (d : Bytes 1024) (f : Framer)
    (hp : psnOf (fieldOfItems items) ≤ 255) :
    ((f.startCommand c).runField (Framer.closePsn (Framer.awaitPayload .datin)) (.closed items)).runData
        Framer.finishSectorWrite (some d) =
      Framer.finishSectorWrite d
        { Claims.sent (statusPsn (psnOf (fieldOfItems items))) (Claims.psnTaken c items f) with
          buf := d.val, bufCount := 1024, phase := .datin } := by
  simp only [Framer.runField, Framer.closePsn_ok _ c items f hp, Framer.runData, Framer.awaitPayload_phase, if_true]
  simp only [Framer.receive, Framer.awaitPayload, d.2, List.nil_append, Nat.zero_add]
  rfl

/-- The end of a write of an odd sector of the store (41_fdc_commands.md R198). -/
theorem Framer.finishSectorWrite_odd (d : Bytes 1024) (f : Framer) (hp : f.psn < nSect) (hodd : f.psn % 2 = 1) :
    f.finishSectorWrite d = Claims.ended f.mode { f with
      data := memWriteRange f.data (1024 * f.psn) d.val
      lastTrack := f.psn / 2 + 1
      out := f.out ++ [.event (.trackWritten (f.psn / 2 + 1)
        ((List.range 1024).map (fun j => memRead f.data (1024 * (f.psn - 1) + j)) ++ d.val))] ++
        (statusPsn f.psn).map .tx } := by
  rw [Framer.finishSectorWrite, Framer.sectWrite_odd _ d f hp hodd]
  exact Framer.endCommand_eq_ended _

/-- Settles O44: `W` and `X` are one frame, whose write of an odd sector emits its track. -/
theorem oddSectorWriteEmitsTheTrack : Obligations.OddSectorWriteEmitsTheTrack := by
  unfold Obligations.OddSectorWriteEmitsTheTrack
  intro s items d hpsn hodd
  have hframe (c : Byte) := (dataFrame_eq_finishSectorWrite c items d s.fr (hpsn.trans (by decide))).trans
    (Framer.finishSectorWrite_odd d _ (Nat.lt_succ_of_le hpsn) hodd)
  refine ⟨memWriteRange s.fr.data (1024 * psnOf (fieldOfItems items)) d.val, fun a ha => ?_, memReadBack _ _ _ _ d.2,
    ?_, ?_⟩
  · rw [memRead_memWriteRange, dif_neg (by rw [d.2]; omega)]
  · exact congrArg (fun f => Host.Outcome.next { s with fr := f }) (hframe chW)
  · exact congrArg (fun f => Host.Outcome.next { s with fr := f }) (hframe chX)

end Sys2Proof.Machine
end

section
/-!
PROOFS. The family of 30_encoding.md: the codec of frames and requests is a round trip (R100 to R107, R120 to R125), the
request checksum (R102), parameter fields (R105), descriptor fields (R110) and the words the framer sends (R108).
-/

namespace Sys2Proof

/-! ### The round trip of frames and requests (30_encoding.md R100 to R107, R120, R121) -/

theorem decodeOpmode_encodeEnter {payload : List Byte} (ck : Byte) (h : payload.length ≤ 255) (rest : List Byte) :
    decodeOpmode ([chZ, chZ] ++ encodeEnter payload ck ++ rest) = .ok (.enterFdc payload ck, rest) := by
  simp only [List.cons_append, List.nil_append, decodeOpmode, ne_eq, not_true_eq_false, if_false,
    decodeTail_encodeEnter payload ck h rest]

theorem decodeOpmode_ignore {code : Byte} (h : code ≠ reqEnterFdc) (rest : List Byte) :
    decodeOpmode (chZ :: chZ :: code :: rest) = .ok (.reqIgn code, rest) := by
  simp only [decodeOpmode, ne_eq, not_true_eq_false, if_false, decodeTail_ignore code h rest]

theorem decodeResync_encodeTail {tail : ResyncTail} (h : tailWellFormed tail = true) (rest : List Byte) :
    decodeResync (encodeTail tail ++ rest) = .ok (.resync tail, rest) := by
  cases tail with
  | drop b => exact if_pos (of_decide_eq_true h)
  | enter payload ck =>
    simp only [encodeTail, List.cons_append, decodeResync, ne_eq, not_true_eq_false, if_false,
      decodeTail_encodeEnter payload ck (of_decide_eq_true h) rest]
  | ignore code =>
    simp only [encodeTail, List.cons_append, List.nil_append, decodeResync, ne_eq, not_true_eq_false, if_false,
      decodeTail_ignore code (of_decide_eq_true h) rest]

theorem decodeFdc_unlisted {b : Byte} (h : listedCommand b = false) (rest : List Byte) :
    decodeFdc (b :: rest) = .ok (.ign b, rest) := by
  obtain ⟨hCR, hZ, hF, hG, hA, hR, hS, hB, hC, hW, hX, hM, hD⟩ := (Machine.listedCommand_eq_false_iff b).1 h
  simp only [decodeFdc, *, if_false]

theorem decodeRequest_reserved {q : CodecReq} (h : 9 ≤ q.op.toNat) : decodeRequest q = .codecReserved q.op := by
  have hne (k : BitVec 4) (hk : k.toNat < 9) : q.op ≠ k := fun e => absurd (e ▸ h) (Nat.not_le.2 hk)
  simp [decodeRequest, hne]

/-- A well-formed frame is read back from its bytes, whatever follows them on the stream. -/
theorem decodeFrame_encode {i : Instr} {lang : Lang} {frame : List Byte} (hw : i.wellFormed = true)
    (he : encode i = .frame lang frame) (rest : List Byte) : decodeFrame lang (frame ++ rest) = .ok (i, rest) := by
  cases i <;> cases he
  case enterFdc payload ck => exact decodeOpmode_encodeEnter ck (of_decide_eq_true hw) rest
  case reqIgn code => exact decodeOpmode_ignore (of_decide_eq_true hw) rest
  case hb | unsupM | unsupD => rfl
  case resync tail => exact decodeResync_encodeTail hw rest
  case fmtF fld | fmtG fld => exact decodeFormat_encode fld rest hw
  case rdid fld gate | rdsec fld gate => exact decodeGated_encode fld gate rest hw
  case srchid fld d | wridB fld d | wridC fld d | wrsecW fld d | wrsecX fld d =>
    exact decodeData_encode fld d rest hw
  case ign b => exact decodeFdc_unlisted (by simpa [Instr.wellFormed] using hw) rest

/-- A well-formed codec operation is read back from its request. -/
theorem decodeRequest_encode {i : Instr} {q : CodecReq} (hw : i.wellFormed = true) (he : encode i = .request q) :
    decodeRequest q = i := by
  cases i <;> cases he
  case codecReserved op => exact decodeRequest_reserved (of_decide_eq_true hw)
  all_goals rfl

/-- Settles O2: frames and requests are each read back from what they are written in. -/
theorem decodeOfEncodeIsTheInstruction : Obligations.DecodeOfEncodeIsTheInstruction := by
  unfold Obligations.DecodeOfEncodeIsTheInstruction
  intro i hw rest
  cases he : encode i with
  | frame lang frame => exact decodeFrame_encode hw he rest
  | request q => exact congrArg (fun j => Except.ok (j, [])) (decodeRequest_encode hw he)

/-- Settles O3, by what the decoder of each frame language reads. -/
theorem decodedFrameReencodesToItsBytes : Obligations.DecodedFrameReencodesToItsBytes := by
  unfold Obligations.DecodedFrameReencodesToItsBytes
  exact fun lang bs i rest h => decodeFrame_ok h

/-- Settles O5: the bytes read are the encoding of a well-formed instruction, which reads back before any bytes. -/
theorem frameNeedsNoLookahead : Obligations.FrameNeedsNoLookahead := by
  unfold Obligations.FrameNeedsNoLookahead
  intro lang bs i rest more h
  obtain ⟨hw, frame, he, rfl⟩ := decodeFrame_ok h
  rw [List.append_assoc]
  exact decodeFrame_encode hw he (rest ++ more)

/-- A request's instruction is a well-formed codec operation with the request's operation code. -/
theorem decodeRequest_wellFormed_encode (q : CodecReq) :
    (decodeRequest q).wellFormed = true ∧ ∃ q', encode (decodeRequest q) = .request q' ∧ q'.op = q.op := by
  by_cases hreserved : 9 ≤ q.op.toNat
  · rw [decodeRequest_reserved hreserved]
    exact ⟨decide_eq_true hreserved, _, rfl, rfl⟩
  · obtain ⟨op, r, s, n, slot, grid⟩ := q
    have hops : ∀ op : BitVec 4, ¬9 ≤ op.toNat →
        op ∈ [0x0#4, 0x1#4, 0x2#4, 0x3#4, 0x4#4, 0x5#4, 0x6#4, 0x7#4, 0x8#4] := by decide
    have hop := hops op hreserved
    simp only [List.mem_cons, List.not_mem_nil, or_false] at hop
    rcases hop with rfl | rfl | rfl | rfl | rfl | rfl | rfl | rfl | rfl <;> exact ⟨rfl, _, rfl, rfl⟩

/-- Settles O4: a request's instruction is well-formed, so it is read back from its encoding. -/
theorem everyCodecRequestDecodes : Obligations.EveryCodecRequestDecodes := by
  unfold Obligations.EveryCodecRequestDecodes
  intro q
  obtain ⟨hw, q', he, hop⟩ := decodeRequest_wellFormed_encode q
  exact ⟨hw, q', he, hop, decodeRequest_encode hw he⟩

/-- Settles O1: each word is evaluated. -/
theorem sampleWordsDecode : Obligations.SampleWordsDecode := by
  unfold Obligations.SampleWordsDecode
  exact ⟨rfl, rfl, rfl, rfl, rfl, rfl, rfl, rfl⟩

end Sys2Proof

namespace Sys2Proof.Machine

/-! ### What one byte makes the framer send (30_encoding.md R108) -/

/-- The words and payloads that a byte taken in framer f may send, the empty one among them. -/
def IsResponse (f : Framer) (bs : List Byte) : Prop :=
  bs = [] ∨ bs ∈ [wordOk, wordFormat, wordMiss, wordStorageError] ∨ (∃ v, v ≤ 255 ∧ bs = statusPsn v) ∨
    (f.phase = .gate ∧ f.psn < nSect ∧ (bs = (f.sectorId f.psn).val ∨ bs = (f.sector f.psn).val))

theorem IsResponse.none {f : Framer} : IsResponse f [] := .inl rfl

theorem IsResponse.word {f : Framer} {w : List Byte} (h : w ∈ [wordOk, wordFormat, wordMiss, wordStorageError]) :
    IsResponse f w := .inr (.inl h)

theorem IsResponse.psn {f : Framer} {v : Nat} (h : v ≤ 255) : IsResponse f (statusPsn v) :=
  .inr (.inr (.inl ⟨v, h, rfl⟩))

theorem IsResponse.sector {f : Framer} {p : Nat} (h : p < 80) : IsResponse f (statusPsn p) :=
  .psn (h.le.trans (by decide))

theorem IsResponse.payload {f : Framer} (hp : f.phase = .gate) (hpsn : f.psn < nSect) {bs : List Byte}
    (h : bs = (f.sectorId f.psn).val ∨ bs = (f.sector f.psn).val) : IsResponse f bs :=
  .inr (.inr (.inr ⟨hp, hpsn, h⟩))

theorem IsResponse.sent {f g : Framer} {bs : List Byte} (ho : g.out = f.out ++ bs.map .tx) (h : IsResponse f bs) :
    ∃ more, g.out = f.out ++ more ∧ IsResponse f (txStream more) := ⟨_, ho, (txStream_tx bs).symm ▸ h⟩

/-- The bytes on TX among what one byte puts out are a response. -/
theorem ByteEffect.response {b : Byte} {f g : Framer} (h : ByteEffect b f g) :
    ∃ more, g.out = f.out ++ more ∧ IsResponse f (txStream more) := by
  cases h with
  | quiet _ ho => exact IsResponse.sent (bs := []) (by simp [ho]) .none
  | accept | noted | resync => exact IsResponse.sent (bs := []) (by simp) .none
  | beat | missed => exact IsResponse.sent (Framer.endCommand_out _) (.word (by simp))
  | format _ _ _ w hw => exact IsResponse.sent rfl (.word (by rcases hw with rfl | rfl <;> simp))
  | opened _ _ _ v hv ho => exact IsResponse.sent ho (.psn hv)
  | readId hp hpsn => exact IsResponse.sent (Framer.endCommand_out _) (.payload hp hpsn (.inl rfl))
  | readSector hp hpsn => exact IsResponse.sent (Framer.endCommand_out _) (.payload hp hpsn (.inr rfl))
  | storageError => exact IsResponse.sent rfl (.word (by simp))
  | found _ k hk => exact IsResponse.sent (Framer.endCommand_out _) (.sector hk)
  | wroteId _ _ _ hpsn => exact IsResponse.sent rfl (.sector hpsn)
  | wroteEven _ _ hpsn => exact IsResponse.sent (Framer.endCommand_out _) (.sector hpsn)
  | wroteOdd _ _ hpsn _ d =>
    -- the event stands before the status word, and nothing of it on TX
    refine ⟨_, (Framer.endCommand_out _).trans (List.append_assoc ..), ?_⟩
    rw [txStream_append, txStream_tx]
    exact .sector hpsn

/-- Settles O21: by the effects of one byte. -/
theorem everyResponseIsAStatusWordOrPayload : Obligations.EveryResponseIsAStatusWordOrPayload := by
  unfold Obligations.EveryResponseIsAStatusWordOrPayload
  intro s t _ h
  rcases framerByteStep_next h with ⟨_, rfl⟩ | ⟨b, rest, f, _, _, hx, rfl⟩
  · exact ⟨[], by simp, .inl rfl⟩
  obtain ⟨more, ho, hresponse⟩ := (rxByte_effect hx).response
  refine ⟨more, ho, hresponse.imp id (.imp id (.imp id fun ⟨hp, hpsn, hbs⟩ => ?_))⟩
  rw [Framer.sectorId_val, Framer.sector_val] at hbs
  rw [Nat.mul_comm 12, Nat.mul_comm 1024]
  exact ⟨hp, Nat.le_of_lt_succ hpsn, hbs⟩

/-! ### The request checksum (30_encoding.md R102) -/

theorem cksByte_match {ck : Byte} {f : Framer} (h : ck = ckExpected f.ckAcc) : cksByte ck f = Claims.ended .fdc f := by
  rw [cksByte, if_pos h, acceptRequest, Framer.endCommand_eq_ended]
  rfl

theorem cksByte_mismatch {ck : Byte} {f : Framer} (h : ck ≠ ckExpected f.ckAcc) :
    cksByte ck f = Claims.ended f.mode (f.note .checksumMismatch) := by
  rw [cksByte, if_neg h, rejectRequest, Framer.endCommand_eq_ended]
  rfl

/-- Settles O25: the frame comes to its checksum byte with the sum of R102 in `FR.ckAcc`. -/
theorem requestAcceptedExactlyOnItsChecksum : Obligations.RequestAcceptedExactlyOnItsChecksum := by
  unfold Obligations.RequestAcceptedExactlyOnItsChecksum
  intro s payload ck hl sum f
  have hrun : runRequest payload ck s.fr = cksByte ck { f with phase := .cks } := runRequest_eq payload ck hl s.fr
  have hexec : exec (.enterFdc payload ck) s = .next { s with fr := runRequest payload ck s.fr } := rfl
  rw [hexec, hrun]
  constructor
  · intro hck
    rw [cksByte_match hck]
    rfl
  · intro hck
    rw [cksByte_mismatch hck]
    exact ⟨_, rfl⟩

/-! ### Parameter fields (30_encoding.md R105) -/

theorem scanItems_digits (ds : List (Fin 10)) (ts : List (Option Nat)) (n : Nat) :
    scanItems (ds.map .digit) (ts, some n) = (ts, some (ds.foldl (fun n d => 10 * n + d.val) n)) := by
  induction ds generalizing n with
  | nil => rfl
  | cons d ds ih => rw [List.foldl_cons, ← ih, Nat.mul_comm]; rfl

theorem scanItems_dropSpaces (items : List ParmItem) (t : Tokens) :
    scanItems (items.filter (· ≠ .space)) t = scanItems items t := by
  rw [scanItems, List.foldl_filter]
  congr
  funext t it
  cases it <;> rfl

/-- Items without a comma end no token. -/
theorem scanItems_noComma {items : List ParmItem} (h : items.all (· ≠ .comma) = true) (t : Tokens) :
    (scanItems items t).1 = t.1 := by
  induction items generalizing t with
  | nil => rfl
  | cons it items ih =>
    rw [List.all_cons, Bool.and_eq_true, decide_eq_true_eq] at h
    refine (ih h.2 (scanItem t it)).trans ?_
    cases it with
    | comma => exact absurd rfl h.1
    | digit | space => rfl

/-- The tokens ended before some items stand before those that the items end. -/
theorem scanItems_append_toks (items : List ParmItem) (ts us : List (Option Nat)) (cur : Option Nat) :
    scanItems items (ts ++ us, cur) = (ts ++ (scanItems items (us, cur)).1, (scanItems items (us, cur)).2) := by
  induction items generalizing us cur with
  | nil => rfl
  | cons it items ih =>
    cases it with
    | comma => simpa [scanItems, scanItem] using ih (us ++ [cur]) Option.none
    | digit d => exact ih us _
    | space => exact ih us cur

/-- A field with a comma is the token before it and the field after it, which then has a token even when empty. -/
theorem fieldOfItems_comma {a : List ParmItem} (h : a.all (· ≠ .comma) = true) (b : List ParmItem) :
    fieldOfItems (a ++ .comma :: b) =
      (scanItems a ([], none)).2 :: (if fieldOfItems b = [] then [none] else fieldOfItems b) := by
  have hscan : scanItems (a ++ .comma :: b) ([], none) =
      ((scanItems a ([], none)).2 :: (scanItems b ([], none)).1, (scanItems b ([], none)).2) := by
    calc scanItems (a ++ .comma :: b) ([], none)
        = scanItems b ((scanItems a ([], none)).1 ++ [(scanItems a ([], none)).2], none) := List.foldl_append
      _ = scanItems b ([(scanItems a ([], none)).2] ++ [], none) := by rw [scanItems_noComma h]; rfl
      _ = _ := scanItems_append_toks b _ [] none
  rw [fieldOfItems, hscan, fieldOfItems]
  obtain ⟨ts, cur⟩ := scanItems b ([], none)
  by_cases hempty : ts = [] ∧ cur = none
  · obtain ⟨rfl, rfl⟩ := hempty; rfl
  · simp [fieldOf, hempty]

/-- Settles O31: by the scan of a run of digits, of spaces, and of a comma; the values are those of the first token. -/
theorem fieldTokensGivePsnAndLsn : Obligations.FieldTokensGivePsnAndLsn := by
  unfold Obligations.FieldTokensGivePsnAndLsn
  refine ⟨fun ds hds => ?_, fun items => ?_, fun a b ha => fieldOfItems_comma ha b, ⟨rfl, rfl⟩, fun v => ?_,
    fun v w more => ?_⟩
  · obtain ⟨d, ds, rfl⟩ := List.exists_cons_of_ne_nil hds
    exact congrArg fieldOf (scanItems_digits ds [] (10 * 0 + d.val))
  · rw [fieldOfItems, scanItems_dropSpaces, fieldOfItems]
  · cases v <;> exact ⟨rfl, rfl⟩
  · cases v <;> exact ⟨rfl, rfl⟩

/-! ### Descriptor fields (30_encoding.md R110, R111) -/

theorem digits3_hi_lo_hi (v w : Byte) :
    digits3 (hiNibble v) (loNibble v) (hiNibble w) = 100 * (v.toNat / 16) + 10 * (v.toNat % 16) + w.toNat / 16 := by
  rw [digits3, hiNibble_toNat, loNibble_toNat, hiNibble_toNat]

theorem digits3_lo_hi_lo (v w : Byte) :
    digits3 (loNibble v) (hiNibble w) (loNibble w) = 100 * (v.toNat % 16) + 10 * (w.toNat / 16) + w.toNat % 16 := by
  rw [digits3, loNibble_toNat, hiNibble_toNat, loNibble_toNat]

/-- Settles O47: each field spans three nibbles that begin with a high or a low one. -/
theorem slotFieldsAreTheirDigits : Obligations.SlotFieldsAreTheirDigits := by
  unfold Obligations.SlotFieldsAreTheirDigits
  intro n i layout s0 s1 s2 s3 s4 s5 s6 slot
  refine ⟨rfl, digits3_hi_lo_hi s2 s3, digits3_lo_hi_lo s3 s4, ?_, ?_, rfl, rfl⟩
  · cases layout with
    | low3 => exact digits3_lo_hi_lo s5 s6
    | high3 => exact digits3_hi_lo_hi s5 s6
  · rw [Nat.mul_comm 256]; rfl

/-! ### Reserved operation codes (30_encoding.md R121) -/

/-- Settles O57: every reserved code has the one meaning. -/
theorem reservedOperationAnswersBadOp : Obligations.ReservedOperationAnswersBadOp := by
  unfold Obligations.ReservedOperationAnswersBadOp
  exact fun s op => rfl

end Sys2Proof.Machine
end

section
/-!
PROOFS. The family of 40_opmode.md: the hunt for the sync pair (R140, R141), the unimplemented request (R147), and that
an OpMode frame is never answered (R149).
-/

namespace Sys2Proof.Machine

/-! ### Nothing is sent or emitted (40_opmode.md R149) -/

@[simp] theorem huntByte_out (b : Byte) (f : Framer) : (huntByte b f).out = f.out := by unfold huntByte; split <;> rfl
@[simp] theorem sync2Byte_out (b : Byte) (f : Framer) : (sync2Byte b f).out = f.out := by unfold sync2Byte; split <;> rfl
@[simp] theorem lenByte_out (b : Byte) (f : Framer) : (lenByte b f).out = f.out := rfl
@[simp] theorem payByte_out (b : Byte) (f : Framer) : (payByte b f).out = f.out := rfl
@[simp] theorem ignoreRequest_out (code : Byte) (f : Framer) : (ignoreRequest code f).out = f.out :=
  Framer.endCommand_out _

@[simp] theorem reqByte_out (b : Byte) (f : Framer) : (reqByte b f).out = f.out := by
  unfold reqByte
  split
  · rfl
  · exact ignoreRequest_out b f

/-- Accepted and rejected requests end their command alike: neither sends. -/
@[simp] theorem cksByte_out (b : Byte) (f : Framer) : (cksByte b f).out = f.out := by
  unfold cksByte
  split <;> exact Framer.endCommand_out _

@[simp] theorem runRequest_out (payload : List Byte) (ck : Byte) (f : Framer) :
    (runRequest payload ck f).out = f.out := by
  rw [runRequest, cksByte_out, payFold_eq]
  rfl

/-- In each OpMode phase the rule of the byte leaves the output as it is. -/
theorem rxByte_out_of_inOp {c : Config} {b : Byte} {f g : Framer} (hp : f.phase.inOp = true)
    (hx : rxByte c b f = .ok g) : g.out = f.out := by
  cases hph : f.phase <;> rw [hph] at hp <;> simp only [rxByte, hph] at hx
  case hunt => cases hx; exact huntByte_out b f
  case sync2 => cases hx; exact sync2Byte_out b f
  case req => cases hx; exact reqByte_out b f
  case len => cases hx; exact lenByte_out b f
  case pay => cases hx; exact payByte_out b f
  case cks => cases hx; exact cksByte_out b f
  -- the phases of mode FDC and the halt
  all_goals cases hp

/-- Settles O20: by the rule of each OpMode phase, and by the bytes of a whole request. -/
theorem opModeSendsNothing : Obligations.OpModeSendsNothing := by
  unfold Obligations.OpModeSendsNothing
  refine ⟨fun s t hp h => ?_, fun s payload ck code => ⟨?_, ?_⟩⟩
  · rcases framerByteStep_next h with ⟨_, rfl⟩ | ⟨b, rest, f, _, _, hx, rfl⟩
    · rfl
    · exact rxByte_out_of_inOp (f := s.fr.withRx rest) hp hx
  · exact ⟨_, rfl, runRequest_out payload ck s.fr⟩
  · exact ⟨_, rfl, ignoreRequest_out code s.fr⟩

/-! ### An unimplemented request (40_opmode.md R147) -/

theorem ignoreRequest_eq_ended (code : Byte) (f : Framer) :
    ignoreRequest code f = Claims.ended f.mode (f.note (.ignoredRequest code)) :=
  Framer.endCommand_eq_ended _

/-- Settles O26: the request's one record, then the command's end. -/
theorem unimplementedRequestIsIgnored : Obligations.UnimplementedRequestIsIgnored := by
  unfold Obligations.UnimplementedRequestIsIgnored
  intro s code
  have hexec : exec (.reqIgn code) s = .next { s with fr := ignoreRequest code s.fr } := rfl
  rw [hexec, ignoreRequest_eq_ended]
  exact ⟨_, rfl⟩

/-! ### The hunt for the sync pair (40_opmode.md R140, R141) -/

/-- The rule that `HUNT` and `SYNC2` share: a 'Z' leads to phase `p`, any other byte is discarded and the hunt begins
again. -/
def syncRule (p : Phase) (b : Byte) (f : Framer) : Framer :=
  if b = chZ then { f with phase := p } else { f.note (.discard b) with phase := .hunt }

theorem rxByte_hunt (c : Config) (b : Byte) {f : Framer} (h : f.phase = .hunt) :
    rxByte c b f = .ok (syncRule .sync2 b f) := by
  simp only [rxByte, h]; rfl

theorem rxByte_sync2 (c : Config) (b : Byte) {f : Framer} (h : f.phase = .sync2) :
    rxByte c b f = .ok (syncRule .req b f) := by
  simp only [rxByte, h]; rfl

/-- A step whose byte the shared rule takes. -/
theorem step_syncRule {s : State} {turns : List Turn} {b : Byte} {rest : List Byte} {p : Phase}
    (hnext : Claims.framerByteNext s turns) (hr : s.fr.rx = b :: rest) (hp : s.fr.phase ≠ .halt)
    (hx : rxByte s.cfg b (s.fr.withRx rest) = .ok (syncRule p b (s.fr.withRx rest))) :
    (b = chZ → step s = .next { s with sched := turns, fr := { s.fr with rx := rest, phase := p } }) ∧
      (b ≠ chZ → ∃ l,
        step s = .next { s with sched := turns, fr := { s.fr with rx := rest, phase := .hunt, log := l } }) := by
  have hstep : step s = .next { s with sched := turns, fr := syncRule p b (s.fr.withRx rest) } :=
    stepConsumesOneByte s turns b rest hnext hp hr _ hx
  rw [hstep]
  refine ⟨fun hb => ?_, fun hb => ?_⟩
  · rw [syncRule, if_pos hb]
    rfl
  · rw [syncRule, if_neg hb]
    exact ⟨_, rfl⟩

/-- Settles O60: both phases apply the one rule, with the phase that follows a 'Z'. -/
theorem huntTakesOnlyTheSyncPair : Obligations.HuntTakesOnlyTheSyncPair := by
  unfold Obligations.HuntTakesOnlyTheSyncPair
  intro s turns b rest hnext hr
  refine ⟨fun hp => ?_, fun hp => ?_⟩
  · exact step_syncRule hnext hr (by simp [hp]) (rxByte_hunt s.cfg b hp)
  · exact step_syncRule hnext hr (by simp [hp]) (rxByte_sync2 s.cfg b hp)

end Sys2Proof.Machine
end

section
/-!
PROOFS. The family of 41_fdc_commands.md: the commands without parameters (R170 to R201), the fields that halt (R163,
R168), the formats (R174 to R177), reads (R180 to R186), searches and writes of IDs (R189 to R194), sector writes
(R196 to R198), and the forced return of a format's chain (R176, R211).
-/

namespace Sys2Proof.Machine

open Claims

/-! ### The ends of a command -/

/-- Equal framers make equal answers. -/
theorem next_congr (s : State) {f g : Framer} (h : f = g) :
    (.next { s with fr := f } : Host.Outcome State Fault Refusal) = .next { s with fr := g } := h ▸ rfl

theorem sent_sent (bs cs : List Byte) (f : Framer) : sent cs (sent bs f) = sent (bs ++ cs) f := by
  simp only [sent, List.map_append, List.append_assoc]

/-- A send that ends the command. -/
theorem Framer.send_endCommand (bs : List Byte) (f : Framer) : (f.send bs).endCommand = ended f.mode (sent bs f) :=
  Framer.endCommand_eq_ended _

theorem Framer.storageFail_eq_halted (f : Framer) :
    f.storageFail = halted .storageRange (sent (ascii ['8','0','0','0','0','0','0','0']) f) := rfl

/-- The forced return, where a command ends in a chain that holds a format (41_fdc_commands.md R211). -/
theorem Framer.endCommand_forced {f : Framer} (hc : f.chain = true) (hf : f.forceOp = true) :
    f.endCommand.chain = false ∧ f.endCommand.forceOp = false ∧ f.endCommand.mode = .op ∧
      f.endCommand.phase = .hunt := by
  rw [Framer.endCommand_eq]
  simp [hc, hf]

/-- In a chain that holds a format a byte that ends no command keeps both bits, and one that does returns to OP. -/
theorem ByteEffect.forced {b : Byte} {f g : Framer} (h : ByteEffect b f g) (hc : f.chain = true)
    (hf : f.forceOp = true) :
    (g.chain = true ∧ g.forceOp = true) ∨
      (g.chain = false ∧ g.forceOp = false ∧ g.mode = .op ∧ g.phase = .hunt) := by
  cases h with
  | quiet _ _ _ _ _ hc' hf' => exact .inl ⟨hc'.trans hc, hf'.trans hf⟩
  | opened _ _ _ _ _ _ _ _ _ hc' hf' => exact .inl ⟨hc'.trans hc, hf'.trans hf⟩
  | resync | storageError => exact .inl ⟨hc, hf⟩
  | format | wroteId => exact .inl ⟨rfl, by simp [hf]⟩
  | _ => exact .inr (Framer.endCommand_forced hc hf)

/-- Settles O23, by the effects of one byte. -/
theorem forcedReturnEndsTheChainInOpMode : Obligations.ForcedReturnEndsTheChainInOpMode := by
  unfold Obligations.ForcedReturnEndsTheChainInOpMode
  intro s t hc hf h
  rcases framerByteStep_next h with ⟨_, rfl⟩ | ⟨b, rest, f, _, _, hx, rfl⟩
  · exact .inl ⟨hc, hf⟩
  · exact (rxByte_effect hx).forced hc hf

/-! ### Commands without parameters (41_fdc_commands.md R170, R171, R200, R201) -/

/-- Settles O27: the word is sent, then the command ends. -/
theorem heartbeatAnswersZeros : Obligations.HeartbeatAnswersZeros := by
  unfold Obligations.HeartbeatAnswersZeros
  exact fun s => next_congr s (Framer.send_endCommand wordOk s.fr)

/-- Settles O29: both commands are the one halt. -/
theorem unsupportedCommandsHalt : Obligations.UnsupportedCommandsHalt := by
  unfold Obligations.UnsupportedCommandsHalt
  exact fun s => ⟨rfl, rfl⟩

/-- Settles O30: the command's one record, then its end. -/
theorem unlistedCommandByteIsIgnored : Obligations.UnlistedCommandByteIsIgnored := by
  unfold Obligations.UnlistedCommandByteIsIgnored
  exact fun s b => ⟨_, next_congr s (Framer.endCommand_eq_ended (s.fr.note (.unknownCommand b)))⟩

/-- The state after the `ZZ` of a resync, where a request's code byte comes next (41_fdc_commands.md R171). -/
def State.atResync (s : State) : State := { s with fr := { s.fr with mode := .op, phase := .req } }

theorem exec_resync_ignore (code : Byte) (s : State) :
    exec (.resync (.ignore code)) s = exec (.reqIgn code) s.atResync := rfl

theorem exec_resync_enter (payload : List Byte) (ck : Byte) (s : State) :
    exec (.resync (.enter payload ck)) s = exec (.enterFdc payload ck) s.atResync := rfl

theorem fz2Byte_drop {b : Byte} (hb : b ≠ chZ) (f : Framer) :
    fz2Byte b f = ended f.mode (f.note (.discard b)) := by
  rw [fz2Byte, if_neg hb, Framer.endCommand_eq_ended]
  rfl

/-- Settles O28: the request after `ZZ` is an OpMode request (O25, O26) in the state with mode OP. -/
theorem resyncTakesTheFollowingRequest : Obligations.ResyncTakesTheFollowingRequest := by
  unfold Obligations.ResyncTakesTheFollowingRequest
  refine fun s => ⟨fun b hb => ⟨_, next_congr s (fz2Byte_drop hb s.fr)⟩, fun code => ?_, fun payload ck hl => ?_⟩
  · rw [exec_resync_ignore]
    exact unimplementedRequestIsIgnored s.atResync code
  · rw [exec_resync_enter]
    exact requestAcceptedExactlyOnItsChecksum s.atResync payload ck hl

/-! ### Fields (41_fdc_commands.md R163, R168) -/

theorem runField_broken (c : Byte) (close : Framer → Framer) (items : List ParmItem) (bad : Byte) (f : Framer) :
    (f.startCommand c).runField close (.broken items bad) = halted .paramSyntax (fieldTaken c items f) := by
  rw [Framer.runField, Framer.startCommand_takeItems]
  rfl

/-- Settles O32: a broken field halts whatever its completion would do. -/
theorem brokenFieldHalts : Obligations.BrokenFieldHalts := by
  unfold Obligations.BrokenFieldHalts
  intro s items bad _ _
  have h (c : Byte) (close : Framer → Framer) := next_congr s (runField_broken c close items bad s.fr)
  exact ⟨h chF (fmtFDone s.cfg), h chG (fmtGDone s.cfg), h chA (.closePsn rdidOpen), h chR (.closePsn rdsecOpen),
    h chS (.closePsn srchidOpen), h chB (.closePsn wridBOpen), h chC (.closePsn wridCOpen),
    h chW (.closePsn wrsecWOpen), h chX (.closePsn wrsecXOpen)⟩

/-- Settles O33: a PSN that the status word does not render halts before the command's handler runs. -/
theorem unrenderablePsnHalts : Obligations.UnrenderablePsnHalts := by
  unfold Obligations.UnrenderablePsnHalts
  intro s items hp
  have h (c : Byte) (opn : Framer → Framer) := next_congr s (Framer.closePsn_halt opn c items s.fr hp)
  exact ⟨h chA rdidOpen, h chR rdsecOpen, h chS srchidOpen, h chB wridBOpen, h chC wridCOpen, h chW wrsecWOpen,
    h chX wrsecXOpen⟩

/-! ### Status words (41_fdc_commands.md R165, 30_encoding.md R109) -/

/-- The sixteen uppercase digits. -/
def hexDigits : List Byte := ascii ['0','1','2','3','4','5','6','7','8','9','A','B','C','D','E','F']

theorem hexDigit_eq_getD : ∀ v < 16, hexDigit v = hexDigits.getD v 0#8 := by decide

theorem hexDigit_mem : ∀ v < 16, hexDigit v ∈ hexDigits := by decide

/-- Settles O34: both halves of a number up to 255 are values of a hex digit. -/
theorem statusWordIsUppercaseHex : Obligations.StatusWordIsUppercaseHex := by
  unfold Obligations.StatusWordIsUppercaseHex
  refine ⟨by decide, by decide, fun v hv => ?_⟩
  have hhi : v / 16 < 16 := by omega
  have hlo : v % 16 < 16 := by omega
  constructor
  · have hzero : 0x30#8 ∈ hexDigits := by decide
    show ∀ b ∈ statusPsn v, b ∈ hexDigits
    simp [statusPsn, hex2, hzero, hexDigit_mem _ hhi, hexDigit_mem _ hlo]
  · rw [statusPsn, hex2, hexDigit_eq_getD _ hhi, hexDigit_eq_getD _ hlo]
    rfl

/-! ### Formats (41_fdc_commands.md R174 to R177) -/

/-- A whole frame of `F` or `G`. -/
theorem formatFrame_eq (c : Byte) (cfg : Config) (word : List Byte) (items : List ParmItem) (f : Framer) :
    (f.startCommand c).runField (Framer.closeFormat cfg word) (.closed items) =
      { sent word (fieldTaken c items f) with
        bps := bpsOf cfg.bpsTable (fieldOfItems items)
        data := memZeroRange f.data 0 81920
        ids := memZeroRange f.ids 0 960
        chain := true
        forceOp := true
        phase := .cmd } := by
  rw [Framer.runField, Framer.startCommand_takeItems, Framer.closeFormat, Framer.chainNext, Bool.or_true]
  rfl

/-- Settles O35: `F` and `G` are one frame but for the word. -/
theorem formatZeroesTheStoreAndChains : Obligations.FormatZeroesTheStoreAndChains := by
  unfold Obligations.FormatZeroesTheStoreAndChains
  intro s items
  refine ⟨memZeroRange s.fr.data 0 81920, memZeroRange s.fr.ids 0 960, fun a => ?_, fun a => ?_, ?_, ?_⟩
  · simp [memRead_memZeroRange]
  · simp [memRead_memZeroRange]
  · exact next_congr s (formatFrame_eq chF s.cfg wordFormat items s.fr)
  · exact next_congr s (formatFrame_eq chG s.cfg wordOk items s.fr)

theorem bpsOf_code_above (table : List Nat) {k : Nat} (h : 6 < k) : bpsOf table [some k] = bpsDefault :=
  if_neg (Nat.not_le.2 h)

theorem bpsOf_otherField (table : List Nat) {field : List (Option Nat)} (h : ∀ k, field ≠ [some k]) :
    bpsOf table field = bpsDefault := by
  match field with
  | [some k] => exact absurd rfl (h k)
  | [] | [none] | none :: _ :: _ | some _ :: _ :: _ => rfl

/-- Settles O36: by the shape of the field. -/
theorem formatCodeSelectsBytesPerSector : Obligations.FormatCodeSelectsBytesPerSector := by
  unfold Obligations.FormatCodeSelectsBytesPerSector
  exact ⟨fun _ _ _ _ _ _ _ => rfl, fun table _ hk => bpsOf_code_above table hk,
    fun table _ hfield => bpsOf_otherField table hfield, rfl⟩

/-! ### Reads (41_fdc_commands.md R180 to R186) -/

/-- A framer at the gate of a read: the field is taken and the first status word sent. -/
def atGate (c : Byte) (items : List ParmItem) (f : Framer) : Framer :=
  { sent (statusPsn (psnOf (fieldOfItems items))) (psnTaken c items f) with phase := .gate }

/-- A whole frame of `A` or `R` with a renderable PSN comes to its gate byte. -/
theorem gateFrame_eq (take : Byte → Framer → Framer) (c : Byte) (items : List ParmItem) (b : Byte) (f : Framer)
    (hp : psnOf (fieldOfItems items) ≤ 255) :
    ((f.startCommand c).runField (Framer.closePsn Framer.awaitGate) (.closed items)).runGate take (some b) =
      take b (atGate c items f) := by
  simp only [Framer.runField, Framer.closePsn_ok _ c items f hp, Framer.runGate, Framer.awaitGate_phase, if_true]
  rfl

/-- What the gate byte makes the framer send follows the first status word. -/
theorem sent_atGate (c : Byte) (items : List ParmItem) (bs : List Byte) (f : Framer) :
    sent bs (atGate c items f) =
      { sent (statusPsn (psnOf (fieldOfItems items)) ++ bs) (psnTaken c items f) with phase := .gate } := by
  rw [← sent_sent]
  rfl

/-- The gate byte CR of `A`, at a sector of the store. -/
theorem rdidGate_inStore {f : Framer} (hp : f.psn < nSect) :
    rdidGate chCR f = ended f.mode (sent ((List.range 12).map fun j => memRead f.ids (12 * f.psn + j)) f) := by
  rw [rdidGate, if_pos rfl, Framer.idRead, if_pos hp, Nat.mul_comm 12]
  exact (Framer.send_endCommand _ f).trans (congrArg (fun bs => ended f.mode (sent bs f)) (f.sectorId_val f.psn))

/-- The gate byte CR of `R`, at a sector of the store. -/
theorem rdsecGate_inStore {f : Framer} (hp : f.psn < nSect) :
    rdsecGate chCR f = ended f.mode (sent ((List.range 1024).map fun j => memRead f.data (1024 * f.psn + j)) f) := by
  rw [rdsecGate, if_pos rfl, Framer.sectRead, if_pos hp, Nat.mul_comm 1024]
  exact (Framer.send_endCommand _ f).trans (congrArg (fun bs => ended f.mode (sent bs f)) (f.sector_val f.psn))

theorem rdidGate_outside {f : Framer} (hp : ¬f.psn < nSect) : rdidGate chCR f = f.storageFail := by
  rw [rdidGate, if_pos rfl, Framer.idRead, if_neg hp]
  rfl

theorem rdsecGate_outside {f : Framer} (hp : ¬f.psn < nSect) : rdsecGate chCR f = f.storageFail := by
  rw [rdsecGate, if_pos rfl, Framer.sectRead, if_neg hp]
  rfl

theorem Framer.gateDrop_eq_ended (b : Byte) (f : Framer) :
    f.gateDrop b = ended f.mode (f.note (.gateNotCR b)) := Framer.endCommand_eq_ended _

/-- Settles O37: the frame comes to its gate, and the CR there sends the ID. -/
theorem readIdSendsTheId : Obligations.ReadIdSendsTheId := by
  unfold Obligations.ReadIdSendsTheId
  intro s items hp p
  refine next_congr s ((gateFrame_eq rdidGate chA items chCR s.fr (hp.trans (by decide))).trans ?_)
  rw [rdidGate_inStore (Nat.lt_succ_of_le hp), sent_atGate]
  rfl

/-- Settles O38: the frame comes to its gate, and the CR there sends the sector. -/
theorem readSectorSendsTheData : Obligations.ReadSectorSendsTheData := by
  unfold Obligations.ReadSectorSendsTheData
  intro s items hp p
  refine next_congr s ((gateFrame_eq rdsecGate chR items chCR s.fr (hp.trans (by decide))).trans ?_)
  rw [rdsecGate_inStore (Nat.lt_succ_of_le hp), sent_atGate]
  rfl

/-- Settles O39: both gates drop the byte alike. -/
theorem otherGateByteSendsNoPayload : Obligations.OtherGateByteSendsNoPayload := by
  unfold Obligations.OtherGateByteSendsNoPayload
  intro s items b hp hb p
  have hdrop (c : Byte) (take : Byte → Framer → Framer) (htake : ∀ f, take b f = f.gateDrop b) :=
    next_congr s ((gateFrame_eq take c items b s.fr hp).trans ((htake _).trans (Framer.gateDrop_eq_ended b _)))
  exact ⟨⟨_, hdrop chA rdidGate fun f => if_neg hb⟩, ⟨_, hdrop chR rdsecGate fun f => if_neg hb⟩⟩

/-- Settles O40: both gates meet the storage error alike. -/
theorem readBeyondTheStoreHalts : Obligations.ReadBeyondTheStoreHalts := by
  unfold Obligations.ReadBeyondTheStoreHalts
  intro s items hp hp255 p bs
  have hstore : ¬p < nSect := Nat.not_lt.2 hp
  have hfail (c : Byte) (take : Byte → Framer → Framer)
      (htake : take chCR (atGate c items s.fr) = (atGate c items s.fr).storageFail) :
      ((s.fr.startCommand c).runField (Framer.closePsn Framer.awaitGate) (.closed items)).runGate take (some chCR) =
        halted .storageRange (sent bs (psnTaken c items s.fr)) := by
    rw [gateFrame_eq take c items chCR s.fr hp255, htake, Framer.storageFail_eq_halted, sent_atGate]
    rfl
  exact ⟨next_congr s (hfail chA rdidGate (rdidGate_outside hstore)),
    next_congr s (hfail chR rdsecGate (rdsecGate_outside hstore))⟩

/-! ### Payloads (41_fdc_commands.md R189 to R198) -/

/-- A framer with the whole ID or data payload of its frame in the buffer: the field is taken and the first status word
sent. -/
def payloadTaken (ph : Phase) (c : Byte) (items : List ParmItem) {n : Nat} (v : Bytes n) (f : Framer) : Framer :=
  { sent (statusPsn (psnOf (fieldOfItems items))) (psnTaken c items f) with buf := v.val, bufCount := n, phase := ph }

/-- A whole frame of `S`, `B` or `C` with a renderable PSN comes to the completion of its command. -/
theorem idFrame_eq (done : Bytes 12 → Framer → Framer) (c : Byte) (items : List ParmItem) (v : Bytes 12) (f : Framer)
    (hp : psnOf (fieldOfItems items) ≤ 255) :
    ((f.startCommand c).runField (Framer.closePsn (Framer.awaitPayload .idin)) (.closed items)).runId done (some v) =
      done v (payloadTaken .idin c items v f) := by
  simp only [Framer.runField, Framer.closePsn_ok _ c items f hp, Framer.runId, Framer.awaitPayload_phase, if_true]
  simp only [Framer.receive, Framer.awaitPayload, v.2, List.nil_append, Nat.zero_add]
  rfl

/-- What the completion makes the framer send follows the first status word. -/
theorem sent_payloadTaken (ph : Phase) (c : Byte) (items : List ParmItem) {n : Nat} (v : Bytes n) (bs : List Byte)
    (f : Framer) :
    sent bs (payloadTaken ph c items v f) =
      { sent (statusPsn (psnOf (fieldOfItems items)) ++ bs) (psnTaken c items f) with
        buf := v.val, bufCount := n, phase := ph } := by
  rw [← sent_sent]
  rfl

/-- A payload for a sector or an ID that is not in the store. -/
theorem storageFail_payloadTaken (ph : Phase) (c : Byte) (items : List ParmItem) {n : Nat} (v : Bytes n) (f : Framer) :
    (payloadTaken ph c items v f).storageFail = halted .storageRange
      { sent (statusPsn (psnOf (fieldOfItems items)) ++ ascii ['8','0','0','0','0','0','0','0'])
          (psnTaken c items f) with buf := v.val, bufCount := n } := by
  rw [Framer.storageFail_eq_halted, sent_payloadTaken]
  rfl

/-! ### The ID search (41_fdc_commands.md R189, R191, 20_memory.md R66) -/

theorem Framer.sectorId_eq_iff (f : Framer) (k : Nat) (v : Bytes 12) :
    f.sectorId k = v ↔ v.val = (List.range 12).map fun j => memRead f.ids (12 * k + j) := by
  rw [Subtype.ext_iff, Framer.sectorId_val, Nat.mul_comm 12]
  exact eq_comm

/-- Sector k is one of the store, from s on, and has ID v. -/
def Framer.IsHit (f : Framer) (s : Nat) (v : Bytes 12) (k : Nat) : Prop :=
  s ≤ k ∧ k ≤ 79 ∧ v.val = (List.range 12).map fun j => memRead f.ids (12 * k + j)

theorem Framer.isHit_of_idFind {f : Framer} {s k : Nat} {v : Bytes 12} (h : f.idFind s v = some k) :
    f.IsHit s v k := by
  obtain ⟨hs, hk, hid, _⟩ := f.idFind_some s v k h
  exact ⟨hs, Nat.le_of_lt_succ hk, (f.sectorId_eq_iff k v).1 hid⟩

/-- A hit with no hit before it is the search's answer. -/
theorem Framer.idFind_eq_some {f : Framer} {s k : Nat} {v : Bytes 12} (hk : f.IsHit s v k)
    (hfirst : ∀ j, j < k → ¬f.IsHit s v j) : f.idFind s v = some k := by
  obtain ⟨hs, h79, hid⟩ := hk
  have hid := (f.sectorId_eq_iff k v).2 hid
  cases hfind : f.idFind s v with
  | none => exact absurd hid (f.idFind_none s v hfind k hs (Nat.lt_succ_of_le h79))
  | some j =>
    obtain ⟨_, _, _, hleast⟩ := f.idFind_some s v j hfind
    have hjk : ¬j < k := fun hlt => hfirst j hlt (Framer.isHit_of_idFind hfind)
    have hkj : ¬k < j := fun hlt => hleast k hs hlt hid
    rw [show j = k by omega]

theorem Framer.idFind_eq_none {f : Framer} {s : Nat} {v : Bytes 12} (h : ∀ k, ¬f.IsHit s v k) :
    f.idFind s v = none := by
  cases hfind : f.idFind s v with
  | none => rfl
  | some k => exact absurd (Framer.isHit_of_idFind hfind) (h k)

theorem srchidDone_some {f : Framer} {v : Bytes 12} {k : Nat} (h : f.idFind f.psn v = some k) :
    srchidDone v f = ended f.mode (sent (statusPsn k) f) := by
  rw [srchidDone, h]
  exact Framer.send_endCommand _ f

theorem srchidDone_none {f : Framer} {v : Bytes 12} (h : f.idFind f.psn v = none) :
    srchidDone v f = ended f.mode (sent wordMiss f) := by
  rw [srchidDone, h]
  exact Framer.send_endCommand _ f

/-- Settles O41: the frame's search answers the first hit, or that there is none. -/
theorem searchAnswersTheFirstMatch : Obligations.SearchAnswersTheFirstMatch := by
  unfold Obligations.SearchAnswersTheFirstMatch
  intro s items v hp p hit f
  have hframe := idFrame_eq srchidDone chS items v s.fr hp
  refine ⟨fun k hk hfirst => next_congr s (hframe.trans ?_), fun hmiss => next_congr s (hframe.trans ?_)⟩
  · have hfind : (payloadTaken .idin chS items v s.fr).idFind p v = some k :=
      Framer.idFind_eq_some (f := payloadTaken .idin chS items v s.fr) hk hfirst
    rw [srchidDone_some hfind, sent_payloadTaken]
    rfl
  · have hfind : (payloadTaken .idin chS items v s.fr).idFind p v = none :=
      Framer.idFind_eq_none (f := payloadTaken .idin chS items v s.fr) hmiss
    rw [srchidDone_none hfind, sent_payloadTaken]
    rfl

/-! ### Writes (41_fdc_commands.md R193 to R198) -/

/-- The end of an ID write in the store (41_fdc_commands.md R194). -/
theorem Framer.finishIdWrite_inStore (v : Bytes 12) {f : Framer} (hp : f.psn < nSect) :
    f.finishIdWrite v = { sent (statusPsn f.psn) f with
      ids := memWriteRange f.ids (12 * f.psn) v.val, chain := true, phase := .cmd } := by
  simp only [Framer.finishIdWrite, Framer.idWrite_ok _ v f hp, Framer.chainNext, Bool.or_false]
  rfl

theorem Framer.finishIdWrite_outside (v : Bytes 12) {f : Framer} (hp : ¬f.psn < nSect) :
    f.finishIdWrite v = f.storageFail := by
  rw [Framer.finishIdWrite, Framer.idWrite_error _ v f hp]

/-- The end of a write of an even sector of the store (41_fdc_commands.md R198). -/
theorem Framer.finishSectorWrite_even (d : Bytes 1024) {f : Framer} (hp : f.psn < nSect) (heven : f.psn % 2 = 0) :
    f.finishSectorWrite d = ended f.mode { sent (statusPsn f.psn) f with
      data := memWriteRange f.data (1024 * f.psn) d.val } := by
  rw [Framer.finishSectorWrite, Framer.sectWrite_even _ d f hp (by omega)]
  exact Framer.endCommand_eq_ended _

theorem Framer.finishSectorWrite_outside (d : Bytes 1024) {f : Framer} (hp : ¬f.psn < nSect) :
    f.finishSectorWrite d = f.storageFail := by
  rw [Framer.finishSectorWrite, Framer.sectWrite_error _ d f hp]

/-- Settles O42: `B` and `C` are one frame. -/
theorem writeIdStoresAndChains : Obligations.WriteIdStoresAndChains := by
  unfold Obligations.WriteIdStoresAndChains
  intro s items v hp p
  have hframe (c : Byte) :
      ((s.fr.startCommand c).runField (Framer.closePsn (Framer.awaitPayload .idin)) (.closed items)).runId
          Framer.finishIdWrite (some v) =
        { sent (statusPsn p ++ statusPsn p) (psnTaken c items s.fr) with
          ids := memWriteRange s.fr.ids (12 * p) v.val
          buf := v.val
          bufCount := 12
          chain := true
          phase := .cmd } := by
    rw [idFrame_eq _ c items v s.fr (hp.trans (by decide)),
      Framer.finishIdWrite_inStore v (Nat.lt_succ_of_le hp), sent_payloadTaken]
    rfl
  refine ⟨memWriteRange s.fr.ids (12 * p) v.val, fun a ha => ?_, memReadBack _ _ _ _ v.2, next_congr s (hframe chB),
    next_congr s (hframe chC)⟩
  rw [memRead_memWriteRange, dif_neg (by rw [v.2]; omega)]

/-- Settles O43: `W` and `X` are one frame. -/
theorem evenSectorWriteStores : Obligations.EvenSectorWriteStores := by
  unfold Obligations.EvenSectorWriteStores
  intro s items d hp heven p
  have hframe (c : Byte) :
      ((s.fr.startCommand c).runField (Framer.closePsn (Framer.awaitPayload .datin)) (.closed items)).runData
          Framer.finishSectorWrite (some d) =
        ended s.fr.mode { sent (statusPsn p ++ statusPsn p) (psnTaken c items s.fr) with
          data := memWriteRange s.fr.data (1024 * p) d.val, buf := d.val, bufCount := 1024 } := by
    calc _ = (payloadTaken .datin c items d s.fr).finishSectorWrite d :=
          dataFrame_eq_finishSectorWrite c items d s.fr (hp.trans (by decide))
      _ = _ := Framer.finishSectorWrite_even d (Nat.lt_succ_of_le hp) heven
      _ = _ := by rw [sent_payloadTaken]; rfl
  refine ⟨memWriteRange s.fr.data (1024 * p) d.val, fun a ha => ?_, memReadBack _ _ _ _ d.2, next_congr s (hframe chW),
    next_congr s (hframe chX)⟩
  rw [memRead_memWriteRange, dif_neg (by rw [d.2]; omega)]

/-- Settles O45: each of the four frames comes to its write with the payload taken, and the write fails. -/
theorem writeBeyondTheStoreHalts : Obligations.WriteBeyondTheStoreHalts := by
  unfold Obligations.WriteBeyondTheStoreHalts
  intro s items v d hp hp255 bs
  have hstore : ¬psnOf (fieldOfItems items) < nSect := Nat.not_lt.2 hp
  have hid (c : Byte) := next_congr s <| (idFrame_eq Framer.finishIdWrite c items v s.fr hp255).trans <|
    (Framer.finishIdWrite_outside v hstore).trans (storageFail_payloadTaken .idin c items v s.fr)
  have hdata (c : Byte) := next_congr s <| (dataFrame_eq_finishSectorWrite c items d s.fr hp255).trans <|
    (Framer.finishSectorWrite_outside d hstore).trans (storageFail_payloadTaken .datin c items d s.fr)
  exact ⟨hid chB, hid chC, hdata chW, hdata chX⟩

end Sys2Proof.Machine
end

section
/-!
PROOFS. The family of 43_pattern_table.md: the size functions (R220 to R222), the table decode (R230, R231) and the
lookup (R232, R233).
-/

namespace Sys2Proof.Machine

open Claims

/-! ### Size functions (43_pattern_table.md R220 to R222) -/

/-- The source's form of `NPR` (43_pattern_table.md R221): rounding the stitches up to a multiple of 4 first. -/
theorem nibblesPerRow_eq_roundedUp (st : Nat) : nibblesPerRow st = ((st + 3) / 4 * 4 + 3) / 4 := by
  show (st + 3) / 4 = _
  omega

/-- Settles O46: `BFM` and `BPP` are the quotients by definition, `NPR` in the source's form by rounding. -/
theorem sizeFunctionsAnswer : Obligations.SizeFunctionsAnswer := by
  unfold Obligations.SizeFunctionsAnswer
  refine ⟨fun s r st => ⟨rfl, ?_, rfl⟩, by decide⟩
  rw [← nibblesPerRow_eq_roundedUp]
  rfl

/-! ### The table decode (43_pattern_table.md R230, R231) -/

/-- A zero flag in the blob stops the scan. -/
theorem scanTable_zeroFlag {c : Config} {blob : Memory} {i : Nat} (k : Nat) (hin : 7 * i < c.blobLen)
    (hflag : memRead blob (7 * i) = 0#8) : scanTable c blob k (i + 1) = .ok [] := by
  cases k with
  | zero => rfl
  | succ k =>
    rw [scanTable, slotBase, blobRead_ok c.blobLen blob (7 * i) hin]
    exact if_pos hflag

/-- A flag beyond the blob fails the scan. -/
theorem scanTable_flagBeyond {c : Config} {blob : Memory} {i : Nat} (k : Nat) (hout : c.blobLen ≤ 7 * i) :
    scanTable c blob (k + 1) (i + 1) = .error .codecRange := by
  rw [scanTable, slotBase, blobRead_beyond c.blobLen blob (7 * i) hout]
  rfl

/-- A nonzero flag whose slot does not end in the blob fails the scan. -/
theorem scanTable_slotBeyond {c : Config} {blob : Memory} {i : Nat} (k : Nat) (hin : 7 * i < c.blobLen)
    (hflag : memRead blob (7 * i) ≠ 0#8) (hout : c.blobLen < 7 * i + 7) :
    scanTable c blob (k + 1) (i + 1) = .error .codecRange := by
  rw [scanTable, slotBase, blobRead_ok c.blobLen blob (7 * i) hin]
  refine (if_neg hflag).trans ?_
  rw [readSlot_beyond c blob i _ hout]
  rfl

/-- A table whose first k slots have nonzero flags and lie in the blob is their records and the scan of the rest. -/
theorem decodeTable_eq_slots_append {c : Config} {blob : Memory} {k : Nat} (hk : k ≤ 99) (hl : 7 * k ≤ c.blobLen)
    (hf : ∀ i, i < k → memRead blob (7 * i) ≠ 0#8) :
    decodeTable c blob = (scanTable c blob (99 - k) (k + 1)).map ((List.range k).map (slotAt c blob) ++ ·) := by
  have h := scanTable_append c blob (99 - k) k 0 (by simpa using hl) (by simpa using hf)
  simpa only [decodeTable, nSlot, Nat.add_sub_of_le hk, Nat.zero_add] using h

theorem exec_tdec (s : State) :
    exec .tdec s = .next { s with co := s.co.finish ((decodeTable s.cfg s.co.blob).map Result.slots) } := rfl

theorem exec_tdec_of_ok {s : State} {l : List SlotRecord} (h : decodeTable s.cfg s.co.blob = .ok l) :
    exec .tdec s = .next { s with co := succeeded (.slots l) s.co } := by
  rw [exec_tdec, h]
  rfl

theorem exec_tdec_of_error {s : State} {e : Status} (h : decodeTable s.cfg s.co.blob = .error e) :
    exec .tdec s = .next { s with co := failed .codecRange s.co } := by
  rw [exec_tdec, h, decodeTable_error h]
  rfl

/-- Settles O48: past the first k slots the scan is over, or it meets one of its three ends. -/
theorem tableDecodeReadsTheSlots : Obligations.TableDecodeReadsTheSlots := by
  unfold Obligations.TableDecodeReadsTheSlots
  intro s k hk hl hf
  have hdecode := decodeTable_eq_slots_append hk hl hf
  refine ⟨fun hstop => ?_, fun ⟨hlt, hout⟩ => ?_⟩
  · have hrest : scanTable s.cfg s.co.blob (99 - k) (k + 1) = .ok [] := by
      rcases hstop with rfl | ⟨hin, hflag⟩
      · rfl
      · exact scanTable_zeroFlag _ hin hflag
    rw [hrest] at hdecode
    exact exec_tdec_of_ok (hdecode.trans (congrArg Except.ok (List.append_nil _)))
  · have hrest : scanTable s.cfg s.co.blob (99 - k) (k + 1) = .error .codecRange := by
      rw [show 99 - k = 98 - k + 1 by omega]
      rcases hout with hend | ⟨hflag, hshort, hin⟩
      · exact scanTable_flagBeyond _ hend.ge
      · exact scanTable_slotBeyond _ hin hflag hshort
    rw [hrest] at hdecode
    exact exec_tdec_of_error hdecode

/-! ### The lookup (43_pattern_table.md R232, R233) -/

theorem exec_lookup (s : State) (n : Nat) :
    exec (.lookup n) s =
      .next { s with co := s.co.finish ((lookupSlot s.cfg s.co.blob n).map lookupResult) } := rfl

theorem exec_lookup_of_ok {s : State} {l : List SlotRecord} (n : Nat) (h : decodeTable s.cfg s.co.blob = .ok l) :
    exec (.lookup n) s =
      .next { s with co := succeeded (lookupResult (l.find? fun r => r.number == n)) s.co } := by
  rw [exec_lookup, lookupSlot, h]
  rfl

theorem exec_lookup_of_error {s : State} {e : Status} (n : Nat) (h : decodeTable s.cfg s.co.blob = .error e) :
    exec (.lookup n) s = .next { s with co := failed .codecRange s.co } := by
  rw [exec_lookup, lookupSlot, h, decodeTable_error h]
  rfl

/-- Settles O49: the lookup is `List.find?` on the decoded table. -/
theorem lookupAnswersTheFirstRecord : Obligations.LookupAnswersTheFirstRecord := by
  unfold Obligations.LookupAnswersTheFirstRecord
  intro s n
  refine ⟨fun l l1 slot l2 hl happ hnum hfirst => ?_, fun l hl habsent => ?_, fun e he => exec_lookup_of_error n he⟩
  · have hfind : l.find? (fun r => r.number == n) = some slot :=
      List.find?_eq_some_iff_append.2 ⟨by simpa using hnum, l1, l2, happ, by simpa using hfirst⟩
    rw [exec_lookup_of_ok n hl, hfind]
    rfl
  · have hfind : l.find? (fun r => r.number == n) = none := List.find?_eq_none.2 (by simpa using habsent)
    rw [exec_lookup_of_ok n hl, hfind]
    rfl

end Sys2Proof.Machine
end

section
/-!
PROOFS. The family of 44_pattern_codec.md: the decodes (R250 to R253), the encoding (R254, R255), the round trip (R256)
and the replacement (R258 to R262).
-/

namespace Sys2Proof.Machine

open Claims

/-! ### Regions of nibbles (20_memory.md R76) -/

/-- The bytes of `total` nibbles below `base` lie in a blob of n bytes. -/
def NibblesInBlob (n : Nat) (base : Int) (total : Nat) : Prop :=
  total = 0 ∨ (((total - 1) / 2 : Nat) ≤ base ∧ base < n)

/-- A bit of a region of the blob. -/
theorem bitAt_of_nibblesInBlob {n total k i : Nat} {base : Int} (m : Memory) (hregion : NibblesInBlob n base total)
    (hk : k < total) (hi : i < 4) : bitAt n m base k i = .ok (nibbleBit m base k i) := by
  rcases hregion with rfl | ⟨hlow, hhigh⟩
  · exact absurd hk (Nat.not_lt_zero k)
  · exact bitAt_ok n m base k i hi (by omega) (by omega)

/-- A region that leaves the blob does so at its first nibble or at its last. -/
theorem exists_bitAt_error {n total : Nat} {base : Int} (m : Memory)
    (hout : total ≠ 0 ∧ (base < ((total - 1) / 2 : Nat) ∨ (n : Int) ≤ base)) :
    ∃ k < total, ∀ i, bitAt n m base k i = .error .codecRange := by
  obtain ⟨hne, hlow | hhigh⟩ := hout
  · exact ⟨total - 1, by omega, fun i => bitAt_error n m base _ i (.inl hlow)⟩
  · exact ⟨0, by omega, fun i => bitAt_error n m base 0 i (.inr (by simpa using hhigh))⟩

/-- The nibble of column c is one of its row's. -/
theorem div_four_lt_nprOf {st c : Nat} (hc : c < st) : c / 4 < nprOf st := by
  show c / 4 < (st + 3) / 4
  omega

/-- The first column of a nibble of a row is one of the row's. -/
theorem four_mul_lt_of_lt_nprOf {st x : Nat} (hx : x < nprOf st) : 4 * x < st := by
  have hx : x < (st + 3) / 4 := hx
  omega

/-! ### The bitmap decode (44_pattern_codec.md R250, R251) -/

/-- The bitmap region of a slot lies in a blob of n bytes. -/
def BitmapInBlob (n : Nat) (slot : SlotRecord) : Prop :=
  NibblesInBlob n slot.patternOffset (slot.rows * nprOf slot.stitches)

/-- The grid that the bitmap region of a slot spells. -/
def bitmapGrid (m : Memory) (slot : SlotRecord) : Grid :=
  gridOf slot.rows slot.stitches fun r c => nibbleBit m slot.patternOffset (r * nprOf slot.stitches + c / 4) (c % 4)

theorem gridBit_bitmapGrid (m : Memory) {slot : SlotRecord} {r c : Nat} (hr : r < slot.rows) (hc : c < slot.stitches) :
    gridBit (bitmapGrid m slot) r c =
      nibbleBit m slot.patternOffset (r * nprOf slot.stitches + c / 4) (c % 4) :=
  gridBit_gridOf _ _ _ r c hr hc

theorem bitmapBit_ok {n : Nat} {slot : SlotRecord} (m : Memory) (hregion : BitmapInBlob n slot) {r c : Nat}
    (hr : r < slot.rows) (hc : c < slot.stitches) :
    bitmapBit n m slot r c = .ok (nibbleBit m slot.patternOffset (r * nprOf slot.stitches + c / 4) (c % 4)) :=
  bitAt_of_nibblesInBlob m hregion (rowIndex_lt _ _ r (c / 4) hr (div_four_lt_nprOf hc))
    (Nat.mod_lt c (by decide))

theorem decodeBitmap_ok {n : Nat} {slot : SlotRecord} (m : Memory) (hregion : BitmapInBlob n slot) :
    decodeBitmap n m slot = .ok (bitmapGrid m slot) := by
  refine decodeBitmap_eq n m slot (bitmapGrid m slot) rfl rfl fun r hr c hc => ?_
  rw [bitmapBit_ok m hregion hr hc, gridBit_bitmapGrid m hr hc]

/-- One read that raises fails the decode. -/
theorem decodeBitmap_error {n : Nat} {m : Memory} {slot : SlotRecord} {r c : Nat} {e : Status} (hr : r < slot.rows)
    (hc : c < slot.stitches) (h : bitmapBit n m slot r c = .error e) :
    decodeBitmap n m slot = .error .codecRange := by
  refine if_neg fun hall => ?_
  have hread := (tabulate_all _ _ _).1 hall r hr c hc
  rw [h] at hread
  exact Bool.false_ne_true hread

theorem decodeBitmap_beyond {n : Nat} {slot : SlotRecord} (m : Memory)
    (hout : slot.rows * nprOf slot.stitches ≠ 0 ∧
      (slot.patternOffset < ((slot.rows * nprOf slot.stitches - 1) / 2 : Nat) ∨ (n : Int) ≤ slot.patternOffset)) :
    decodeBitmap n m slot = .error .codecRange := by
  obtain ⟨k, hk, herror⟩ := exists_bitAt_error m hout
  have hnpr : 0 < nprOf slot.stitches := Nat.pos_of_ne_zero (right_ne_zero_of_mul hout.1)
  have hrow : k / nprOf slot.stitches < slot.rows := Nat.div_lt_of_lt_mul (Nat.mul_comm _ _ ▸ hk)
  have hcol : 4 * (k % nprOf slot.stitches) < slot.stitches := four_mul_lt_of_lt_nprOf (Nat.mod_lt k hnpr)
  refine decodeBitmap_error hrow hcol (e := .codecRange) ?_
  have hindex : k / nprOf slot.stitches * nprOf slot.stitches + 4 * (k % nprOf slot.stitches) / 4 = k := by
    rw [Nat.mul_div_cancel_left _ (by decide), Nat.div_add_mod']
  rw [bitmapBit, show nibblesPerRow slot.stitches = nprOf slot.stitches from rfl, hindex]
  exact herror _

theorem exec_bdec (slot : SlotRecord) (s : State) :
    exec (.bdec slot) s =
      .next { s with co := s.co.finish ((decodeBitmap s.cfg.blobLen s.co.blob slot).map Result.grid) } := rfl

theorem exec_bdec_of_ok {s : State} {slot : SlotRecord} {g : Grid}
    (h : decodeBitmap s.cfg.blobLen s.co.blob slot = .ok g) :
    exec (.bdec slot) s = .next { s with co := succeeded (.grid g) s.co } := by
  rw [exec_bdec, h]
  rfl

/-- Settles O50: the decode answers when the region lies in the blob, and meets a read that raises when it does not. -/
theorem bitmapDecodeReadsTheBits : Obligations.BitmapDecodeReadsTheBits := by
  unfold Obligations.BitmapDecodeReadsTheBits
  refine fun s slot => ⟨fun hregion => ?_, fun hout => ?_⟩
  · exact ⟨bitmapGrid s.co.blob slot, exec_bdec_of_ok (decodeBitmap_ok _ hregion), rfl, rfl,
      fun r c hr hc => gridBit_bitmapGrid s.co.blob hr hc⟩
  · rw [exec_bdec, decodeBitmap_beyond _ hout]
    rfl

/-! ### The memo decode (44_pattern_codec.md R252, R253) -/

/-- The memo region of a slot lies in a blob of n bytes. -/
def MemoInBlob (n : Nat) (slot : SlotRecord) : Prop := NibblesInBlob n slot.memoOffset slot.rows

theorem memoBit_ok {n : Nat} {slot : SlotRecord} (m : Memory) (hregion : MemoInBlob n slot) {r : Nat}
    (hr : r < slot.rows) : memoBit n m slot r = .ok (nibbleBit m slot.memoOffset r 0) :=
  bitAt_of_nibblesInBlob m hregion hr (by decide)

theorem decodeMemo_ok {n : Nat} {slot : SlotRecord} (m : Memory) (hregion : MemoInBlob n slot) :
    decodeMemo n m slot = .ok ((List.range slot.rows).map fun r => nibbleBit m slot.memoOffset r 0) := by
  have hread (r : Nat) (hr : r ∈ List.range slot.rows) := memoBit_ok m hregion (List.mem_range.1 hr)
  rw [decodeMemo, if_pos (List.all_eq_true.2 fun r hr => by rw [hread r hr]; rfl)]
  exact congrArg Except.ok (List.map_congr_left fun r hr => by rw [hread r hr]; rfl)

theorem decodeMemo_beyond {n : Nat} {slot : SlotRecord} (m : Memory)
    (hout : slot.rows ≠ 0 ∧ (slot.memoOffset < ((slot.rows - 1) / 2 : Nat) ∨ (n : Int) ≤ slot.memoOffset)) :
    decodeMemo n m slot = .error .codecRange := by
  obtain ⟨k, hk, herror⟩ := exists_bitAt_error m hout
  refine if_neg fun hall => ?_
  have hread := List.all_eq_true.1 hall k (List.mem_range.2 hk)
  rw [memoBit, herror] at hread
  exact Bool.false_ne_true hread

theorem exec_mdec (slot : SlotRecord) (s : State) :
    exec (.mdec slot) s =
      .next { s with co := s.co.finish ((decodeMemo s.cfg.blobLen s.co.blob slot).map Result.bits) } := rfl

theorem exec_mdec_of_ok {s : State} {slot : SlotRecord} {l : List Bool}
    (h : decodeMemo s.cfg.blobLen s.co.blob slot = .ok l) :
    exec (.mdec slot) s = .next { s with co := succeeded (.bits l) s.co } := by
  rw [exec_mdec, h]
  rfl

/-- Settles O51: the memo's nibbles are a region as the bitmap's are, one nibble for each row. -/
theorem memoDecodeReadsTheFlags : Obligations.MemoDecodeReadsTheFlags := by
  unfold Obligations.MemoDecodeReadsTheFlags
  refine fun s slot => ⟨fun hregion => exec_mdec_of_ok (decodeMemo_ok _ hregion), fun hout => ?_⟩
  rw [exec_mdec, decodeMemo_beyond _ hout]
  rfl

/-! ### The encoding (44_pattern_codec.md R254, R255) -/

/-- The pad nibble of an odd number of nibbles. -/
theorem encodeGrid_padNibble (g : Grid) (hodd : g.rows * nprOf g.stitches % 2 = 1) {i : Nat} (hi : i < 4) :
    ((encodeGrid g).getD (g.rows * nprOf g.stitches / 2) 0#8).getLsbD (4 + i) = false := by
  have hlen : (gridNibbles g).length = g.rows * nprOf g.stitches := gridNibbles_length g
  have hbit := packNibbles_getLsbD (gridNibbles g) (g.rows * nprOf g.stitches) i (by omega) hi
  rw [hodd, List.getD_eq_default _ _ hlen.le] at hbit
  exact hbit.trans BitVec.getLsbD_zero

/-- Settles O52: the laws of the encoding; a padding column's stitch reads as 0. -/
theorem encodedGridHoldsTheBits : Obligations.EncodedGridHoldsTheBits := by
  unfold Obligations.EncodedGridHoldsTheBits
  refine fun s g => ⟨encodeGrid g, rfl, encodeGrid_length g, fun r c hr hc => ?_,
    fun hodd i hi => encodeGrid_padNibble g hodd hi⟩
  refine (encodeGrid_getLsbD g r c hr hc).trans ?_
  by_cases hcol : c < g.stitches
  · rw [decide_eq_true hcol, Bool.true_and]
  · rw [gridBit_pad g r c (Nat.not_lt.1 hcol), Bool.and_false]

/-! ### The round trip (44_pattern_codec.md R256) -/

/-- The bytes of a grid's encoding stand in memory from `base` down (44_pattern_codec.md R255). -/
def HoldsEncoding (m : Memory) (base : Int) (g : Grid) : Prop :=
  ∀ j, j < (encodeGrid g).length → memRead m (base - (j : Nat)).toNat = (encodeGrid g).getD j 0#8

theorem HoldsEncoding.nibbleBit_eq {m : Memory} {base : Int} {g : Grid} (h : HoldsEncoding m base g) {r c : Nat}
    (hr : r < g.rows) (hc : c < g.stitches) :
    nibbleBit m base (r * nprOf g.stitches + c / 4) (c % 4) = gridBit g r c := by
  have hcol : c / 4 < nprOf g.stitches := div_four_lt_nprOf hc
  have hindex := rowIndex_lt g.rows (nprOf g.stitches) r (c / 4) hr hcol
  have hlen : (encodeGrid g).length = (g.rows * nprOf g.stitches + 1) / 2 := encodeGrid_length g
  have hbyte := h ((r * nprOf g.stitches + c / 4) / 2) (by omega)
  rw [nibbleBit, hbyte]
  exact encodeGrid_getLsbD g r c hr (show c < 4 * nprOf g.stitches by omega)

/-- A slot whose bitmap region holds a grid's encoding decodes to the grid. -/
theorem HoldsEncoding.decodeBitmap_ok {n : Nat} {m : Memory} {slot : SlotRecord} {g : Grid}
    (h : HoldsEncoding m slot.patternOffset g) (hrows : slot.rows = g.rows) (hstitches : slot.stitches = g.stitches)
    (hregion : BitmapInBlob n slot) : decodeBitmap n m slot = .ok g := by
  refine decodeBitmap_eq n m slot g hrows hstitches fun r hr c hc => ?_
  rw [bitmapBit_ok m hregion (hrows ▸ hr) (hstitches ▸ hc), hstitches, h.nibbleBit_eq hr hc]

theorem holdsEncoding_storeDown {blob : Memory} (hwf : Memory.wf blob = true) {base : Int} {g : Grid}
    (hbase : encodeGrid g ≠ [] → ((encodeGrid g).length : Int) ≤ base + 1) :
    HoldsEncoding (storeDown blob base (encodeGrid g)) base g := by
  intro j hj
  have hne : encodeGrid g ≠ [] := List.ne_nil_of_length_pos (Nat.zero_lt_of_lt hj)
  rw [memRead_storeDown blob hwf base _ j (hbase hne) hj, List.getD_eq_getElem _ _ hj]

/-- Settles O53: what is stored is the grid's encoding, in a region of the blob. -/
theorem decodeOfStoredEncodingIsTheGrid : Obligations.DecodeOfStoredEncodingIsTheGrid := by
  unfold Obligations.DecodeOfStoredEncodingIsTheGrid
  intro n blob g slot hwf hrows hstitches hspan
  have hlen : (encodeGrid g).length = (g.rows * nprOf g.stitches + 1) / 2 := encodeGrid_length g
  have hbase (hne : encodeGrid g ≠ []) : ((encodeGrid g).length : Int) ≤ slot.patternOffset + 1 := by
    have := List.length_pos_iff.2 hne
    omega
  have hregion : BitmapInBlob n slot := by
    rw [BitmapInBlob, NibblesInBlob, hrows, hstitches]
    omega
  exact (holdsEncoding_storeDown hwf hbase).decodeBitmap_ok hrows hstitches hregion

/-! ### Replacement (44_pattern_codec.md R258 to R262) -/

section ReplaceChecks

variable {c : Config} {n : Nat} {g : Grid} {k : Codec} {slot : SlotRecord}

/-- A grid of the slot's size whose span lies in the blob is written. -/
theorem replacePattern_commits (hslot : lookupSlot c k.blob n = .ok (some slot)) (hrows : g.rows = slot.rows)
    (hstitches : g.stitches = slot.stitches)
    (hspan : spanInBlob c.blobLen (slot.patternEndOffset + 1) slot.memoOffset = true) :
    replacePattern c n g k = k.commitSpan c.guard n slot g := by
  simp only [replacePattern, hslot, hrows, hstitches, hspan, ne_eq, not_true_eq_false, or_self, if_false, if_true]

theorem replacePattern_lookupError {e : Status} (h : lookupSlot c k.blob n = .error e) :
    replacePattern c n g k = failed .codecRange k := by
  rw [replacePattern, h, lookupSlot_error h]
  rfl

theorem replacePattern_notFound (h : lookupSlot c k.blob n = .ok none) :
    replacePattern c n g k = failed .patternNotFound k := by
  rw [replacePattern, h]
  rfl

theorem replacePattern_sizeMismatch (hslot : lookupSlot c k.blob n = .ok (some slot))
    (hsize : g.rows ≠ slot.rows ∨ g.stitches ≠ slot.stitches) :
    replacePattern c n g k = failed .sizeMismatch k := by
  rw [replacePattern, hslot]
  exact if_pos hsize

theorem replacePattern_spanBeyond (hslot : lookupSlot c k.blob n = .ok (some slot)) (hrows : g.rows = slot.rows)
    (hstitches : g.stitches = slot.stitches)
    (hspan : ¬spanInBlob c.blobLen (slot.patternEndOffset + 1) slot.memoOffset = true) :
    replacePattern c n g k = failed .codecRange k := by
  simp only [replacePattern, hslot, hrows, hstitches, hspan, ne_eq, not_true_eq_false, or_self, if_false]
  rfl

end ReplaceChecks

theorem exec_repl (n : Nat) (g : Grid) (s : State) :
    exec (.repl n g) s = .next { s with co := replacePattern s.cfg n g s.co } := rfl

/-- Settles O54: the write of `REPL`, read back. -/
theorem replaceWritesExactlyItsSpan : Obligations.ReplaceWritesExactlyItsSpan := by
  unfold Obligations.ReplaceWritesExactlyItsSpan
  intro s n g slot hwf hslot hrows hstitches hspan
  obtain ⟨hother, hbitmap, hmemo⟩ := writeSpan_reads s.co.blob slot g s.cfg.blobLen hwf
    (lookupSlot_consistent _ _ n slot hslot) hrows hstitches hspan
  refine ⟨writeSpan s.co.blob slot g, (s.co.commitSpan s.cfg.guard n slot g).log, ?_, hother, hbitmap, hmemo⟩
  rw [exec_repl, replacePattern_commits hslot hrows hstitches ((spanInBlob_iff _ _ _).2 hspan)]
  rfl

/-- A `REPL` that ends with status OK has written the span of the slot it found. -/
theorem exec_repl_of_ok {s t : State} {n : Nat} {g : Grid} {slot : SlotRecord}
    (hslot : lookupSlot s.cfg s.co.blob n = .ok (some slot)) (h : exec (.repl n g) s = .next t)
    (hok : t.co.status = .ok) :
    g.rows = slot.rows ∧ g.stitches = slot.stitches ∧
      spanInBlob s.cfg.blobLen (slot.patternEndOffset + 1) slot.memoOffset = true ∧
      t.cfg = s.cfg ∧ t.co.blob = writeSpan s.co.blob slot g := by
  rw [exec_repl] at h
  cases h
  rcases replacePattern_cases s.cfg n g s.co with
    ⟨st, hst, hfail⟩ | ⟨slot', hslot', hrows, hstitches, hspan, hcommit⟩
  · have hst' : st = .ok := by rw [← hok, hfail]; rfl
    exact absurd hst (by rw [hst']; decide)
  · obtain rfl : slot' = slot := by simpa [hslot] using hslot'.symm
    exact ⟨hrows, hstitches, hspan, rfl, by rw [hcommit]; rfl⟩

/-- A span in the blob holds the bitmap region and the memo region. -/
theorem regions_of_span {n : Nat} {slot : SlotRecord} (hslot : SlotRecord.Consistent n slot)
    (hspan : slot.memoOffset ≤ slot.patternEndOffset ∨ (0 ≤ slot.patternEndOffset + 1 ∧ slot.memoOffset < n)) :
    BitmapInBlob n slot ∧ MemoInBlob n slot := by
  obtain ⟨hpattern, hend, hmemo⟩ := hslot
  have hbpp : bytesPerPattern slot.stitches slot.rows = (slot.rows * nprOf slot.stitches + 1) / 2 := rfl
  have hbfm : bytesForMemo slot.rows = (slot.rows + 1) / 2 := rfl
  constructor
  · rw [BitmapInBlob, NibblesInBlob]
    omega
  · rw [MemoInBlob, NibblesInBlob]
    omega

/-- A memo region of zero bytes decodes to no flag. -/
theorem decodeMemo_zeros {n : Nat} {m : Memory} {slot : SlotRecord} (hslot : SlotRecord.Consistent n slot)
    (hregion : MemoInBlob n slot)
    (hzero : ∀ a : Nat, slot.patternOffset < a → (a : Int) ≤ slot.memoOffset → memRead m a = 0#8) :
    decodeMemo n m slot = .ok (List.replicate slot.rows false) := by
  obtain ⟨hpattern, _, _⟩ := hslot
  have hbfm : bytesForMemo slot.rows = (slot.rows + 1) / 2 := rfl
  rw [decodeMemo_ok m hregion]
  refine congrArg Except.ok (List.eq_replicate_iff.2 ⟨by simp, List.forall_mem_map.2 fun r hr => ?_⟩)
  have hr : r < slot.rows := List.mem_range.1 hr
  rw [MemoInBlob, NibblesInBlob] at hregion
  rw [nibbleBit, hzero (slot.memoOffset - (r / 2 : Nat)).toNat (by omega) (by omega)]
  exact BitVec.getLsbD_zero

/-- Settles O55: the span that was written holds the grid's encoding and a memo of zeros. -/
theorem decodeAfterReplaceIsTheNewPattern : Obligations.DecodeAfterReplaceIsTheNewPattern := by
  unfold Obligations.DecodeAfterReplaceIsTheNewPattern
  intro s t n g slot hwf hslot h hok
  obtain ⟨hrows, hstitches, hspan, hcfg, hblob⟩ := exec_repl_of_ok hslot h hok
  have hspan := (spanInBlob_iff _ _ _).1 hspan
  have hconsistent := lookupSlot_consistent _ _ n slot hslot
  obtain ⟨_, hbitmap, hmemo⟩ := writeSpan_reads s.co.blob slot g s.cfg.blobLen hwf hconsistent hrows hstitches hspan
  rw [← hblob] at hbitmap hmemo
  obtain ⟨hbitmapIn, hmemoIn⟩ := regions_of_span hconsistent hspan
  rw [← hcfg] at hconsistent hbitmapIn hmemoIn
  exact ⟨exec_bdec_of_ok (HoldsEncoding.decodeBitmap_ok hbitmap hrows.symm hstitches.symm hbitmapIn),
    exec_mdec_of_ok (decodeMemo_zeros hconsistent hmemoIn hmemo)⟩

/-- Settles O56: one check after the other. -/
theorem replaceFailsInTheOrderOfItsChecks : Obligations.ReplaceFailsInTheOrderOfItsChecks := by
  unfold Obligations.ReplaceFailsInTheOrderOfItsChecks
  intro s n g
  refine ⟨fun e he => ?_, fun l hl habsent => ?_, fun slot hslot =>
    ⟨fun hsize => ?_, fun hrows hstitches hne hout => ?_⟩⟩
  · have hlookup : lookupSlot s.cfg s.co.blob n = .error e := by rw [lookupSlot, he]; rfl
    rw [exec_repl, replacePattern_lookupError hlookup]
  · have hfind : l.find? (fun r => r.number == n) = none := List.find?_eq_none.2 (by simpa using habsent)
    have hlookup : lookupSlot s.cfg s.co.blob n = .ok none := by rw [lookupSlot, hl, ← hfind]; rfl
    rw [exec_repl, replacePattern_notFound hlookup]
  · rw [exec_repl, replacePattern_sizeMismatch hslot hsize]
  · have hspan : ¬spanInBlob s.cfg.blobLen (slot.patternEndOffset + 1) slot.memoOffset = true := by
      rw [spanInBlob_iff]
      omega
    rw [exec_repl, replacePattern_spanBeyond hslot hrows hstitches hspan]

end Sys2Proof.Machine
end

section
/-!
PROOFS. The family of 60_exceptions.md: a halted framer stays as it is until the reset input (R281, R327).
-/

namespace Sys2Proof.Machine

/-! ### The halt is absorbing (60_exceptions.md R281, 70_reset_and_hazards.md R327) -/

/-- No frame begins in `HALT`, so the frame's turn is the idle step of one byte. -/
theorem framerFrameStep_halt {s : State} (hp : s.fr.phase = .halt) : framerFrameStep s = .next s := by
  have hbyte : framerFrameStep s = framerByteStep s := by simp only [framerFrameStep, hp, frameLang]
  exact hbyte.trans (framerByteStep_idle s (.inl hp))

/-- The framer's own turns are idle in `HALT`, and of the other turns only the reset writes the framer. -/
theorem takeTurn_keeps_haltedFramer {turn : Turn} {s t : State} (hp : s.fr.phase = .halt) (hturn : turn ≠ .reset)
    (h : takeTurn turn s = .next t) : t.fr = s.fr := by
  obtain ⟨_, _, hcodec, hload⟩ := agentsShareNoState s t
  cases turn with
  | framerByte => cases (framerByteStep_idle s (.inl hp)).symm.trans h; rfl
  | framerFrame => cases (framerFrameStep_halt hp).symm.trans h; rfl
  | codec => exact hcodec h
  | reset => exact absurd rfl hturn
  | loadBlob bytes => exact hload bytes h

/-- Settles O17: with nothing scheduled the turn is the codec's, and a scheduled turn other than the reset keeps the
framer. -/
theorem onlyResetLeavesHalt : Obligations.OnlyResetLeavesHalt := by
  unfold Obligations.OnlyResetLeavesHalt
  intro s t hp hs h
  cases hsched : s.sched with
  | nil =>
    simp only [step, hsched, defaultTurn_codec (.inl hp)] at h
    exact takeTurn_keeps_haltedFramer hp (by decide) h
  | cons turn turns =>
    have hturn : turn ≠ .reset := by simpa [hsched] using hs
    simp only [step, hsched] at h
    exact takeTurn_keeps_haltedFramer (s := { s with sched := turns }) hp hturn h

end Sys2Proof.Machine
end

section
/-!
PROOFS. The family of 70_reset_and_hazards.md: the state at first power-up is legal (R310, R314), and what the reset
input writes and keeps (R310 to R312).
-/

namespace Sys2Proof.Machine

/-! ### First power-up (70_reset_and_hazards.md R310, R314) -/

section PowerUp

variable {c : Config}

/-- Every register's reset value is legal, so a legal `INIT_IMAGE` is all that a legal framer needs. -/
theorem Framer.powerUp_inv (hdata : Memory.wf c.initData = true)
    (hdataIn : Memory.within (nSect * sectBytes) c.initData = true) (hids : Memory.wf c.initIds = true)
    (hidsIn : Memory.within (nSect * idBytes) c.initIds = true) : (Framer.powerUp c).Inv c := by
  rw [Framer.inv_iff]
  constructor
  · exact {
      data_wf := hdata
      data_within := hdataIn
      ids_wf := hids
      ids_within := hidsIn
      force_chained := id
      cmd_legal := .inl rfl
      bps_legal := .inl rfl
      remain_max := Nat.zero_le _
      buf_count := rfl
      buf_max := Nat.zero_le _
      track_max := Nat.zero_le _ }
  · exact ⟨rfl, rfl, rfl⟩

/-- The codec's registers start at `OK` with no result and no warning, so a legal `INIT_BLOB` is all that it needs. -/
theorem Codec.powerUp_inv (hblob : Memory.wf c.initBlob = true)
    (hblobIn : Memory.within c.blobLen c.initBlob = true) : (Codec.powerUp c).Inv c where
  blob_wf := hblob
  blob_within := hblobIn
  failed_result _ := rfl
  warn_only_repl _ := ⟨rfl, rfl⟩

end PowerUp

/-- Settles O11: the default initial memories are all zero, so they are canonical and within their bounds. -/
theorem resetStateIsLegal : Obligations.ResetStateIsLegal := by
  unfold Obligations.ResetStateIsLegal
  exact ⟨Framer.powerUp_inv rfl rfl rfl rfl, Codec.powerUp_inv rfl rfl⟩

/-! ### The reset input (70_reset_and_hazards.md R310 to R312) -/

/-- A scheduled reset is the whole step. -/
theorem step_reset {s : State} {turns : List Turn} (hs : s.sched = .reset :: turns) :
    step s = .next { s with sched := turns }.applyReset := by
  simp only [step, hs, takeTurn]

/-- Settles O24: the step is the reset input, and the reset input writes exactly the registers of R310. -/
theorem resetInputSetsRegistersAndKeepsStorage : Obligations.ResetInputSetsRegistersAndKeepsStorage := by
  unfold Obligations.ResetInputSetsRegistersAndKeepsStorage
  intro s turns hs
  rw [step_reset hs]
  rfl

end Sys2Proof.Machine
end
